-- ==== Sys2Proof/Word.lean ====
section
/-! DEFINITION. The word types of the SDTD link core: the 32-bit host word (spec/00_scope.md R9) and the 64-bit
encoding of a binary64 value (R11). -/

namespace Sys2Proof

/-- A word of the host bus: 32 bits, bit 0 the least significant (R9). -/
abbrev Word := BitVec 32

/-- The 64-bit encoding `bits64(x)` of an IEEE 754 binary64 value (R11): sign in bit 63, exponent in bits 62:52,
fraction in bits 51:0. Software reads and writes samples as bits, so the model keeps them as bits. -/
abbrev F64 := BitVec 64

end Sys2Proof
end

