-- ==== Sys2Proof/Machine/Float.lean ====
section
/-! DEFINITION. The binary64 primitives of spec/00_scope.md R11: round64, fadd, fmul, gt0, and the constants.

Every finite binary64 magnitude is a natural number of units of 2^-1074, so exact values are plain natural numbers, and
the magnitudes' encodings (bits 62:0) rise with the values they stand for. -/

namespace Sys2Proof.Machine

/-- PLUS1 (R11). -/
def plusOne : F64 := 0x3FF0000000000000#64
/-- MINUS1 (R11). -/
def minusOne : F64 := 0xBFF0000000000000#64
/-- PZERO (R11). -/
def plusZero : F64 := 0x0000000000000000#64
/-- The canonical quiet NaN of spec/44_awgn.md R141. -/
def canonicalNaN : F64 := 0x7FF8000000000000#64
/-- +infinity. -/
def plusInfinity : F64 := 0x7FF0000000000000#64

/-- The encoding of the infinite magnitude: exponent all ones, fraction 0. -/
def infMag : Nat := 0x7FF0000000000000

/-- The sign bit. -/
def signBit (x : F64) : Bool := x.getLsbD 63

/-- Bits 62:0, the encoding of the magnitude. -/
def magnitude (x : F64) : Nat := x.toNat % (1 <<< 63)

/-- A NaN: exponent all ones, fraction not 0. -/
def isNaN (x : F64) : Bool := decide (infMag < magnitude x)

/-- An infinity of either sign. -/
def isInf (x : F64) : Bool := magnitude x == infMag

/-- A zero of either sign. -/
def isZero (x : F64) : Bool := magnitude x == 0

/-- Neither an infinity nor a NaN. -/
def isFinite (x : F64) : Bool := decide (magnitude x < infMag)

/-- A value from its sign and the encoding of its magnitude. -/
def ofSignMag (neg : Bool) (m : Nat) : F64 := BitVec.ofNat 64 ((if neg then 1 <<< 63 else 0) + m)

/-- The value of the magnitude with encoding `m`, in units of 2^-1074: subnormal when the exponent field is 0. At
`infMag` it is 2^1024, what the next magnitude above the largest finite one would be. -/
def magValue (m : Nat) : Nat :=
  let e := m / (1 <<< 52)
  let f := m % (1 <<< 52)
  if e = 0 then f else ((1 <<< 52) + f) <<< (e - 1)

/-- The finite value of `x`, in units of 2^-1074. -/
def finiteValue (x : F64) : Int :=
  if signBit x then -(magValue (magnitude x) : Int) else (magValue (magnitude x) : Int)

/-- Reads a number off its bits, `bits` of them from the highest down: the largest `acc + c`, `c < 2^bits`, that `le`
accepts, where `le` accepts `acc` and whatever is below what it accepts. -/
def largestBelow (le : Nat → Bool) : Nat → Nat → Nat
  | 0, acc => acc
  | bits + 1, acc =>
    if le (acc + 1 <<< bits) then largestBelow le bits (acc + 1 <<< bits) else largestBelow le bits acc

/-- Whether the finite magnitude `c` is at most the real number r ≥ 0 with r^k = num / den, in units of 2^-1074. -/
def magAtMost (k num den c : Nat) : Bool := decide (c < infMag) && decide (magValue c ^ k * den ≤ num)

/-- round64 (R11) of the real number r ≥ 0 with r^k = num / den in units of 2^-1074, as the encoding of a magnitude:
the largest magnitude at most r, or the next one when r is above the middle of the two, or on it and the first is odd.
The next one after the largest finite magnitude is infinity, whose middle is R11's bound 2^1024 × (1 - 2^-54). -/
def roundRoot (k num den : Nat) : Nat :=
  let lo := largestBelow (magAtMost k num den) 63 0
  let middle := (magValue lo + magValue (lo + 1)) ^ k * den
  let twice := num * 2 ^ k
  if twice < middle then lo
  else if twice = middle then lo + lo % 2
  else lo + 1

/-- round64 of the rational num / den ≥ 0 (R11). -/
def roundRatio (num den : Nat) : F64 := ofSignMag false (roundRoot 1 (num <<< 1074) den)

/-- A NaN with the sign and the payload of `bits` (some payload where theirs is 0): any NaN is one of these (log 9). -/
def nanFrom (bits : BitVec 64) : F64 :=
  if isNaN (bits ||| plusInfinity) then bits ||| plusInfinity else bits ||| canonicalNaN

/-- IEEE 754 binary64 multiplication, to nearest, ties to even (R11). `nan` is what the result is where it is a NaN
(spec/93_implementation_defined.md I7). -/
def fmul (nan x y : F64) : F64 :=
  let neg := signBit x != signBit y
  if isNaN x || isNaN y then nan
  else if isInf x || isInf y then
    if isZero x || isZero y then nan else ofSignMag neg infMag
  else
    ofSignMag neg (roundRoot 1 (magValue (magnitude x) * magValue (magnitude y)) (1 <<< 1074))

/-- IEEE 754 binary64 addition, to nearest, ties to even (R11). `nan` as in `fmul`. An exact sum of 0 is +0.0, but for
-0.0 + -0.0. -/
def fadd (nan x y : F64) : F64 :=
  if isNaN x || isNaN y then nan
  else if isInf x then
    if isInf y && signBit x != signBit y then nan else x
  else if isInf y then y
  else
    let sum := finiteValue x + finiteValue y
    if sum = 0 then ofSignMag (signBit x && signBit y) 0
    else ofSignMag (decide (sum < 0)) (roundRoot 1 sum.natAbs 1)

/-- `gt0` (R11): true exactly for positive finite non-zero values and +infinity. -/
def gt0 (x : F64) : Bool := !signBit x && !isNaN x && !isZero x

end Sys2Proof.Machine
end

