-- ==== Sys2Proof/Syntax.lean ====
section
/-! DEFINITION. The commands of SDTD-CMD v1 (spec/30_encoding.md R93): one constructor per row of the opcode table,
with its operands as buffer names (R92, spec/00_scope.md R13). -/

namespace Sys2Proof

/-- The four bit buffers, numbered 0 to 3 in this order (R13). -/
inductive BitSel where
  | src
  | coded
  | demod
  | recov
  deriving DecidableEq, Repr, Inhabited

/-- The two sample buffers, numbered 0 and 1 in this order (R13). -/
inductive SampSel where
  | sig
  | rx
  deriving DecidableEq, Repr, Inhabited

/-- A command with its operands (R93). `ba` is the bit buffer of field BA, `bb` of BB, `sa` the sample buffer of SA,
`sb` of SB (R91). -/
inductive Instr where
  /-- R169 -/
  | nop
  /-- R110 -/
  | menc (ba bb : BitSel)
  /-- R112 -/
  | mdec (ba bb : BitSel)
  /-- R120 -/
  | bmod (ba : BitSel) (sb : SampSel)
  /-- R122 -/
  | bdem (sa : SampSel) (bb : BitSel)
  /-- R130 -/
  | qmod (ba : BitSel) (sb : SampSel)
  /-- R132 -/
  | qdem (sa : SampSel) (bb : BitSel)
  /-- R140 -/
  | awgn (sa sb : SampSel)
  /-- R155 -/
  | berc (ba bb : BitSel)
  /-- R145 -/
  | seed
  /-- R168 -/
  | clr
  deriving DecidableEq, Repr, Inhabited

end Sys2Proof
end

