-- ==== Sys2Proof/Config.lean ====
section
/-! DEFINITION. What the spec leaves to the implementation: the parameters of spec/00_scope.md R7 (plain data, held in
State so that claims cover every configuration: log 1) and the free values of spec/93_implementation_defined.md I2 to I5
and I7 (opaque constants without a body: nothing can be proved of the values they take). -/

namespace Sys2Proof

/-- The implementation parameters of R7. -/
structure Params where
  /-- Byte address of the core's window on the host bus, a multiple of 0x200000 (I8). -/
  base : Word
  /-- BITCAP, the capacity of each bit buffer in bits (I9). -/
  bitCap : Nat
  /-- SAMPCAP, the capacity of each sample buffer in 64-bit sample words (I9). -/
  sampCap : Nat
  deriving DecidableEq, Repr, Inhabited

/-- The defaults of R7 for BITCAP and SAMPCAP. DESIGN CHOICE (log 1): R7 gives no default for BASE, the model takes 0. -/
def Params.default : Params := { base := 0, bitCap := 65536, sampCap := 65536 }

/-- Where the generator's draws come from (the parameter GaussianSource of R8, log 6 and 7). -/
inductive GenOrigin where
  /-- The unspecified generator state after a reset, told apart by the number of the free value taken at that reset
  (spec/70_reset_and_hazards.md R221). -/
  | unseeded (draw : Nat)
  /-- The state `gseed(seed)` (R145). -/
  | seeded (seed : BitVec 64)
  /-- A source injected from outside whose first draws are these (source §9 "explicit, injectable noise source"):
  no command and no reset makes one. -/
  | given (draws : List F64)
  deriving DecidableEq, Repr, Inhabited

namespace Config

/-- FREE VALUE (I2, I4; log 6). The n-th draw of the generator with this origin, counted from 0. -/
opaque gaussian : GenOrigin → Nat → F64

/-- FREE VALUE (I3; log 4). What cell `i` of bit buffer `b` holds after the power-on or reset that took draw `d`, until
it is written. -/
opaque powerOnBit : Nat → BitSel → Nat → Bool

/-- FREE VALUE (I3; log 5). What 32-bit half `k` of sample buffer `b` holds after the power-on or reset that took draw
`d`, until it is written: halves 2j and 2j+1 are bits 31:0 and 63:32 of sample word j. -/
opaque powerOnHalf : Nat → SampSel → Nat → Word

/-- FREE VALUE (I5; log 8). The word that a hazardous read gets back, drawn afresh at every such read. -/
opaque busyReadWord : Nat → Word

/-- FREE VALUE (I7; log 9). The bits that the sign and the payload of a NaN made by fadd or fmul are taken from. -/
opaque nanBits : Nat → BitVec 64

end Config

end Sys2Proof
end

