-- ==== Sys2Proof/Machine/State.lean ====
section
/-! DEFINITION. The state of the SDTD link core (spec/10_state.md R20) as plain data, the reasons a step can stop, and
the state after reset (R44). -/

namespace Sys2Proof.Machine

/-- There is no way for this machine to fault: "Nothing in this spec is fault or stuck: every host access and every
command word has a defined outcome" (spec/93_implementation_defined.md, Part 1). No constructor, so nothing raises one. -/
inductive Fault where
  deriving DecidableEq, Repr

/-- Why a command has no meaning. -/
inductive Refusal where
  /-- The command of this mnemonic is not modelled. Raised by an arm of exec only; every arm has a meaning, so nothing
  raises it. Safe: a run that is refused proves nothing. -/
  | notModelled (mnemonic : String)
  deriving DecidableEq, Repr

/-- The shape register of a sample buffer (R25): 0 scalar (BPSK-shaped), 1 pair (QPSK-shaped). -/
inductive Shape where
  | scalar
  | pair
  deriving DecidableEq, Repr, Inhabited

/-- STATUS.ERRCODE (R31, spec/60_exceptions.md R190); codes 6 to 15 are never recorded. -/
inductive ErrCode where
  | none
  | illegal
  | srcLen
  | shape
  | dstCap
  | busy
  deriving DecidableEq, Repr, Inhabited

/-- A bit buffer (R23). -/
structure BitBuf where
  /-- The cells written since power-on or reset, by rising index; a cell not listed holds its power-on value. -/
  cells : List (Nat × Bool)
  /-- The length register, in bits. -/
  len : Word
  deriving DecidableEq, Repr, Inhabited

/-- A sample buffer (R25). -/
structure SampBuf where
  /-- The 32-bit halves written since power-on or reset, by rising index (half 2j is bits 31:0 of sample word j, half
  2j+1 its bits 63:32, spec/20_memory.md R66); a half not listed holds its power-on value. -/
  halves : List (Nat × Word)
  /-- The length register, in symbols. -/
  len : Word
  /-- The shape register. -/
  shape : Shape
  deriving DecidableEq, Repr, Inhabited

/-- CTRL (R30). -/
structure Ctrl where
  doneIe : Bool
  errIe : Bool
  deriving DecidableEq, Repr, Inhabited

/-- STATUS but for BUSY, which equals PEND (R31), and ERR_INFO (R33). -/
structure Status where
  done : Bool
  err : Bool
  ovf : Bool
  errCode : ErrCode
  errInfo : Word
  deriving DecidableEq, Repr, Inhabited

/-- The result registers (R36 to R39). -/
structure Results where
  errCnt : Word
  cmpLen : Word
  ber : F64
  sigma : F64
  power : F64
  deriving DecidableEq, Repr, Inhabited

/-- GState of the parameter GaussianSource (spec/00_scope.md R8), as plain data (log 6): where the draws come from and
how many have been taken. -/
structure GState where
  origin : GenOrigin
  taken : Nat
  deriving DecidableEq, Repr, Inhabited

/-- What can happen to the core from outside, one event a step (spec/20_memory.md R79, log 2). -/
inductive HostEvent where
  /-- `MemWrite(addr, 4, v)` (R60). -/
  | write (addr v : Word)
  /-- `MemRead(addr, 4)` (R60). -/
  | read (addr : Word)
  /-- The core takes its turn between two host accesses (R74): a pending command is performed. -/
  | coreTurn
  /-- The reset input is asserted (spec/70_reset_and_hazards.md R220). -/
  | reset
  deriving DecidableEq, Repr, Inhabited

/-- The state of the core (R20), its configuration, and the model's own fields for what comes from outside. -/
structure State where
  /-- The implementation parameters (spec/00_scope.md R7); no step changes them (log 1). -/
  params : Params
  /-- B[0] (R23). -/
  src : BitBuf
  /-- B[1] (R23). -/
  coded : BitBuf
  /-- B[2] (R23). -/
  demod : BitBuf
  /-- B[3] (R23). -/
  recov : BitBuf
  /-- S[0] (R25). -/
  sig : SampBuf
  /-- S[1] (R25). -/
  rx : SampBuf
  /-- CTRL (R30). -/
  ctrl : Ctrl
  /-- STATUS and ERR_INFO (R31, R33). -/
  status : Status
  /-- PEND, read as STATUS.BUSY (R42). -/
  pend : Bool
  /-- PCMD (R42). -/
  pcmd : Word
  /-- LASTCMD (R32). -/
  lastCmd : Word
  /-- SNR_DB bits 7:0 (R34). -/
  snrDb : BitVec 8
  /-- SEED_LO (R35). -/
  seedLo : Word
  /-- SEED_HI (R35). -/
  seedHi : Word
  /-- ERRCNT, CMPLEN, BER, SIGMA, POWER (R36 to R39). -/
  results : Results
  /-- GEN (R41). -/
  gen : GState
  /-- The model's own: the draw that unwritten cells and samples take their values from (log 4). -/
  powerOn : Nat
  /-- The model's own: the next free value's number (log 10). -/
  draws : Nat
  /-- The model's own: what the outside does next, oldest first (log 2). -/
  inputs : List HostEvent
  /-- The model's own: what the host's reads got back, oldest first (log 2). -/
  replies : List Word
  deriving DecidableEq, Repr, Inhabited

/-- A bit buffer whose cells nothing has written, of length 0 (R44). -/
def BitBuf.unwritten : BitBuf := { cells := [], len := 0 }

/-- A sample buffer whose words nothing has written, of length 0 and shape 0 (R44). -/
def SampBuf.unwritten : SampBuf := { halves := [], len := 0, shape := .scalar }

/-- CTRL after reset (R44). -/
def Ctrl.zero : Ctrl := { doneIe := false, errIe := false }

/-- STATUS and ERR_INFO after reset (R44). -/
def Status.zero : Status := { done := false, err := false, ovf := false, errCode := .none, errInfo := 0 }

/-- The result registers after reset (R44) and after CLR (spec/46_control.md R168). -/
def Results.zero : Results := { errCnt := 0, cmpLen := 0, ber := 0, sigma := 0, power := 0 }

/-- The state after reset (R44). The cells, the samples and GEN are unspecified: free values of draw 0 (log 4, 5, 6).
The model's own fields: DESIGN CHOICE (log 1, 2, 10). -/
def State.reset : State where
  params := Params.default
  src := BitBuf.unwritten
  coded := BitBuf.unwritten
  demod := BitBuf.unwritten
  recov := BitBuf.unwritten
  sig := SampBuf.unwritten
  rx := SampBuf.unwritten
  ctrl := Ctrl.zero
  status := Status.zero
  pend := false
  pcmd := 0
  lastCmd := 0
  snrDb := 0
  seedLo := 0
  seedHi := 0
  results := Results.zero
  gen := { origin := .unseeded 0, taken := 0 }
  powerOn := 0
  draws := 1
  inputs := []
  replies := []

end Sys2Proof.Machine
end

