-- ==== Sys2Proof/Machine/Ops.lean ====
section
/-! DEFINITION. The named operations over buffers and registers: the sparse stores of spec/10_state.md R23 and R25, the
recording of an error (spec/60_exceptions.md R191) and its acknowledgement (R199), acceptance and completion of a command
(spec/46_control.md R165, R166), reset (spec/70_reset_and_hazards.md R220) and the generator (spec/00_scope.md R8). -/

namespace Sys2Proof.Machine

/-! ### Sparse stores

A store lists what has been written since power-on, by rising index; what is not listed reads as the power-on value. -/

/-- The value written at index `i`, if any. -/
def storeGet {α : Type} (c : List (Nat × α)) (i : Nat) : Option α :=
  match c with
  | [] => none
  | (k, v) :: rest => if k = i then some v else storeGet rest i

/-- The values `ys` at the indexes from `start` on. -/
def storeRun {α : Type} (start : Nat) (ys : List α) : List (Nat × α) :=
  match ys with
  | [] => []
  | y :: rest => (start, y) :: storeRun (start + 1) rest

/-- `ys` written at `start`, `start + 1`, … : the rest of the store is unchanged. -/
def storeWrite {α : Type} (start : Nat) (ys : List α) (c : List (Nat × α)) : List (Nat × α) :=
  c.filter (fun kv => decide (kv.1 < start))
    ++ storeRun start ys
    ++ c.filter (fun kv => decide (start + ys.length ≤ kv.1))

/-- The canonical form of a store: indexes strictly rising and below the capacity, so that equal stores are equal
lists. An entry never equals what an unlisted index reads as, since that is no value but the power-on draw (log 4). -/
def storeWf {α : Type} (cap : Nat) (c : List (Nat × α)) : Bool :=
  match c with
  | [] => true
  | (k, _) :: rest => decide (k < cap) && rest.all (fun kv => decide (k < kv.1)) && storeWf cap rest

/-! ### Buffers -/

/-- B[b] (R23). -/
def State.bitBuf (s : State) : BitSel → BitBuf
  | .src => s.src
  | .coded => s.coded
  | .demod => s.demod
  | .recov => s.recov

/-- B[b] replaced. -/
def State.setBitBuf (s : State) (b : BitSel) (x : BitBuf) : State :=
  match b with
  | .src => { s with src := x }
  | .coded => { s with coded := x }
  | .demod => { s with demod := x }
  | .recov => { s with recov := x }

/-- S[s] (R25). -/
def State.sampBuf (s : State) : SampSel → SampBuf
  | .sig => s.sig
  | .rx => s.rx

/-- S[s] replaced. -/
def State.setSampBuf (s : State) (b : SampSel) (x : SampBuf) : State :=
  match b with
  | .sig => { s with sig := x }
  | .rx => { s with rx := x }

/-- `B[b].bit(i)` (R23): what was last written, else the power-on value, a free value (R44; log 4). -/
def State.bitCell (s : State) (b : BitSel) (i : Nat) : Bool :=
  match storeGet (s.bitBuf b).cells i with
  | some v => v
  | none => Config.powerOnBit s.powerOn b i

/-- The 32-bit half `k` of sample buffer `b` (R25, spec/20_memory.md R66): what was last written, else the power-on
value, a free value (R44; log 5). -/
def State.sampHalf (s : State) (b : SampSel) (k : Nat) : Word :=
  match storeGet (s.sampBuf b).halves k with
  | some v => v
  | none => Config.powerOnHalf s.powerOn b k

/-- `S[b].word(j)` (R25): the high half above the low one (R66). -/
def State.sampWord (s : State) (b : SampSel) (j : Nat) : F64 :=
  s.sampHalf b (2 * j + 1) ++ s.sampHalf b (2 * j)

/-- The two halves of a sample, the less significant first (spec/20_memory.md R68). -/
def halvesOf (x : F64) : List Word := [x.extractLsb' 0 32, x.extractLsb' 32 32]

/-- What every command that produces a bit string does: `B[b].bit(j) <- Y[j]` for its bits, `B[b].len` its length, a
32-bit write; the cells from there on keep what they held (R24). -/
def State.putBits (s : State) (b : BitSel) (ys : List Bool) : State :=
  s.setBitBuf b { cells := storeWrite 0 ys (s.bitBuf b).cells, len := BitVec.ofNat 32 ys.length }

/-- What every command that produces a signal does: `S[b].word(j) <- y[j]`, the length in symbols (a 32-bit write) and
the shape; the words from there on keep what they held (R26). -/
def State.putSamples (s : State) (b : SampSel) (ys : List F64) (symbols : Nat) (h : Shape) : State :=
  s.setSampBuf b
    { halves := storeWrite 0 (ys.flatMap halvesOf) (s.sampBuf b).halves, len := BitVec.ofNat 32 symbols, shape := h }

/-! ### Errors: entry and return -/

/-- `record_error(E, info)` (R191): the first error since ERR was last cleared is kept, a later one sets OVF. -/
def recordError (e : ErrCode) (info : Word) (s : State) : State :=
  if s.status.err then { s with status := { s.status with ovf := true } }
  else { s with status := { s.status with err := true, errCode := e, errInfo := info } }

/-- `raise E(w)` in a command rule, `w` the command word being performed, PCMD (R191, spec/46_control.md R166): the
error is recorded and the command writes nothing else. -/
def raiseError (e : ErrCode) (s : State) : Host.Outcome State Fault Refusal := .next (recordError e s.pcmd s)

/-- The return from an error: bit 2 of a write to STATUS clears ERR, OVF, ERRCODE and ERR_INFO (spec/10_state.md R31;
R199). -/
def acknowledgeError (s : State) : State :=
  { s with status := { s.status with err := false, ovf := false, errCode := .none, errInfo := 0 } }

/-- Bit 1 of a write to STATUS clears DONE (R31). -/
def acknowledgeDone (s : State) : State := { s with status := { s.status with done := false } }

/-! ### The execution frame -/

/-- Acceptance of a command word (R165): nothing is decoded or checked. -/
def acceptCommand (w : Word) (s : State) : State :=
  { s with pcmd := w, lastCmd := w, pend := true, status := { s.status with done := false } }

/-- The end of the core's step (R166): `PEND <- 0; STATUS.DONE <- 1`, also after an error. -/
def completeCommand (s : State) : State :=
  { s with pend := false, status := { s.status with done := true } }

/-! ### The generator -/

/-- `gseed` (R8). -/
def gseed (seed : BitVec 64) : GState := { origin := .seeded seed, taken := 0 }

/-- The `n`-th draw from an origin: of an injected source its own list first (log 7), else a free value (log 6). -/
def drawFrom (o : GenOrigin) (n : Nat) : F64 :=
  match o with
  | .unseeded _ => Config.gaussian o n
  | .seeded _ => Config.gaussian o n
  | .given ds =>
    match ds[n]? with
    | some d => d
    | none => Config.gaussian o n

/-- `gnext` (R8): one draw and the successor state. -/
def gnext (g : GState) : F64 × GState := (drawFrom g.origin g.taken, { g with taken := g.taken + 1 })

/-! ### Reset -/

/-- The reset event (R220), at any time: every piece of state at its value of spec/10_state.md R44, the cells, the
samples and GEN unspecified, so a fresh draw (log 4, 5, 6). A pending command is abandoned. The configuration, the
outside's coming events and what the host has read stay (log 2). -/
def resetCore (s : State) : State :=
  { State.reset with
    params := s.params
    gen := { origin := .unseeded s.draws, taken := 0 }
    powerOn := s.draws
    draws := s.draws + 1
    inputs := s.inputs
    replies := s.replies }

end Sys2Proof.Machine
end

