-- ==== Sys2Proof/Machine/Flags.lean ====
section
/-! DEFINITION. STATUS and CTRL as the host reads and writes them, and the interrupt line (spec/10_state.md R30, R31,
R43). A command changes no flag but those of its completion and its error (Ops.lean). -/

namespace Sys2Proof.Machine

/-- The error codes (spec/60_exceptions.md R190). -/
def ErrCode.code : ErrCode → BitVec 4
  | .none => 0
  | .illegal => 1
  | .srcLen => 2
  | .shape => 3
  | .dstCap => 4
  | .busy => 5

/-- One flag as a bit. -/
def flag (b : Bool) : BitVec 1 := BitVec.ofBool b

/-- The STATUS word: ERRCODE in 11:8, OVF 3, ERR 2, DONE 1, BUSY 0, the rest 0 (R31). -/
def State.statusWord (s : State) : Word :=
  (0 : BitVec 20) ++ s.status.errCode.code ++ (0 : BitVec 4) ++ flag s.status.ovf ++ flag s.status.err
    ++ flag s.status.done ++ flag s.pend

/-- The CTRL word: ERR_IE in bit 1, DONE_IE in bit 0, the rest 0 (R30). -/
def State.ctrlWord (s : State) : Word := (0 : BitVec 30) ++ flag s.ctrl.errIe ++ flag s.ctrl.doneIe

/-- A write of CTRL: bits 31:2 are ignored (R30). -/
def writeCtrl (v : Word) (s : State) : State :=
  { s with ctrl := { doneIe := v.getLsbD 0, errIe := v.getLsbD 1 } }

/-- A write of STATUS (R31): bit 1 clears DONE, bit 2 clears ERR and what belongs to it, every other bit is ignored. -/
def writeStatus (v : Word) (s : State) : State :=
  let s1 := if v.getLsbD 1 then acknowledgeDone s else s
  if v.getLsbD 2 then acknowledgeError s1 else s1

/-- The shape bit (R25). -/
def Shape.bit : Shape → Bool
  | .scalar => false
  | .pair => true

/-- The shape that a bit stands for (R25). -/
def Shape.ofBit (b : Bool) : Shape := if b then .pair else .scalar

/-- The interrupt line (R43): it has no state of its own. -/
def State.irq (s : State) : Bool := (s.ctrl.doneIe && s.status.done) || (s.ctrl.errIe && s.status.err)

end Sys2Proof.Machine
end

