-- ==== Sys2Proof/Machine/Operands.lean ====
section
/-! DEFINITION. The operands of the commands (spec/30_encoding.md R92): the bit string of a bit buffer, the signal of a
sample buffer, the SNR and the seed, each as it stands at the start of the command's step (spec/46_control.md R167), and
the capacity checks on them (spec/60_exceptions.md R193). -/

namespace Sys2Proof.Machine

/-- `B[b].len` as a number. -/
def State.bitLen (s : State) (b : BitSel) : Nat := (s.bitBuf b).len.toNat

/-- The SRC_LEN check of a bit operand (R193). -/
def State.bitsFit (s : State) (b : BitSel) : Bool := decide (s.bitLen b ≤ s.params.bitCap)

/-- `bits(b)` (spec/10_state.md R24). -/
def State.bits (s : State) (b : BitSel) : List Bool := (List.range (s.bitLen b)).map (s.bitCell b)

/-- Components a symbol has: 1 + shape (R25). -/
def Shape.width : Shape → Nat
  | .scalar => 1
  | .pair => 2

/-- `S[b].len`, in symbols. -/
def State.symbols (s : State) (b : SampSel) : Nat := (s.sampBuf b).len.toNat

/-- `W(b) = S[b].len × (1 + S[b].shape)` (R25). -/
def State.components (s : State) (b : SampSel) : Nat := s.symbols b * (s.sampBuf b).shape.width

/-- The SRC_LEN check of a sample operand (R193). -/
def State.signalFits (s : State) (b : SampSel) : Bool := decide (s.components b ≤ s.params.sampCap)

/-- The components of the signal held by `b` (R26): I before Q. -/
def State.signal (s : State) (b : SampSel) : List F64 := (List.range (s.components b)).map (s.sampWord b)

/-- The SNR operand: `sext(SNR_DB[7:0])` in dB (R34). -/
def State.snr (s : State) : Int := s.snrDb.toInt

/-- The seed operand: `SEED_HI` above `SEED_LO` (R35). -/
def State.seed (s : State) : BitVec 64 := s.seedHi ++ s.seedLo

end Sys2Proof.Machine
end

