-- ==== Sys2Proof/Machine/Bus.lean ====
section
/-! DEFINITION. The host bus: the address map (spec/20_memory.md R60 to R67, spec/10_state.md R27), what a read returns
and what a write does, with the hazards of spec/70_reset_and_hazards.md R225 and R231. -/

namespace Sys2Proof.Machine

/-- The registers of R27; BUSY, LASTCMD and the two halves of the 64-bit results are read through these. -/
inductive Reg where
  | id
  | capBits
  | capSamp
  | ctrl
  | status
  | cmd
  | errInfo
  | snrDb
  | seedLo
  | seedHi
  | bitLen (b : BitSel)
  | sampLen (b : SampSel)
  | sampShape (b : SampSel)
  | errCnt
  | cmpLen
  | berLo
  | berHi
  | sigmaLo
  | sigmaHi
  | powerLo
  | powerHi
  deriving DecidableEq, Repr, Inhabited

/-- The control and status registers and the operand registers (R27). -/
def controlRegs : List (Nat × Reg) :=
  [ (0x000, .id), (0x004, .capBits), (0x008, .capSamp), (0x00C, .ctrl), (0x010, .status), (0x014, .cmd),
    (0x018, .errInfo), (0x01C, .snrDb), (0x020, .seedLo), (0x024, .seedHi) ]

/-- The length and shape registers (R27). -/
def bufferRegs : List (Nat × Reg) :=
  [ (0x030, .bitLen .src), (0x034, .bitLen .coded), (0x038, .bitLen .demod), (0x03C, .bitLen .recov),
    (0x040, .sampLen .sig), (0x044, .sampShape .sig), (0x048, .sampLen .rx), (0x04C, .sampShape .rx) ]

/-- The result registers (R27). -/
def resultRegs : List (Nat × Reg) :=
  [ (0x050, .errCnt), (0x054, .cmpLen), (0x058, .berLo), (0x05C, .berHi), (0x060, .sigmaLo), (0x064, .sigmaHi),
    (0x068, .powerLo), (0x06C, .powerHi) ]

/-- The register map: offsets and registers (R27). Every other offset below 0x10000 is reserved (R40). -/
def regMap : List (Nat × Reg) := controlRegs ++ bufferRegs ++ resultRegs

/-- What an offset of the window is (R62). -/
inductive Target where
  /-- A register (R27). -/
  | reg (r : Reg)
  /-- Word `m` of the bit window of `b` (R64). -/
  | bitWord (b : BitSel) (m : Nat)
  /-- The 32-bit half `k` of the sample window of `b` (R66). -/
  | sampHalf (b : SampSel) (k : Nat)
  /-- A reserved register offset (R40) or an unmapped one (R63). -/
  | unmapped
  deriving DecidableEq, Repr, Inhabited

/-- The bit buffer with this number (R13). -/
def bitSelOf (n : Nat) : BitSel :=
  match n with
  | 0 => .src
  | 1 => .coded
  | 2 => .demod
  | _ => .recov

/-- The sample buffer with this number (R13). -/
def sampSelOf (n : Nat) : SampSel :=
  match n with
  | 0 => .sig
  | _ => .rx

/-- The entry of the register map for an offset. -/
def regAt (rows : List (Nat × Reg)) (off : Nat) : Target :=
  match rows with
  | [] => .unmapped
  | (o, r) :: rest => if o = off then .reg r else regAt rest off

/-- The address map by offset (R62): `BWIN(b) = 0x010000 + 0x2000 × b`, `SWIN(s) = 0x080000 + 0x080000 × s`. -/
def targetAt (off : Nat) : Target :=
  if off < 0x010000 then regAt regMap off
  else if off < 0x018000 then .bitWord (bitSelOf ((off - 0x010000) / 0x2000)) ((off - 0x010000) % 0x2000 / 4)
  else if off < 0x080000 then .unmapped
  else if off < 0x180000 then .sampHalf (sampSelOf ((off - 0x080000) / 0x080000)) ((off - 0x080000) % 0x080000 / 4)
  else .unmapped

/-- Whether an access is to the core (R60): `BASE <= addr < BASE + 0x200000`. -/
def inWindow (p : Params) (addr : Word) : Bool :=
  decide (p.base.toNat ≤ addr.toNat) && decide (addr.toNat < p.base.toNat + 0x200000)

/-- `off = (addr - BASE)[20:2] × 4` (R60): bits 1:0 of the address are ignored. -/
def offsetOf (p : Params) (addr : Word) : Nat := ((addr - p.base).extractLsb' 2 19).toNat * 4

/-! ### Reads -/

/-- The word that the 32 cells from `32m` on make, most significant bit first (R64). -/
def packWord (bits : List Bool) : Word := bits.foldl (fun v b => v <<< 1 ||| (BitVec.ofBool b).setWidth 32) 0

/-- Word `m` of the bit window of `b` (R64), 0 beyond the capacity (R65). -/
def State.bitWindow (s : State) (b : BitSel) (m : Nat) : Word :=
  if 32 * m < s.params.bitCap then packWord ((List.range 32).map (fun t => s.bitCell b (32 * m + t))) else 0

/-- Half `k` of the sample window of `b` (R66), 0 beyond the capacity (R67). -/
def State.sampWindow (s : State) (b : SampSel) (k : Nat) : Word :=
  if k / 2 < s.params.sampCap then s.sampHalf b k else 0

/-- What a register reads as (R27 to R39). -/
def readReg (r : Reg) (s : State) : Word :=
  match r with
  | .id => 0x53445444
  | .capBits => BitVec.ofNat 32 s.params.bitCap
  | .capSamp => BitVec.ofNat 32 s.params.sampCap
  | .ctrl => s.ctrlWord
  | .status => s.statusWord
  | .cmd => s.lastCmd
  | .errInfo => s.status.errInfo
  | .snrDb => s.snrDb.setWidth 32
  | .seedLo => s.seedLo
  | .seedHi => s.seedHi
  | .bitLen b => (s.bitBuf b).len
  | .sampLen b => (s.sampBuf b).len
  | .sampShape b => (flag (s.sampBuf b).shape.bit).setWidth 32
  | .errCnt => s.results.errCnt
  | .cmpLen => s.results.cmpLen
  | .berLo => s.results.ber.extractLsb' 0 32
  | .berHi => s.results.ber.extractLsb' 32 32
  | .sigmaLo => s.results.sigma.extractLsb' 0 32
  | .sigmaHi => s.results.sigma.extractLsb' 32 32
  | .powerLo => s.results.power.extractLsb' 0 32
  | .powerHi => s.results.power.extractLsb' 32 32

/-- What an offset reads as while no command is pending; reserved and unmapped offsets read 0 (R40, R63). -/
def readTarget (t : Target) (s : State) : Word :=
  match t with
  | .reg r => readReg r s
  | .bitWord b m => s.bitWindow b m
  | .sampHalf b k => s.sampWindow b k
  | .unmapped => 0

/-- The registers whose read while PEND = 1 returns an unspecified value (R231): lengths, shapes and results. -/
def Reg.readHazard : Reg → Bool
  | .id => false
  | .capBits => false
  | .capSamp => false
  | .ctrl => false
  | .status => false
  | .cmd => false
  | .errInfo => false
  | .snrDb => false
  | .seedLo => false
  | .seedHi => false
  | .bitLen _ => true
  | .sampLen _ => true
  | .sampShape _ => true
  | .errCnt => true
  | .cmpLen => true
  | .berLo => true
  | .berHi => true
  | .sigmaLo => true
  | .sigmaHi => true
  | .powerLo => true
  | .powerHi => true

/-- The offsets whose read while PEND = 1 returns an unspecified value (R231): those registers and any window word. -/
def Target.readHazard : Target → Bool
  | .reg r => r.readHazard
  | .bitWord _ _ => true
  | .sampHalf _ _ => true
  | .unmapped => false

/-- A host read (R60, R71): the host gets the word back; nothing else changes but the number of the next free value
where the read is hazardous (I5; log 8). An access outside the window is not the core's (log 13). -/
def hostRead (addr : Word) (s : State) : State :=
  if inWindow s.params addr then
    let t := targetAt (offsetOf s.params addr)
    if s.pend && t.readHazard then
      { s with replies := s.replies ++ [Config.busyReadWord s.draws], draws := s.draws + 1 }
    else { s with replies := s.replies ++ [readTarget t s] }
  else s

/-! ### Writes -/

/-- The guarded registers (R225). -/
def Reg.guarded : Reg → Bool
  | .id => false
  | .capBits => false
  | .capSamp => false
  | .ctrl => false
  | .status => false
  | .cmd => true
  | .errInfo => false
  | .snrDb => true
  | .seedLo => true
  | .seedHi => true
  | .bitLen _ => true
  | .sampLen _ => true
  | .sampShape _ => true
  | .errCnt => false
  | .cmpLen => false
  | .berLo => false
  | .berHi => false
  | .sigmaLo => false
  | .sigmaHi => false
  | .powerLo => false
  | .powerHi => false

/-- The guarded offsets (R225): those registers and every word of the windows. -/
def Target.guarded : Target → Bool
  | .reg r => r.guarded
  | .bitWord _ _ => true
  | .sampHalf _ _ => true
  | .unmapped => false

/-- The 32 bits of a word, most significant first (R64). -/
def wordBits (v : Word) : List Bool := (List.range 32).map (fun t => v.getLsbD (31 - t))

/-- A write of word `m` of the bit window of `b` (R64), ignored beyond the capacity; the length does not change (R65). -/
def writeBitWord (b : BitSel) (m : Nat) (v : Word) (s : State) : State :=
  if 32 * m < s.params.bitCap then
    s.setBitBuf b { s.bitBuf b with cells := storeWrite (32 * m) (wordBits v) (s.bitBuf b).cells }
  else s

/-- A write of half `k` of the sample window of `b` (R66), ignored beyond the capacity; neither the length nor the shape
changes (R67). -/
def writeSampHalf (b : SampSel) (k : Nat) (v : Word) (s : State) : State :=
  if k / 2 < s.params.sampCap then
    s.setSampBuf b { s.sampBuf b with halves := storeWrite k [v] (s.sampBuf b).halves }
  else s

/-- What a write of a register does while no command is pending (R27): writes of read-only registers are ignored. -/
def writeReg (r : Reg) (v : Word) (s : State) : State :=
  match r with
  | .id => s
  | .capBits => s
  | .capSamp => s
  | .ctrl => writeCtrl v s
  | .status => writeStatus v s
  | .cmd => acceptCommand v s
  | .errInfo => s
  | .snrDb => { s with snrDb := v.setWidth 8 }
  | .seedLo => { s with seedLo := v }
  | .seedHi => { s with seedHi := v }
  | .bitLen b => s.setBitBuf b { s.bitBuf b with len := v }
  | .sampLen b => s.setSampBuf b { s.sampBuf b with len := v }
  | .sampShape b => s.setSampBuf b { s.sampBuf b with shape := Shape.ofBit (v.getLsbD 0) }
  | .errCnt => s
  | .cmpLen => s
  | .berLo => s
  | .berHi => s
  | .sigmaLo => s
  | .sigmaHi => s
  | .powerLo => s
  | .powerHi => s

/-- What a write of an offset does while no command is pending; reserved and unmapped offsets ignore it (R40, R63). -/
def writeTarget (t : Target) (v : Word) (s : State) : State :=
  match t with
  | .reg r => writeReg r v s
  | .bitWord b m => writeBitWord b m v s
  | .sampHalf b k => writeSampHalf b k v s
  | .unmapped => s

/-- A host write (R60). A guarded offset while PEND = 1: the write is dropped and BUSY is recorded with the byte offset
(spec/60_exceptions.md R196). An access outside the window is not the core's (log 13). -/
def hostWrite (addr v : Word) (s : State) : State :=
  if inWindow s.params addr then
    let off := offsetOf s.params addr
    if s.pend && (targetAt off).guarded then recordError .busy (BitVec.ofNat 32 off) s
    else writeTarget (targetAt off) v s
  else s

end Sys2Proof.Machine
end

