-- ==== Sys2Proof/WellFormed.lean ====
section
/-! DEFINITION. Well-formedness: of a configuration (the ranges of spec/00_scope.md R7) and of a command
(spec/30_encoding.md R92). -/

namespace Sys2Proof

/-- The ranges of R7: BASE a multiple of 0x200000, BITCAP a multiple of 32 in 32 .. 65536, SAMPCAP even in 2 .. 65536. -/
def Params.wellFormed (p : Params) : Bool :=
  p.base.toNat % 0x200000 == 0
    && p.bitCap % 32 == 0 && decide (32 ≤ p.bitCap) && decide (p.bitCap ≤ 65536)
    && p.sampCap % 2 == 0 && decide (2 ≤ p.sampCap) && decide (p.sampCap ≤ 65536)

/-- "Every value of every operand field is legal for a command that uses the field; any two operands may name the same
buffer" (R92), and a field that a command does not use has no place in its constructor: every term of Instr is a
well-formed command. -/
def Instr.wellFormed : Instr → Bool
  | .nop => true
  | .menc _ _ => true
  | .mdec _ _ => true
  | .bmod _ _ => true
  | .bdem _ _ => true
  | .qmod _ _ => true
  | .qdem _ _ => true
  | .awgn _ _ => true
  | .berc _ _ => true
  | .seed => true
  | .clr => true

end Sys2Proof
end

