-- ==== Sys2Proof/Decode.lean ====
section
/-! DEFINITION. The decoder of spec/30_encoding.md R96, total on every 32-bit word, and the encoder of R97 and R91. -/

namespace Sys2Proof

/-- Why a word encodes no command (R95). The machine treats all three alike: ILLEGAL. -/
inductive Illegal where
  /-- A 1 in RSV, bits 31:10 (R94). -/
  | reservedField
  /-- OPC 0xB .. 0xF (R95). -/
  | reservedOpcode
  /-- A 1 in an operand field the opcode does not use (R94). -/
  | unusedField
  deriving DecidableEq, Repr, Inhabited

/-- Bit-buffer numbers (R13, R92). -/
def BitSel.ofField (f : BitVec 2) : BitSel :=
  match f.toNat with
  | 0 => .src
  | 1 => .coded
  | 2 => .demod
  | _ => .recov

/-- Sample-buffer numbers (R13, R92). -/
def SampSel.ofField (f : BitVec 1) : SampSel :=
  match f.toNat with
  | 0 => .sig
  | _ => .rx

/-- The fields of format C (R91). -/
def fieldOpc (w : Word) : BitVec 4 := w.extractLsb' 0 4
def fieldBa (w : Word) : BitVec 2 := w.extractLsb' 4 2
def fieldBb (w : Word) : BitVec 2 := w.extractLsb' 6 2
def fieldSa (w : Word) : BitVec 1 := w.extractLsb' 8 1
def fieldSb (w : Word) : BitVec 1 := w.extractLsb' 9 1
def fieldRsv (w : Word) : BitVec 22 := w.extractLsb' 10 22

/-- A command whose unused operand fields must be 0 (R94). -/
def ifUnusedZero (unusedZero : Bool) (i : Instr) : Except Illegal Instr :=
  if unusedZero then .ok i else .error .unusedField

/-- `decode` of R96. -/
def decode (w : Word) : Except Illegal Instr :=
  let ba := BitSel.ofField (fieldBa w)
  let bb := BitSel.ofField (fieldBb w)
  let sa := SampSel.ofField (fieldSa w)
  let sb := SampSel.ofField (fieldSb w)
  let noBa := fieldBa w == 0
  let noBb := fieldBb w == 0
  let noSa := fieldSa w == 0
  let noSb := fieldSb w == 0
  if fieldRsv w ≠ 0 then .error .reservedField
  else
    match (fieldOpc w).toNat with
    | 0x0 => ifUnusedZero (noSb && noSa && noBb && noBa) .nop
    | 0x1 => ifUnusedZero (noSb && noSa) (.menc ba bb)
    | 0x2 => ifUnusedZero (noSb && noSa) (.mdec ba bb)
    | 0x3 => ifUnusedZero (noSa && noBb) (.bmod ba sb)
    | 0x4 => ifUnusedZero (noSb && noBa) (.bdem sa bb)
    | 0x5 => ifUnusedZero (noSa && noBb) (.qmod ba sb)
    | 0x6 => ifUnusedZero (noSb && noBa) (.qdem sa bb)
    | 0x7 => ifUnusedZero (noBb && noBa) (.awgn sa sb)
    | 0x8 => ifUnusedZero (noSb && noSa) (.berc ba bb)
    | 0x9 => ifUnusedZero (noSb && noSa && noBb && noBa) .seed
    | 0xA => ifUnusedZero (noSb && noSa && noBb && noBa) .clr
    | _ => .error .reservedOpcode

/-- The opcode-table reader of the host: the row's bits, numbered from bit 0 of the first word. A command is one 32-bit
word (R90), so the bits are the word itself, the bits above `nbits` zero. -/
def decodeTableWord (nbits w : Nat) : Option Instr :=
  match decode (BitVec.ofNat 32 (w % 2 ^ nbits)) with
  | .ok i => some i
  | .error _ => none

/-- The number of a bit buffer in its field (R13). -/
def BitSel.field : BitSel → BitVec 2
  | .src => 0
  | .coded => 1
  | .demod => 2
  | .recov => 3

/-- The number of a sample buffer in its field (R13). -/
def SampSel.field : SampSel → BitVec 1
  | .sig => 0
  | .rx => 1

/-- `w = OPC | ba << 4 | bb << 6 | sa << 8 | sb << 9` (R97), laid out as R91 says, RSV 0. -/
def packC (sb sa : BitVec 1) (bb ba : BitVec 2) (opc : BitVec 4) : Word :=
  (0 : BitVec 22) ++ sb ++ sa ++ bb ++ ba ++ opc

/-- The word of a command (R93, R97), unused fields 0. -/
def encode : Instr → Word
  | .nop => packC 0 0 0 0 0x0
  | .menc ba bb => packC 0 0 bb.field ba.field 0x1
  | .mdec ba bb => packC 0 0 bb.field ba.field 0x2
  | .bmod ba sb => packC sb.field 0 0 ba.field 0x3
  | .bdem sa bb => packC 0 sa.field bb.field 0 0x4
  | .qmod ba sb => packC sb.field 0 0 ba.field 0x5
  | .qdem sa bb => packC 0 sa.field bb.field 0 0x6
  | .awgn sa sb => packC sb.field sa.field 0 0 0x7
  | .berc ba bb => packC 0 0 bb.field ba.field 0x8
  | .seed => packC 0 0 0 0 0x9
  | .clr => packC 0 0 0 0 0xA

/-- A row of the opcode map (R93): a word is the row's command when `w AND mask = pattern`. -/
def matchMask : Instr → Word × Word
  | .nop => (0x00000000, 0xFFFFFFFF)
  | .menc _ _ => (0x00000001, 0xFFFFFF0F)
  | .mdec _ _ => (0x00000002, 0xFFFFFF0F)
  | .bmod _ _ => (0x00000003, 0xFFFFFDCF)
  | .bdem _ _ => (0x00000004, 0xFFFFFE3F)
  | .qmod _ _ => (0x00000005, 0xFFFFFDCF)
  | .qdem _ _ => (0x00000006, 0xFFFFFE3F)
  | .awgn _ _ => (0x00000007, 0xFFFFFCFF)
  | .berc _ _ => (0x00000008, 0xFFFFFF0F)
  | .seed => (0x00000009, 0xFFFFFFFF)
  | .clr => (0x0000000A, 0xFFFFFFFF)

/-- The eleven rows of the opcode map (R93), match and mask, in the table's order. -/
def opcodeRows : List (Word × Word) :=
  [ (0x00000000, 0xFFFFFFFF), (0x00000001, 0xFFFFFF0F), (0x00000002, 0xFFFFFF0F), (0x00000003, 0xFFFFFDCF),
    (0x00000004, 0xFFFFFE3F), (0x00000005, 0xFFFFFDCF), (0x00000006, 0xFFFFFE3F), (0x00000007, 0xFFFFFCFF),
    (0x00000008, 0xFFFFFF0F), (0x00000009, 0xFFFFFFFF), (0x0000000A, 0xFFFFFFFF) ]

end Sys2Proof
end

