-- ==== Sys2Proof/Machine/Awgn.lean ====
section
/-! DEFINITION. The AWGN injector and its generator: AWGN and SEED (spec/44_awgn.md R140 to R145). -/

namespace Sys2Proof.Machine

/-- The exact sum of the squares of finite components, in units of 2^-2148. -/
def sumSquares (xs : List F64) : Nat := (xs.map (fun x => magValue (magnitude x) ^ 2)).sum

/-- Case (c) of R141: round64 of the exact sum of squares over the number of symbols. -/
def finitePower (xs : List F64) (symbols : Nat) : F64 :=
  ofSignMag false (roundRoot 1 (sumSquares xs) (symbols <<< 1074))

/-- Case (c) of R142: round64 of sqrt(Pexact / (2 × 10^(snr/10))). Its 20th power is the rational
Pexact^10 / (2^10 × 10^snr), so the one rounding is exact. -/
def finiteSigma (xs : List F64) (symbols : Nat) (snr : Int) : F64 :=
  ofSignMag false
    (roundRoot 20 (sumSquares xs ^ 10 * 10 ^ (-snr).toNat) (symbols ^ 10 * 2 ^ 10 * 10 ^ snr.toNat))

/-- `awgn_scale`: the signal power (R141) and the noise standard deviation (R142). -/
def awgnScale (xs : List F64) (symbols : Nat) (snr : Int) : F64 × F64 :=
  if xs.any isNaN then (canonicalNaN, canonicalNaN)
  else if xs.any isInf then (plusInfinity, plusInfinity)
  else (finitePower xs symbols, finiteSigma xs symbols snr)

/-- The NaN that stands for any NaN, drawn with number `n` (spec/93_implementation_defined.md I7; log 9). -/
def freeNaN (n : Nat) : F64 := nanFrom (Config.nanBits n)

/-- One component with its noise: `fadd(x, fmul(sigma, g))` (R140). -/
def noisy (nan sigma x g : F64) : F64 := fadd nan x (fmul nan sigma g)

/-- The components with their noise, one draw each in increasing order, and the generator after the last (R140). The
free NaN of the component at place j is number `n + j`. -/
def addNoise (sigma : F64) : List F64 → GState → Nat → List F64 × GState
  | [], g, _ => ([], g)
  | x :: rest, g, n =>
    let drawn := gnext g
    let tail := addNoise sigma rest drawn.2 (n + 1)
    (noisy (freeNaN n) sigma x drawn.1 :: tail.1, tail.2)

/-- AWGN sa, sb (R140). -/
def execAwgn (sa sb : SampSel) (s : State) : Host.Outcome State Fault Refusal :=
  let shape := (s.sampBuf sa).shape
  if !s.signalFits sa then raiseError .srcLen s
  else if s.symbols sa = 0 then
    .next { s.putSamples sb [] 0 shape with
      results := { s.results with power := plusZero, sigma := plusZero } }
  else
    let scale := awgnScale (s.signal sa) (s.symbols sa) s.snr
    let out := addNoise scale.2 (s.signal sa) s.gen s.draws
    .next { s.putSamples sb out.1 (s.symbols sa) shape with
      results := { s.results with power := scale.1, sigma := scale.2 }
      gen := out.2
      draws := s.draws + s.components sa }

/-- SEED (R145). -/
def execSeed (s : State) : Host.Outcome State Fault Refusal := .next { s with gen := gseed s.seed }

end Sys2Proof.Machine
end

