-- ==== Sys2Proof/Machine/Ber.lean ====
section
/-! DEFINITION. The BER comparator: BERC (spec/45_ber.md R155). -/

namespace Sys2Proof.Machine

/-- The number of places where two bit strings differ, over the shorter length (R155). -/
def countDiffering : List Bool → List Bool → Nat
  | a :: as, r :: rs => (if a = r then 0 else 1) + countDiffering as rs
  | _, _ => 0

/-- BER (R155, R157): +0.0 when nothing is compared, else the exact quotient rounded once. -/
def berValue (errors compared : Nat) : F64 := if compared = 0 then plusZero else roundRatio errors compared

/-- BERC ba, bb (R155): `ba` is the reference, `bb` what was received. -/
def execBerc (ba bb : BitSel) (s : State) : Host.Outcome State Fault Refusal :=
  if !s.bitsFit ba || !s.bitsFit bb then raiseError .srcLen s
  else
    let errors := countDiffering (s.bits ba) (s.bits bb)
    let compared := min (s.bitLen ba) (s.bitLen bb)
    .next { s with
      results := { s.results with
        errCnt := BitVec.ofNat 32 errors
        cmpLen := BitVec.ofNat 32 compared
        ber := berValue errors compared } }

end Sys2Proof.Machine
end

