-- ==== Sys2Proof/Machine/Bpsk.lean ====
section
/-! DEFINITION. The BPSK modulator and demodulator: BMOD and BDEM (spec/42_bpsk.md R120, R122). -/

namespace Sys2Proof.Machine

/-- '1' to +1.0, '0' to -1.0 (R120). -/
def bpskSymbol (b : Bool) : F64 := if b then plusOne else minusOne

/-- amplitude > 0 to '1', else '0' (R122). -/
def bpskSlice (x : F64) : Bool := gt0 x

/-- BMOD ba, sb (R120). -/
def execBmod (ba : BitSel) (sb : SampSel) (s : State) : Host.Outcome State Fault Refusal :=
  if !s.bitsFit ba then raiseError .srcLen s
  else if s.bitLen ba > s.params.sampCap then raiseError .dstCap s
  else .next (s.putSamples sb ((s.bits ba).map bpskSymbol) (s.bitLen ba) .scalar)

/-- BDEM sa, bb (R122). -/
def execBdem (sa : SampSel) (bb : BitSel) (s : State) : Host.Outcome State Fault Refusal :=
  if !s.signalFits sa then raiseError .srcLen s
  else if (s.sampBuf sa).shape ≠ .scalar then raiseError .shape s
  else if s.symbols sa > s.params.bitCap then raiseError .dstCap s
  else .next (s.putBits bb ((s.signal sa).map bpskSlice))

end Sys2Proof.Machine
end

