-- ==== Sys2Proof/Machine/Control.lean ====
section
/-! DEFINITION. The control commands NOP and CLR (spec/46_control.md R168, R169). -/

namespace Sys2Proof.Machine

/-- NOP (R169): no state beyond the frame. -/
def execNop (s : State) : Host.Outcome State Fault Refusal := .next s

/-- A bit buffer with length 0 and its cells as they are (R168). -/
def BitBuf.emptied (x : BitBuf) : BitBuf := { x with len := 0 }

/-- A sample buffer with length 0 and shape 0 and its words as they are (R168). -/
def SampBuf.emptied (x : SampBuf) : SampBuf := { x with len := 0, shape := .scalar }

/-- CLR (R168): every length and shape register and every result register to 0, nothing else. -/
def execClr (s : State) : Host.Outcome State Fault Refusal :=
  .next { s with
    src := s.src.emptied
    coded := s.coded.emptied
    demod := s.demod.emptied
    recov := s.recov.emptied
    sig := s.sig.emptied
    rx := s.rx.emptied
    results := Results.zero }

end Sys2Proof.Machine
end

