-- ==== Sys2Proof/Machine/LineCoding.lean ====
section
/-! DEFINITION. Manchester line coding: MENC and MDEC (spec/41_line_coding.md R110, R112). -/

namespace Sys2Proof.Machine

/-- 0 gives "01", 1 gives "10" (R110). -/
def manchesterEncode : List Bool → List Bool
  | [] => []
  | x :: rest => x :: (!x) :: manchesterEncode rest

/-- "10" gives 1, "01", "00" and "11" give 0, and a final odd bit is dropped (R112). -/
def manchesterDecode : List Bool → List Bool
  | [] => []
  | [_] => []
  | x :: y :: rest => (x && !y) :: manchesterDecode rest

/-- MENC ba, bb (R110). -/
def execMenc (ba bb : BitSel) (s : State) : Host.Outcome State Fault Refusal :=
  if !s.bitsFit ba then raiseError .srcLen s
  else if 2 * s.bitLen ba > s.params.bitCap then raiseError .dstCap s
  else .next (s.putBits bb (manchesterEncode (s.bits ba)))

/-- MDEC ba, bb (R112). -/
def execMdec (ba bb : BitSel) (s : State) : Host.Outcome State Fault Refusal :=
  if !s.bitsFit ba then raiseError .srcLen s
  else .next (s.putBits bb (manchesterDecode (s.bits ba)))

end Sys2Proof.Machine
end

