-- ==== Sys2Proof/Machine/Qpsk.lean ====
section
/-! DEFINITION. The QPSK modulator and demodulator: QMOD and QDEM (spec/43_qpsk.md R130, R132). -/

namespace Sys2Proof.Machine

/-- '0' to +1.0, '1' to -1.0, for I and for Q (R130). -/
def qpskComponent (b : Bool) : F64 := if b then minusOne else plusOne

/-- component > 0 to '0', else '1' (R132). -/
def qpskSlice (x : F64) : Bool := !gt0 x

/-- One trailing '0' when the number of bits is odd (R130). -/
def padEven (xs : List Bool) : List Bool := if xs.length % 2 = 1 then xs ++ [false] else xs

/-- QMOD ba, sb (R130). -/
def execQmod (ba : BitSel) (sb : SampSel) (s : State) : Host.Outcome State Fault Refusal :=
  let symbols := (s.bitLen ba + 1) / 2
  if !s.bitsFit ba then raiseError .srcLen s
  else if 2 * symbols > s.params.sampCap then raiseError .dstCap s
  else .next (s.putSamples sb ((padEven (s.bits ba)).map qpskComponent) symbols .pair)

/-- QDEM sa, bb (R132). -/
def execQdem (sa : SampSel) (bb : BitSel) (s : State) : Host.Outcome State Fault Refusal :=
  if !s.signalFits sa then raiseError .srcLen s
  else if (s.sampBuf sa).shape ≠ .pair then raiseError .shape s
  else if 2 * s.symbols sa > s.params.bitCap then raiseError .dstCap s
  else .next (s.putBits bb ((s.signal sa).map qpskSlice))

end Sys2Proof.Machine
end

