-- ==== Sys2Proof/Machine/Dispatch.lean ====
section
/-! DEFINITION. One arm per command: the rule that the core's step performs (spec/46_control.md R166). -/

namespace Sys2Proof.Machine

def exec (i : Instr) (s : State) : Host.Outcome State Fault Refusal :=
  match i with
  | .nop => Sys2Proof.Machine.execNop s
  | .menc ba bb => Sys2Proof.Machine.execMenc ba bb s
  | .mdec ba bb => Sys2Proof.Machine.execMdec ba bb s
  | .bmod ba sb => Sys2Proof.Machine.execBmod ba sb s
  | .bdem sa bb => Sys2Proof.Machine.execBdem sa bb s
  | .qmod ba sb => Sys2Proof.Machine.execQmod ba sb s
  | .qdem sa bb => Sys2Proof.Machine.execQdem sa bb s
  | .awgn sa sb => Sys2Proof.Machine.execAwgn sa sb s
  | .berc ba bb => Sys2Proof.Machine.execBerc ba bb s
  | .seed => Sys2Proof.Machine.execSeed s
  | .clr => Sys2Proof.Machine.execClr s

end Sys2Proof.Machine
end

