-- ==== Sys2Proof/Machine/Agents.lean ====
section
/-! DEFINITION. What the two agents do in one step: the core performs its pending command (spec/46_control.md R166), the
host makes one access (spec/20_memory.md R74), or reset is asserted (spec/70_reset_and_hazards.md R220). -/

namespace Sys2Proof.Machine

/-- The end of the frame around a command's own outcome (R166). -/
def thenComplete (o : Host.Outcome State Fault Refusal) : Host.Outcome State Fault Refusal :=
  match o with
  | .next t => .next (completeCommand t)
  | .fault f => .fault f
  | .refused r => .refused r

/-- The core's step on the pending word `w` (R166): an illegal word records ILLEGAL and nothing else is performed. -/
def performCommand (w : Word) (s : State) : Host.Outcome State Fault Refusal :=
  match decode w with
  | .ok i => thenComplete (exec i s)
  | .error _ => .next (completeCommand (recordError .illegal w s))

/-- The core's turn: it has a step exactly when PEND = 1 (R166); idle otherwise, all state as it is (R208; log 3). -/
def coreTurn (s : State) : Host.Outcome State Fault Refusal :=
  if s.pend then performCommand s.pcmd s else .next s

/-- One event from outside (log 2). -/
def runEvent (e : HostEvent) (s : State) : Host.Outcome State Fault Refusal :=
  match e with
  | .write addr v => .next (hostWrite addr v s)
  | .read addr => .next (hostRead addr s)
  | .coreTurn => coreTurn s
  | .reset => .next (resetCore s)

/-- The state in which the next event is the core's turn on command word `w`: accepted as a host write of CMD accepts it
(R165), and nothing else changed. -/
def placeCommand (w : Word) (s : State) : State :=
  { acceptCommand w s with inputs := .coreTurn :: s.inputs }

end Sys2Proof.Machine
end

