-- ==== Sys2Proof/Machine/Step.lean ====
section
/-! DEFINITION. One step of the whole machine (log 2): the next event from outside, or, when there is none, the core's
turn. And where the machine takes its next command from. -/

namespace Sys2Proof.Machine

/-- One step. The host's accesses and the core's steps are in one order (spec/20_memory.md R74). When the outside has
nothing more to do a pending command is performed (weak fairness, spec/46_control.md R171). -/
def step (s : State) : Host.Outcome State Fault Refusal :=
  match s.inputs with
  | [] => coreTurn s
  | e :: rest => runEvent e { s with inputs := rest }

/-- The machine fetches nothing (spec/20_memory.md R61): a command comes to it as a word accepted by CMD. This is `s`
with that word accepted and the core's turn next (log 12). -/
def State.withFetchWord (s : State) (nbits w : Nat) : State := placeCommand (BitVec.ofNat 32 (w % 2 ^ nbits)) s

end Sys2Proof.Machine
end

