-- ==== Sys2Proof/Machine/Assembler.lean ====
section
/-! DEFINITION. The assembly syntax of spec/30_encoding.md R97 and the operand-less pseudo-instructions of R98. A line is
a list of characters: the mnemonic, then the operands, source before destination, separated by commas; mnemonics and
buffer names are case-insensitive. -/

namespace Sys2Proof.Machine

/-- The parts of a line between two separators. -/
def splitAt (sep : Char) : List Char → List (List Char)
  | [] => [[]]
  | c :: rest =>
    if c = sep then [] :: splitAt sep rest
    else
      match splitAt sep rest with
      | [] => [[c]]
      | part :: parts => (c :: part) :: parts

/-- A part without the spaces around it. -/
def trimmed (t : List Char) : List Char := ((t.dropWhile (· == ' ')).reverse.dropWhile (· == ' ')).reverse

/-- A part as it is compared: upper case, no spaces around it. -/
def token (t : List Char) : List Char := (trimmed t).map Char.toUpper

/-- The name of a bit buffer (spec/00_scope.md R13). -/
def bitName (t : List Char) : Option BitSel :=
  if t = ['S', 'R', 'C'] then some .src
  else if t = ['C', 'O', 'D', 'E', 'D'] then some .coded
  else if t = ['D', 'E', 'M', 'O', 'D'] then some .demod
  else if t = ['R', 'E', 'C', 'O', 'V'] then some .recov
  else none

/-- The name of a sample buffer (spec/00_scope.md R13). -/
def sampName (t : List Char) : Option SampSel :=
  if t = ['S', 'I', 'G'] then some .sig
  else if t = ['R', 'X'] then some .rx
  else none

/-- A command with two bit-buffer operands, or the one it stands for without operands (R98). -/
def asmBitBit (make : BitSel → BitSel → Instr) (pseudo : Instr) (ops : List (List Char)) : Option Instr :=
  match ops with
  | [] => some pseudo
  | [a, b] => do return make (← bitName a) (← bitName b)
  | _ => none

/-- A command from a bit buffer to a sample buffer. -/
def asmBitSamp (make : BitSel → SampSel → Instr) (pseudo : Instr) (ops : List (List Char)) : Option Instr :=
  match ops with
  | [] => some pseudo
  | [a, b] => do return make (← bitName a) (← sampName b)
  | _ => none

/-- A command from a sample buffer to a bit buffer. -/
def asmSampBit (make : SampSel → BitSel → Instr) (pseudo : Instr) (ops : List (List Char)) : Option Instr :=
  match ops with
  | [] => some pseudo
  | [a, b] => do return make (← sampName a) (← bitName b)
  | _ => none

/-- A command with two sample-buffer operands. -/
def asmSampSamp (make : SampSel → SampSel → Instr) (pseudo : Instr) (ops : List (List Char)) : Option Instr :=
  match ops with
  | [] => some pseudo
  | [a, b] => do return make (← sampName a) (← sampName b)
  | _ => none

/-- A command without operands. -/
def asmPlain (i : Instr) (ops : List (List Char)) : Option Instr := if ops = [] then some i else none

/-- The command of a mnemonic and its operands (R97), or, without operands, of the pseudo-instruction (R98). -/
def assembleTokens (m : List Char) (ops : List (List Char)) : Option Instr :=
  if m = ['N', 'O', 'P'] then asmPlain .nop ops
  else if m = ['M', 'E', 'N', 'C'] then asmBitBit .menc (.menc .src .coded) ops
  else if m = ['M', 'D', 'E', 'C'] then asmBitBit .mdec (.mdec .demod .recov) ops
  else if m = ['B', 'M', 'O', 'D'] then asmBitSamp .bmod (.bmod .coded .sig) ops
  else if m = ['B', 'D', 'E', 'M'] then asmSampBit .bdem (.bdem .rx .demod) ops
  else if m = ['Q', 'M', 'O', 'D'] then asmBitSamp .qmod (.qmod .coded .sig) ops
  else if m = ['Q', 'D', 'E', 'M'] then asmSampBit .qdem (.qdem .rx .demod) ops
  else if m = ['A', 'W', 'G', 'N'] then asmSampSamp .awgn (.awgn .sig .rx) ops
  else if m = ['B', 'E', 'R', 'C'] then asmBitBit .berc (.berc .src .recov) ops
  else if m = ['S', 'E', 'E', 'D'] then asmPlain .seed ops
  else if m = ['C', 'L', 'R'] then asmPlain .clr ops
  else none

/-- The mnemonic of a line: its characters up to the first space. -/
def lineMnemonic (line : List Char) : List Char := (trimmed line).takeWhile (· != ' ')

/-- The operands of a line: what stands between the commas after the mnemonic, none when nothing stands there. -/
def lineOperands (line : List Char) : List (List Char) :=
  let rest := trimmed ((trimmed line).dropWhile (· != ' '))
  if rest = [] then [] else (splitAt ',' rest).map token

/-- The command of a line of assembly (R97, R98); its word is `encode` of it. -/
def assemble (line : List Char) : Option Instr := assembleTokens ((lineMnemonic line).map Char.toUpper) (lineOperands line)

end Sys2Proof.Machine
end

