-- ==== Sys2Proof/Machine/HostRef.lean ====
section
/-! DEFINITION. The host reference of spec/47_host_reference.md (informative host software, outside the core's scope by
spec/00_scope.md R6 (a) and (b)): text to bits, loading, and the SNR sweep, as events of the host in the notation of
spec/30_encoding.md R99. -/

namespace Sys2Proof.Machine

/-! ### Host notation (R99) -/

/-- `W32 off, v`: a write at `BASE + off`. -/
def w32 (base : Word) (off : Nat) (v : Word) : HostEvent := .write (base + BitVec.ofNat 32 off) v

/-- `R32 off`: a read at `BASE + off`. -/
def r32 (base : Word) (off : Nat) : HostEvent := .read (base + BitVec.ofNat 32 off)

/-- `CMD c`: the command's word written to CMD. -/
def cmd (base : Word) (i : Instr) : HostEvent := w32 base 0x014 (encode i)

/-- `WAIT`: STATUS polled `polls` times before the core's turn, and once after it, when bit 0 reads 0. -/
def wait (base : Word) (polls : Nat) : List HostEvent :=
  List.replicate polls (r32 base 0x010) ++ [.coreTurn, r32 base 0x010]

/-- `CMD c; WAIT`. -/
def cmdWait (base : Word) (polls : Nat) (i : Instr) : List HostEvent := cmd base i :: wait base polls

/-- The offset of a bit buffer's length register (R99): `0x030 + 4b`. -/
def lenOffset (b : BitSel) : Nat := 0x030 + 4 * b.field.toNat

/-- The offset of a bit buffer's window (spec/20_memory.md R62): `BWIN(b)`. -/
def bwin (b : BitSel) : Nat := 0x010000 + 0x2000 * b.field.toNat

/-- `SETLEN b, n`. -/
def setLen (base : Word) (b : BitSel) (n : Nat) : HostEvent := w32 base (lenOffset b) (BitVec.ofNat 32 n)

/-- `SETSIG s, n, h`. -/
def setSig (base : Word) (b : SampSel) (n : Nat) (h : Shape) : List HostEvent :=
  [ w32 base (0x040 + 8 * b.field.toNat) (BitVec.ofNat 32 n),
    w32 base (0x044 + 8 * b.field.toNat) ((flag h.bit).setWidth 32) ]

/-- Host accesses one after another; the machine takes one step for each event. -/
def runSteps : Nat → State → Host.Outcome State Fault Refusal
  | 0, s => .next s
  | k + 1, s =>
    match step s with
    | .next t => runSteps k t
    | .fault f => .fault f
    | .refused r => .refused r

/-- A host program (a finite list of events) run from a state in which the outside has nothing else to do. -/
def runProgram (es : List HostEvent) (s : State) : Host.Outcome State Fault Refusal :=
  runSteps es.length { s with inputs := es }

/-! ### Text to bits, loading (R180, R181) -/

/-- The host's own errors (R180, R183; spec/60_exceptions.md R209); none of them reaches the core. -/
inductive HostError where
  | inputDomain
  | configuration
  deriving DecidableEq, Repr, Inhabited

/-- The 8 bits of a code point up to 255, most significant first. -/
def codeBits (cp : Nat) : List Bool := (List.range 8).map (fun t => cp.testBit (7 - t))

/-- `textToBits` (R180). -/
def textToBits (text : List Char) : Except HostError (List Bool) :=
  if text.any (fun c => decide (255 < c.toNat)) then .error .inputDomain
  else .ok (text.flatMap (fun c => codeBits c.toNat))

/-- The window word of up to 32 bits, zero-filled past them (R181). -/
def loadWord (bits : List Bool) : Word := packWord ((List.range 32).map (fun t => bits.getD t false))

/-- The writes of `words` window words from word `m` on. -/
def loadWords (base : Word) (b : BitSel) (bits : List Bool) : Nat → Nat → List HostEvent
  | 0, _ => []
  | words + 1, m => w32 base (bwin b + 4 * m) (loadWord (bits.drop (32 * m))) :: loadWords base b bits words (m + 1)

/-- Loading a bit string into a bit buffer (R181): its words, then its length. -/
def loadBits (base : Word) (b : BitSel) (bits : List Bool) : List HostEvent :=
  loadWords base b bits ((bits.length + 31) / 32) 0 ++ [setLen base b bits.length]

/-! ### The SNR sweep (R182, R183) -/

/-- The modulation scheme (source §9). -/
inductive Scheme where
  | bpsk
  | qpsk
  deriving DecidableEq, Repr, Inhabited

/-- A sweep descriptor (R183). -/
structure Sweep where
  minDb : Int
  maxDb : Int
  stepDb : Int
  deriving DecidableEq, Repr, Inhabited

/-- The descriptors the host accepts (R183). -/
def Sweep.accepted (w : Sweep) : Bool :=
  decide (0 < w.stepDb) && decide (w.minDb ≤ w.maxDb) && decide (-128 ≤ w.minDb) && decide (w.maxDb ≤ 127)

/-- The SNRs that a sweep visits: minDb, minDb + stepDb, … up to maxDb (R183). -/
def Sweep.values (w : Sweep) : List Int :=
  (List.range ((w.maxDb - w.minDb) / w.stepDb + 1).toNat).map (fun k => w.minDb + w.stepDb * (k : Int))

/-! A schedule of WAITs: `polls k` is how often the host reads STATUS with BUSY = 1 in the k-th WAIT of the program,
counted from 0, before the core has had its turn. `WAIT` repeats its read until bit 0 is 0, so every schedule of the core's
steps that R182 admits is one of these. -/

/-- One iteration of the sweep (R182, steps 4a to 4e), then the two reads of BER; its five WAITs are numbers `5n + 2` to
`5n + 6` of the program. -/
def sweepIteration (base : Word) (scheme : Scheme) (polls : Nat → Nat) (n : Nat) (snr : Int) : List HostEvent :=
  let modulate := match scheme with | .bpsk => Instr.bmod .coded .sig | .qpsk => Instr.qmod .coded .sig
  let demodulate := match scheme with | .bpsk => Instr.bdem .rx .demod | .qpsk => Instr.qdem .rx .demod
  w32 base 0x01C ((BitVec.ofInt 8 snr).setWidth 32)
    :: (cmdWait base (polls (5 * n + 2)) modulate ++ cmdWait base (polls (5 * n + 3)) (.awgn .sig .rx)
      ++ cmdWait base (polls (5 * n + 4)) demodulate ++ cmdWait base (polls (5 * n + 5)) (.mdec .demod .recov)
      ++ cmdWait base (polls (5 * n + 6)) (.berc .src .recov)
      ++ [r32 base 0x05C, r32 base 0x058])

/-- The iterations for these SNRs, from number `n` on. -/
def sweepIterations (base : Word) (scheme : Scheme) (polls : Nat → Nat) : Nat → List Int → List HostEvent
  | _, [] => []
  | n, snr :: snrs => sweepIteration base scheme polls n snr ++ sweepIterations base scheme polls (n + 1) snrs

/-- The host program of R182 for the bits of a message. -/
def sweepProgram (base : Word) (scheme : Scheme) (polls : Nat → Nat) (bits : List Bool) (w : Sweep) : List HostEvent :=
  cmdWait base (polls 0) .clr ++ loadBits base .src bits ++ cmdWait base (polls 1) (.menc .src .coded)
    ++ sweepIterations base scheme polls 0 w.values

/-- How many replies the WAITs of iteration `n` get: each its polls and the last one. -/
def waitReplies (polls : Nat → Nat) (n : Nat) : Nat :=
  polls (5 * n + 2) + polls (5 * n + 3) + polls (5 * n + 4) + polls (5 * n + 5) + polls (5 * n + 6) + 5

/-- The series (R182, step 4f), from what the host got back from iteration `n` on: after the replies of its WAITs come
BER_HI and BER_LO. -/
def seriesOf (polls : Nat → Nat) : Nat → List Int → List Word → List (Int × F64)
  | _, [], _ => []
  | n, snr :: snrs, replies =>
    match replies.drop (waitReplies polls n) with
    | hi :: lo :: rest => (snr, hi ++ lo) :: seriesOf polls (n + 1) snrs rest
    | _ => []

/-- What `run` returns beside the series (R182, Done): bits(SRC), bits(CODED), and the signal of SIG, its shape and its
components. -/
structure SweepOutputs where
  src : List Bool
  coded : List Bool
  shape : Shape
  signal : List F64
  deriving DecidableEq, Repr, Inhabited

/-- What the host has in the end: the error it reports, if any, and what `run` returns (R182). A rejected descriptor
gives both the error and an empty series (R183, spec/90_conflicts.md C4); where nothing ran there are no outputs. -/
structure SweepResult where
  error : Option HostError
  series : List (Int × F64)
  outputs : Option SweepOutputs
  deriving DecidableEq, Repr, Inhabited

/-- An error is reported, nothing runs, and the series is empty (R180, R181, R183). -/
def SweepResult.rejected (e : HostError) : SweepResult := { error := some e, series := [], outputs := none }

/-- What the host has when its program has led from `s` to `t`. -/
def sweepResult (polls : Nat → Nat) (w : Sweep) (s t : State) : SweepResult where
  error := none
  series := seriesOf polls 0 w.values (t.replies.drop (s.replies.length + polls 0 + polls 1 + 2))
  outputs := some
    { src := t.bits .src, coded := t.bits .coded, shape := (t.sampBuf .sig).shape, signal := t.signal .sig }

/-- `run` of R182 from the state `s`, for any schedule of its WAITs. DESIGN CHOICE (log 16): where several of the host's
errors apply the spec gives no order, and the model reports a character above 255 (R180) before a rejected descriptor
(R183) before a message the core cannot hold (R181), which it reports as InputDomainError. -/
def hostRun (text : List Char) (scheme : Scheme) (polls : Nat → Nat) (w : Sweep) (s : State) : SweepResult :=
  match textToBits text with
  | .error e => .rejected e
  | .ok bits =>
    if !w.accepted then .rejected .configuration
    else if s.params.bitCap / 16 < text.length then .rejected .inputDomain
    else
      match runProgram (sweepProgram s.params.base scheme polls bits w) s with
      | .next t => sweepResult polls w s t
      | .fault _ => { error := none, series := [], outputs := none }
      | .refused _ => { error := none, series := [], outputs := none }

end Sys2Proof.Machine
end

