-- ==== Sys2Proof/Safety.lean ====
section
/-! DEFINITION. The terms that claims are stated in: the invariant of the machine, the end of a host program
(spec/20_memory.md R80), the host's duties (R79), what a binary64 encoding is worth, and what it is to round a real
number to binary64 (spec/00_scope.md R11). -/

namespace Sys2Proof.Safety

open Sys2Proof.Machine

/-! ### The invariant -/

/-- The buffers' stores keep their canonical form, within their capacities (spec/10_state.md R23, R25). -/
def storesWf (s : State) : Bool :=
  storeWf s.params.bitCap s.src.cells && storeWf s.params.bitCap s.coded.cells
    && storeWf s.params.bitCap s.demod.cells && storeWf s.params.bitCap s.recov.cells
    && storeWf (2 * s.params.sampCap) s.sig.halves && storeWf (2 * s.params.sampCap) s.rx.halves

/-- ERRCODE, OVF and ERR_INFO are 0 while ERR = 0, and a recorded error has a code (R31, R33). -/
def statusWf (t : Status) : Bool :=
  if t.err then t.errCode != .none else t.errCode == .none && !t.ovf && t.errInfo == 0

/-- LASTCMD equals PCMD while PEND = 1 (R42), and DONE was cleared when the command was accepted (R31). -/
def pendingWf (s : State) : Bool := !s.pend || (s.lastCmd == s.pcmd && !s.status.done)

/-- ERRCNT counts places among the CMPLEN compared ones, which fit the buffers (R36). -/
def resultsWf (s : State) : Bool :=
  decide (s.results.errCnt.toNat ≤ s.results.cmpLen.toNat) && decide (s.results.cmpLen.toNat ≤ s.params.bitCap)

/-- What holds of every state a run can reach. -/
structure Inv (s : State) : Prop where
  params : s.params.wellFormed = true
  stores : storesWf s = true
  status : statusWf s.status = true
  pending : pendingWf s = true
  results : resultsWf s = true

/-! ### Runs -/

/-- A host program has ended: the host has issued its last access and PEND = 0 (R80). -/
def Ended (s : State) : Prop := s.inputs = [] ∧ s.pend = false

/-- `k` steps from `s` lead to `t`. -/
def Reaches (k : Nat) (s t : State) : Prop := runSteps k s = .next t

/-- The host's duties about its next access (R79, spec/70_reset_and_hazards.md R230, R231): no guarded write and no
hazardous read while PEND = 1. -/
def eventIsSafe (s : State) (e : HostEvent) : Bool :=
  match e with
  | .write addr _ => !(s.pend && inWindow s.params addr && (targetAt (offsetOf s.params addr)).guarded)
  | .read addr => !(s.pend && inWindow s.params addr && (targetAt (offsetOf s.params addr)).readHazard)
  | .coreTurn => true
  | .reset => true

/-! ### Frames -/

/-- CTRL, the pending command, LASTCMD, SNR_DB, the seed registers, the configuration and what is outside the core are
as before. -/
structure SameRegisters (s t : State) : Prop where
  params : t.params = s.params
  ctrl : t.ctrl = s.ctrl
  pend : t.pend = s.pend
  pcmd : t.pcmd = s.pcmd
  lastCmd : t.lastCmd = s.lastCmd
  snrDb : t.snrDb = s.snrDb
  seedLo : t.seedLo = s.seedLo
  seedHi : t.seedHi = s.seedHi
  inputs : t.inputs = s.inputs
  replies : t.replies = s.replies

/-- Every bit buffer but `b`, and every cell of `b` from `n` on, is as before. -/
structure SameBits (b : BitSel) (n : Nat) (s t : State) : Prop where
  lens : ∀ c, c ≠ b → (t.bitBuf c).len = (s.bitBuf c).len
  others : ∀ c, c ≠ b → ∀ i, t.bitCell c i = s.bitCell c i
  beyond : ∀ i, n ≤ i → t.bitCell b i = s.bitCell b i

/-- Every sample buffer but `p`, and every word of `p` from `w` on, is as before. -/
structure SameSamples (p : SampSel) (w : Nat) (s t : State) : Prop where
  lens : ∀ q, q ≠ p → (t.sampBuf q).len = (s.sampBuf q).len
  shapes : ∀ q, q ≠ p → (t.sampBuf q).shape = (s.sampBuf q).shape
  others : ∀ q, q ≠ p → ∀ j, t.sampWord q j = s.sampWord q j
  beyond : ∀ j, w ≤ j → t.sampWord p j = s.sampWord p j

/-- Every bit buffer is as before. -/
structure SameAllBits (s t : State) : Prop where
  lens : ∀ b, (t.bitBuf b).len = (s.bitBuf b).len
  cells : ∀ b i, t.bitCell b i = s.bitCell b i

/-- Every sample buffer is as before. -/
structure SameAllSamples (s t : State) : Prop where
  lens : ∀ p, (t.sampBuf p).len = (s.sampBuf p).len
  shapes : ∀ p, (t.sampBuf p).shape = (s.sampBuf p).shape
  words : ∀ p j, t.sampWord p j = s.sampWord p j

/-- The frame of a command that stores `n` bits in `b` and nothing else: no flag, result or draw changes. -/
structure OnlyBitsStored (b : BitSel) (n : Nat) (s t : State) : Prop where
  regs : SameRegisters s t
  status : t.status = s.status
  results : t.results = s.results
  gen : t.gen = s.gen
  bits : SameBits b n s t
  samples : SameAllSamples s t

/-- The frame of a command that stores `w` sample words in `p`: no flag and no bit buffer changes (results and the
generator are said apart). -/
structure OnlySamplesStored (p : SampSel) (w : Nat) (s t : State) : Prop where
  regs : SameRegisters s t
  status : t.status = s.status
  bits : SameAllBits s t
  samples : SameSamples p w s t

/-- Nothing but ERR, OVF, ERRCODE and ERR_INFO differs: what a command that fails with `e` leaves (R191). -/
def FailsWith (e : ErrCode) (s t : State) : Prop :=
  t = { s with status := t.status } ∧ t.status.done = s.status.done ∧ t.status.err = true ∧
    (if s.status.err then t.status.errCode = s.status.errCode ∧ t.status.errInfo = s.status.errInfo ∧ t.status.ovf = true
     else t.status.errCode = e ∧ t.status.errInfo = s.pcmd ∧ t.status.ovf = s.status.ovf)

/-! ### Binary64 values -/

/-- `real(x)` of a finite binary64 value (R11). -/
def value (x : F64) : ℚ := (finiteValue x : ℚ) / 2 ^ 1074

/-- `x` is round64(r) (R11): the binary64 value nearest to `r`, of two equally near ones the one with even fraction;
±infinity with the sign of `r` when |r| is at or above 2^1024 × (1 - 2^-54); +0.0 for r = 0. A result that is a zero
for r ≠ 0 has the sign of `r` (IEEE 754). -/
def RoundsTo (r : ℝ) (x : F64) : Prop :=
  isNaN x = false ∧
  (signBit x = true ↔ r < 0) ∧
  (isInf x = true ↔ (2 : ℝ) ^ 1024 * (1 - 1 / 2 ^ 54) ≤ |r|) ∧
  (isFinite x = true → ∀ y : F64, isFinite y = true →
    |r - (value x : ℝ)| ≤ |r - (value y : ℝ)| ∧
    (|r - (value x : ℝ)| = |r - (value y : ℝ)| → value x ≠ value y → x.getLsbD 0 = false))

/-- GaussianSource.finite (spec/00_scope.md R8): every draw is finite. A named property, not a fact. -/
def DrawsFinite (g : GState) : Prop := ∀ n, isFinite (drawFrom g.origin (g.taken + n)) = true

end Sys2Proof.Safety
end

