-- ==== Sys2Proof/Certificates/Slice0/Obligations.lean ====
section
/-! DEFINITION. The statements about the SDTD link core that the provers settle. Each docstring names the rule of spec/
it formalises, or says that it rests on a choice of the model (the log entry). -/

open Sys2Proof Sys2Proof.Machine Sys2Proof.Safety

namespace Sys2Proof.Claims

/-! ### The rules' own words as conditions -/

/-- The bits 9:4 of the operand fields an opcode does not use (spec/30_encoding.md R93, R94). -/
def unusedFields (opc : Nat) : Word :=
  match opc with
  | 0x1 | 0x2 | 0x8 => 0x300
  | 0x3 | 0x5 => 0x1C0
  | 0x4 | 0x6 => 0x230
  | 0x7 => 0x0F0
  | _ => 0x3F0

/-- The words that encode no command (R95, R192): OPC 0xB .. 0xF, a 1 in RSV, or in a field the opcode does not use. -/
def IllegalWord (w : Word) : Prop :=
  0xB ≤ w.toNat % 16 ∨ w &&& (0xFFFFFC00 ||| unusedFields (w.toNat % 16)) ≠ 0

/-- A source operand does not fit its buffer (spec/60_exceptions.md R193). -/
def SourceTooLong (s : State) : Instr → Prop
  | .menc ba _ | .mdec ba _ | .bmod ba _ | .qmod ba _ => s.params.bitCap < s.bitLen ba
  | .bdem sa _ | .qdem sa _ | .awgn sa _ => s.params.sampCap < s.symbols sa * (s.sampBuf sa).shape.width
  | .berc ba bb => s.params.bitCap < s.bitLen ba ∨ s.params.bitCap < s.bitLen bb
  | .nop | .seed | .clr => False

/-- A demodulator's source has the other scheme's shape (R194). -/
def WrongShape (s : State) : Instr → Prop
  | .bdem sa _ => (s.sampBuf sa).shape = .pair
  | .qdem sa _ => (s.sampBuf sa).shape = .scalar
  | .nop | .menc _ _ | .mdec _ _ | .bmod _ _ | .qmod _ _ | .awgn _ _ | .berc _ _ | .seed | .clr => False

/-- The result is larger than the destination can hold (R195). -/
def ResultTooLarge (s : State) : Instr → Prop
  | .menc ba _ => s.params.bitCap < 2 * s.bitLen ba
  | .bmod ba _ => s.params.sampCap < s.bitLen ba
  | .qmod ba _ => s.params.sampCap < 2 * ((s.bitLen ba + 1) / 2)
  | .bdem sa _ => s.params.bitCap < s.symbols sa
  | .qdem sa _ => s.params.bitCap < 2 * s.symbols sa
  | .nop | .mdec _ _ | .awgn _ _ | .berc _ _ | .seed | .clr => False

/-- The guarded offsets (spec/70_reset_and_hazards.md R225). -/
def GuardedOffset (off : Nat) : Prop :=
  off = 0x014 ∨ off = 0x01C ∨ off = 0x020 ∨ off = 0x024 ∨ (0x030 ≤ off ∧ off ≤ 0x04C) ∨
    (0x010000 ≤ off ∧ off ≤ 0x017FFF) ∨ (0x080000 ≤ off ∧ off ≤ 0x17FFFF)

/-- The offsets whose read while PEND = 1 is unspecified (R231). -/
def HazardousOffset (off : Nat) : Prop :=
  (0x030 ≤ off ∧ off ≤ 0x04C) ∨ (0x050 ≤ off ∧ off ≤ 0x06C) ∨
    (0x010000 ≤ off ∧ off ≤ 0x017FFF) ∨ (0x080000 ≤ off ∧ off ≤ 0x17FFFF)

/-- The reserved register offsets (spec/10_state.md R40) and the unmapped ones (spec/20_memory.md R63). -/
def UnusedOffset (off : Nat) : Prop :=
  off = 0x028 ∨ off = 0x02C ∨ (0x070 ≤ off ∧ off ≤ 0x00FFFC) ∨
    (0x018000 ≤ off ∧ off ≤ 0x07FFFF) ∨ (0x180000 ≤ off ∧ off ≤ 0x1FFFFF)

/-- An access at this offset of the core's window. -/
def AtOffset (s : State) (addr : Word) (off : Nat) : Prop :=
  inWindow s.params addr = true ∧ offsetOf s.params addr = off

/-- A state that differs from `s` in STATUS.DONE and PEND only as the end of a command's step leaves them (R166). -/
def Completed (s : State) : State := { s with pend := false, status := { s.status with done := true } }

/-- Nothing but the error fields differs after a dropped write at offset `off` (spec/60_exceptions.md R196, R191). -/
def RecordsBusy (off : Nat) (s t : State) : Prop :=
  t = { s with status := t.status } ∧ t.status.done = s.status.done ∧ t.status.err = true ∧
    (if s.status.err then t.status.errCode = s.status.errCode ∧ t.status.errInfo = s.status.errInfo ∧ t.status.ovf = true
     else t.status.errCode = .busy ∧ t.status.errInfo = BitVec.ofNat 32 off ∧ t.status.ovf = s.status.ovf)

/-- Commands performed one after another, without their frames. -/
def runCommands : List Instr → State → Host.Outcome State Fault Refusal
  | [], s => .next s
  | i :: rest, s =>
    match exec i s with
    | .next t => runCommands rest t
    | .fault f => .fault f
    | .refused r => .refused r

/-- The mean of the squared components over the symbols, an exact real number (spec/44_awgn.md R141). -/
def IsExactPower (xs : List F64) (symbols : Nat) (p : ℝ) : Prop :=
  p = (xs.map (fun x => ((value x : ℚ) : ℝ) ^ 2)).sum / symbols

end Sys2Proof.Claims

open Sys2Proof.Claims

/-! ### Encoding -/

/-- R96: every word that encodes a command encodes exactly one, and every command has exactly one word. -/
def Obligations.EachCommandHasExactlyOneWord : Prop :=
  ∀ (w : Word) (i : Instr), decode w = .ok i ↔ encode i = w

/-- R93: a word encodes a row's command exactly when `w AND mask = match`. -/
def Obligations.DecodeFollowsTheOpcodeMap : Prop :=
  ∀ (w : Word) (r : Word × Word), r ∈ opcodeRows →
    (w &&& r.2 = r.1 ↔ ∃ i, decode w = .ok i ∧ matchMask i = r)

/-- R94: a word with OPC 0x0 to 0xA encodes no command exactly when RSV or an operand field its opcode does not use holds
a 1. -/
def Obligations.UnusedFieldsMustBeZero : Prop :=
  ∀ w : Word, w.toNat % 16 ≤ 0xA →
    ((∃ e, decode w = .error e) ↔ w &&& (0xFFFFFC00 ||| unusedFields (w.toNat % 16)) ≠ 0)

/-- Words of spec/95_test_vectors.md, table Encoding. -/
def Obligations.VectorWordsDecodeAsListed : Prop :=
  decode 0x00000041 = .ok (.menc .src .coded) ∧ decode 0x000000F1 = .ok (.menc .recov .recov) ∧
  decode 0x00000213 = .ok (.bmod .coded .rx) ∧ decode 0x00000184 = .ok (.bdem .rx .demod) ∧
  decode 0x00000307 = .ok (.awgn .rx .rx) ∧ decode 0x000000C8 = .ok (.berc .src .recov) ∧
  decode 0x00000101 = .error .unusedField ∧ decode 0x0000000B = .error .reservedOpcode ∧
  decode 0x80000041 = .error .reservedField

/-- R98: each command written without operands is the listed command, and its word is the listed word. -/
def Obligations.PseudoInstructionsExpandAsListed : Prop :=
  (assemble ['M', 'E', 'N', 'C'] = some (.menc .src .coded) ∧ encode (.menc .src .coded) = 0x00000041) ∧
  (assemble ['B', 'M', 'O', 'D'] = some (.bmod .coded .sig) ∧ encode (.bmod .coded .sig) = 0x00000013) ∧
  (assemble ['Q', 'M', 'O', 'D'] = some (.qmod .coded .sig) ∧ encode (.qmod .coded .sig) = 0x00000015) ∧
  (assemble ['A', 'W', 'G', 'N'] = some (.awgn .sig .rx) ∧ encode (.awgn .sig .rx) = 0x00000207) ∧
  (assemble ['B', 'D', 'E', 'M'] = some (.bdem .rx .demod) ∧ encode (.bdem .rx .demod) = 0x00000184) ∧
  (assemble ['Q', 'D', 'E', 'M'] = some (.qdem .rx .demod) ∧ encode (.qdem .rx .demod) = 0x00000186) ∧
  (assemble ['M', 'D', 'E', 'C'] = some (.mdec .demod .recov) ∧ encode (.mdec .demod .recov) = 0x000000E2) ∧
  (assemble ['B', 'E', 'R', 'C'] = some (.berc .src .recov) ∧ encode (.berc .src .recov) = 0x000000C8)

/-! ### The machine's step -/

/-- R166, for a legal word: the core's turn performs the decoded command, then PEND is 0 and DONE is 1. R74, R79: a step
is one host access, as `hostWrite` and `hostRead` say, or one turn of the core. That the next event is the first of
`inputs`, and the core's turn where there is none, is the model's choice (log 2), as is an idle core's turn (log 3). -/
def Obligations.CoreTurnRunsTheDecodedCommand : Prop :=
  (∀ (s t : State) (i : Instr), s.pend = true → decode s.pcmd = .ok i →
    (s.inputs = [] → exec i s = .next t → step s = .next (Completed t)) ∧
    (∀ rest, s.inputs = .coreTurn :: rest → exec i { s with inputs := rest } = .next t →
      step s = .next (Completed t))) ∧
  (∀ (s : State) (rest : List HostEvent),
    (∀ addr v, s.inputs = .write addr v :: rest → step s = .next (hostWrite addr v { s with inputs := rest })) ∧
    (∀ addr, s.inputs = .read addr :: rest → step s = .next (hostRead addr { s with inputs := rest })) ∧
    (s.inputs = .coreTurn :: rest → step s = coreTurn { s with inputs := rest }) ∧
    (s.inputs = .coreTurn :: rest → s.pend = false → step s = .next { s with inputs := rest }))

/-- The word that withFetchWord places is accepted, as R165 accepts a written word, and performed by the very next step
(R166). That a word is placed so is the model's choice (log 12); where PEND = 1 it takes the place of the pending command,
which no write of CMD can do. -/
def Obligations.PlacedWordIsPerformedNext : Prop :=
  ∀ (s t : State) (w : Nat) (i : Instr), w < 2 ^ 32 → decode (BitVec.ofNat 32 w) = .ok i →
    exec i { s with pcmd := BitVec.ofNat 32 w, lastCmd := BitVec.ofNat 32 w, pend := true,
                    status := { s.status with done := false } } = .next t →
    step (s.withFetchWord 32 w) = .next (Completed t)

/-- R192, R95, R166, R191: an illegal word at the core's step records ILLEGAL, with the word, and has no other effect but
the end of the step. The last clause, that with no event left this is the machine's step, is the model's choice (log 2). -/
def Obligations.IllegalWordOnlyRecordsIllegal : Prop :=
  ∀ s : State, s.pend = true → IllegalWord s.pcmd →
    ∃ t, coreTurn s = .next (Completed t) ∧ FailsWith .illegal s t ∧ (s.inputs = [] → step s = .next (Completed t))

/-- Every host access and every command word has a defined outcome (spec/93_implementation_defined.md, Part 1); an idle
core with nothing coming from outside keeps its state (R208; that the model steps at all then is its choice, log 3). -/
def Obligations.EveryStepAnswersANextState : Prop :=
  ∀ s : State, ∃ t, step s = .next t ∧ (s.pend = false → s.inputs = [] → t = s)

/-- The invariant of Safety.lean (R23, R25, R31, R33, R36, R42) is kept by every step, and no step changes the
configuration, which is no state of the core (R20; log 1). -/
def Obligations.EveryStepKeepsTheInvariant : Prop :=
  ∀ s t : State, step s = .next t → t.params = s.params ∧ (Inv s → Inv t)

/-- The invariant holds after reset. -/
def Obligations.ResetStateMeetsTheInvariant : Prop := Inv State.reset

/-- R171: a pending command is performed after finitely many host accesses, unless reset abandons it: within as many
steps as there are events, with no reset among them, the core has its turn on the command that was pending. Whatever the
events, PEND is 0 within one step more. That the core's turn comes at the latest when the outside has nothing more to do is
the model's reading of weak fairness (log 2). -/
def Obligations.PendingCommandIsPerformed : Prop :=
  ∀ s : State, s.pend = true →
    (HostEvent.reset ∉ s.inputs → ∃ k u t, k ≤ s.inputs.length ∧ Reaches k s u ∧ u.pend = true ∧ u.pcmd = s.pcmd ∧
      (u.inputs = [] ∨ u.inputs.head? = some .coreTurn) ∧ step u = .next t ∧
      performCommand s.pcmd { u with inputs := u.inputs.tail } = .next t ∧ t.pend = false ∧ t.status.done = true) ∧
    ∃ k t, k ≤ s.inputs.length + 1 ∧ Reaches k s t ∧ t.pend = false

/-- R42: PEND is set only by acceptance, cleared only by the core's step or reset; while it stays 1 so does the command. -/
def Obligations.PendChangesOnlyByAcceptanceStepOrReset : Prop :=
  ∀ s t : State, step s = .next t →
    (s.pend = false → t.pend = true → ∃ addr v rest, s.inputs = .write addr v :: rest ∧ AtOffset s addr 0x014 ∧
      t.pcmd = v ∧ t.lastCmd = v) ∧
    (s.pend = true → t.pend = false →
      s.inputs = [] ∨ ∃ rest, s.inputs = .coreTurn :: rest ∨ s.inputs = .reset :: rest) ∧
    (s.pend = true → t.pend = true → t.pcmd = s.pcmd ∧ t.lastCmd = s.lastCmd)

/-- R41, R146: GEN changes only by reset, by SEED, and by AWGN, which takes exactly W draws. -/
def Obligations.GeneratorChangesOnlyByResetSeedAwgn : Prop :=
  ∀ s t : State, step s = .next t →
    t.gen = s.gen ∨ (∃ rest, s.inputs = .reset :: rest) ∨
    (s.pend = true ∧ (s.inputs = [] ∨ ∃ rest, s.inputs = .coreTurn :: rest) ∧
      ((decode s.pcmd = .ok .seed ∧ t.gen = gseed (s.seedHi ++ s.seedLo)) ∨
        ∃ sa sb, decode s.pcmd = .ok (.awgn sa sb) ∧ s.components sa ≤ s.params.sampCap ∧ s.symbols sa ≠ 0 ∧
          t.gen = { s.gen with taken := s.gen.taken + s.components sa }))

/-! ### Reset -/

/-- R44: the state after reset, but for what the rule leaves unspecified (the cells, the samples and GEN). -/
def Obligations.ResetStateHasItsListedValues : Prop :=
  (readReg .ctrl State.reset = 0 ∧ readReg .status State.reset = 0 ∧ readReg .cmd State.reset = 0 ∧
    State.reset.pcmd = 0 ∧ State.reset.pend = false ∧ readReg .errInfo State.reset = 0 ∧
    readReg .snrDb State.reset = 0 ∧ readReg .seedLo State.reset = 0 ∧ readReg .seedHi State.reset = 0) ∧
  (∀ b, readReg (.bitLen b) State.reset = 0) ∧
  (∀ p, readReg (.sampLen p) State.reset = 0 ∧ readReg (.sampShape p) State.reset = 0) ∧
  (State.reset.results.errCnt = 0 ∧ State.reset.results.cmpLen = 0 ∧ State.reset.results.ber = plusZero ∧
    State.reset.results.sigma = plusZero ∧ State.reset.results.power = plusZero) ∧
  (readReg .id State.reset = 0x53445444 ∧ readReg .capBits State.reset = BitVec.ofNat 32 State.reset.params.bitCap ∧
    readReg .capSamp State.reset = BitVec.ofNat 32 State.reset.params.sampCap)

/-- R220: reset at any time, whether or not a command is pending, leaves the reset values; the pending command is
abandoned without an error, and IRQ is 0. -/
def Obligations.ResetAbandonsThePendingCommand : Prop :=
  ∀ (s : State) (rest : List HostEvent), s.inputs = .reset :: rest →
    ∃ t, step s = .next t ∧ t.pend = false ∧ t.pcmd = 0 ∧ t.lastCmd = 0 ∧ t.status = Status.zero ∧
      t.ctrl = Ctrl.zero ∧ t.irq = false ∧ t.snrDb = 0 ∧ t.seedLo = 0 ∧ t.seedHi = 0 ∧ t.results = Results.zero ∧
      (∀ b, (t.bitBuf b).len = 0) ∧ (∀ p, (t.sampBuf p).len = 0 ∧ (t.sampBuf p).shape = .scalar)

/-- What R44 and R220 leave unspecified is a free value of a fresh draw at every reset, the generator's origin is a new
one, and the configuration and the coming events stay: the model's choices (log 4, 5, 6, 14). -/
def Obligations.ResetDrawsUnspecifiedContentsAnew : Prop :=
  ∀ (s : State) (rest : List HostEvent), s.inputs = .reset :: rest →
    ∃ t, step s = .next t ∧ (∀ b i, t.bitCell b i = Config.powerOnBit s.draws b i) ∧
      (∀ p k, t.sampHalf p k = Config.powerOnHalf s.draws p k) ∧
      t.gen = { origin := .unseeded s.draws, taken := 0 } ∧ s.draws < t.draws ∧ t.params = s.params ∧
      t.inputs = rest ∧ t.replies = s.replies

/-! ### Manchester line coding -/

/-- R110: MENC, with its encoding, its errors in their order, its result and its frame. -/
def Obligations.MencWritesTheManchesterCode : Prop :=
  ∀ (s : State) (ba bb : BitSel),
    encode (.menc ba bb) &&& 0xFFFFFF0F = 0x00000001 ∧
    (s.params.bitCap < s.bitLen ba → ∃ t, exec (.menc ba bb) s = .next t ∧ FailsWith .srcLen s t) ∧
    (s.bitLen ba ≤ s.params.bitCap → s.params.bitCap < 2 * s.bitLen ba →
      ∃ t, exec (.menc ba bb) s = .next t ∧ FailsWith .dstCap s t) ∧
    (s.bitLen ba ≤ s.params.bitCap → 2 * s.bitLen ba ≤ s.params.bitCap →
      ∃ t, exec (.menc ba bb) s = .next t ∧ (t.bitBuf bb).len = BitVec.ofNat 32 (2 * s.bitLen ba) ∧
        (∀ i, i < s.bitLen ba →
          t.bitCell bb (2 * i) = s.bitCell ba i ∧ t.bitCell bb (2 * i + 1) = !s.bitCell ba i) ∧
        OnlyBitsStored bb (2 * s.bitLen ba) s t)

/-- R112: MDEC, with its encoding, its error, its result and its frame. -/
def Obligations.MdecReadsPairsOfBits : Prop :=
  ∀ (s : State) (ba bb : BitSel),
    encode (.mdec ba bb) &&& 0xFFFFFF0F = 0x00000002 ∧
    (s.params.bitCap < s.bitLen ba → ∃ t, exec (.mdec ba bb) s = .next t ∧ FailsWith .srcLen s t) ∧
    (s.bitLen ba ≤ s.params.bitCap →
      ∃ t, exec (.mdec ba bb) s = .next t ∧ (t.bitBuf bb).len = BitVec.ofNat 32 (s.bitLen ba / 2) ∧
        (∀ i, i < s.bitLen ba / 2 →
          (t.bitCell bb i = true ↔ s.bitCell ba (2 * i) = true ∧ s.bitCell ba (2 * i + 1) = false)) ∧
        OnlyBitsStored bb (s.bitLen ba / 2) s t)

/-- R113: MENC into `c`, then MDEC from `c` into `d`, leaves the bits of the source in `d`. -/
def Obligations.ManchesterRoundTrip : Prop :=
  ∀ (s : State) (a c d : BitSel), s.params.wellFormed = true → 2 * s.bitLen a ≤ s.params.bitCap →
    ∃ t u, exec (.menc a c) s = .next t ∧ exec (.mdec c d) t = .next u ∧ u.bits d = s.bits a

/-! ### BPSK -/

/-- R120: BMOD, with its encoding, its errors in their order, its result and its frame. -/
def Obligations.BmodWritesOneSymbolPerBit : Prop :=
  ∀ (s : State) (ba : BitSel) (sb : SampSel),
    encode (.bmod ba sb) &&& 0xFFFFFDCF = 0x00000003 ∧
    (s.params.bitCap < s.bitLen ba → ∃ t, exec (.bmod ba sb) s = .next t ∧ FailsWith .srcLen s t) ∧
    (s.bitLen ba ≤ s.params.bitCap → s.params.sampCap < s.bitLen ba →
      ∃ t, exec (.bmod ba sb) s = .next t ∧ FailsWith .dstCap s t) ∧
    (s.bitLen ba ≤ s.params.bitCap → s.bitLen ba ≤ s.params.sampCap →
      ∃ t, exec (.bmod ba sb) s = .next t ∧ (t.sampBuf sb).len = BitVec.ofNat 32 (s.bitLen ba) ∧
        (t.sampBuf sb).shape = .scalar ∧
        (∀ k, k < s.bitLen ba →
          t.sampWord sb k = if s.bitCell ba k then 0x3FF0000000000000 else 0xBFF0000000000000) ∧
        OnlySamplesStored sb (s.bitLen ba) s t ∧ t.results = s.results ∧ t.gen = s.gen)

/-- R122: BDEM, with its encoding, its errors in their order, its result and its frame. -/
def Obligations.BdemSlicesAtZero : Prop :=
  ∀ (s : State) (sa : SampSel) (bb : BitSel),
    encode (.bdem sa bb) &&& 0xFFFFFE3F = 0x00000004 ∧
    (s.params.sampCap < s.symbols sa * (s.sampBuf sa).shape.width →
      ∃ t, exec (.bdem sa bb) s = .next t ∧ FailsWith .srcLen s t) ∧
    (s.symbols sa * (s.sampBuf sa).shape.width ≤ s.params.sampCap → (s.sampBuf sa).shape = .pair →
      ∃ t, exec (.bdem sa bb) s = .next t ∧ FailsWith .shape s t) ∧
    (s.symbols sa ≤ s.params.sampCap → (s.sampBuf sa).shape = .scalar → s.params.bitCap < s.symbols sa →
      ∃ t, exec (.bdem sa bb) s = .next t ∧ FailsWith .dstCap s t) ∧
    (s.symbols sa ≤ s.params.sampCap → (s.sampBuf sa).shape = .scalar → s.symbols sa ≤ s.params.bitCap →
      ∃ t, exec (.bdem sa bb) s = .next t ∧ (t.bitBuf bb).len = (s.sampBuf sa).len ∧
        (∀ k, k < s.symbols sa → t.bitCell bb k = gt0 (s.sampWord sa k)) ∧
        OnlyBitsStored bb (s.symbols sa) s t)

/-- R123: BMOD into `p`, then BDEM from `p`, gives the bits back. -/
def Obligations.BpskRoundTrip : Prop :=
  ∀ (s : State) (a d : BitSel) (p : SampSel), s.params.wellFormed = true → s.bitLen a ≤ s.params.bitCap →
    s.bitLen a ≤ s.params.sampCap →
    ∃ t u, exec (.bmod a p) s = .next t ∧ exec (.bdem p d) t = .next u ∧ u.bits d = s.bits a

/-! ### QPSK -/

/-- R130: QMOD, with its encoding, its errors in their order, its result and its frame; the pad of an odd length is 0. -/
def Obligations.QmodWritesOneSymbolPerPair : Prop :=
  ∀ (s : State) (ba : BitSel) (sb : SampSel),
    encode (.qmod ba sb) &&& 0xFFFFFDCF = 0x00000005 ∧
    (s.params.bitCap < s.bitLen ba → ∃ t, exec (.qmod ba sb) s = .next t ∧ FailsWith .srcLen s t) ∧
    (s.bitLen ba ≤ s.params.bitCap → s.params.sampCap < 2 * ((s.bitLen ba + 1) / 2) →
      ∃ t, exec (.qmod ba sb) s = .next t ∧ FailsWith .dstCap s t) ∧
    (s.bitLen ba ≤ s.params.bitCap → 2 * ((s.bitLen ba + 1) / 2) ≤ s.params.sampCap →
      ∃ t, exec (.qmod ba sb) s = .next t ∧ (t.sampBuf sb).len = BitVec.ofNat 32 ((s.bitLen ba + 1) / 2) ∧
        (t.sampBuf sb).shape = .pair ∧
        (∀ j, j < 2 * ((s.bitLen ba + 1) / 2) →
          t.sampWord sb j =
            if j < s.bitLen ba ∧ s.bitCell ba j = true then 0xBFF0000000000000 else 0x3FF0000000000000) ∧
        OnlySamplesStored sb (2 * ((s.bitLen ba + 1) / 2)) s t ∧ t.results = s.results ∧ t.gen = s.gen)

/-- R132: QDEM, with its encoding, its errors in their order, its result and its frame. -/
def Obligations.QdemSlicesBothComponents : Prop :=
  ∀ (s : State) (sa : SampSel) (bb : BitSel),
    encode (.qdem sa bb) &&& 0xFFFFFE3F = 0x00000006 ∧
    (s.params.sampCap < s.symbols sa * (s.sampBuf sa).shape.width →
      ∃ t, exec (.qdem sa bb) s = .next t ∧ FailsWith .srcLen s t) ∧
    (s.symbols sa * (s.sampBuf sa).shape.width ≤ s.params.sampCap → (s.sampBuf sa).shape = .scalar →
      ∃ t, exec (.qdem sa bb) s = .next t ∧ FailsWith .shape s t) ∧
    (2 * s.symbols sa ≤ s.params.sampCap → (s.sampBuf sa).shape = .pair → s.params.bitCap < 2 * s.symbols sa →
      ∃ t, exec (.qdem sa bb) s = .next t ∧ FailsWith .dstCap s t) ∧
    (2 * s.symbols sa ≤ s.params.sampCap → (s.sampBuf sa).shape = .pair → 2 * s.symbols sa ≤ s.params.bitCap →
      ∃ t, exec (.qdem sa bb) s = .next t ∧ (t.bitBuf bb).len = BitVec.ofNat 32 (2 * s.symbols sa) ∧
        (∀ j, j < 2 * s.symbols sa → t.bitCell bb j = !gt0 (s.sampWord sa j)) ∧
        OnlyBitsStored bb (2 * s.symbols sa) s t)

/-- R133 and R134: QMOD into `p`, then QDEM from `p`, gives the bits back, with one more 0 when their number is odd. -/
def Obligations.QpskRoundTripKeepsThePad : Prop :=
  ∀ (s : State) (a d : BitSel) (p : SampSel), s.params.wellFormed = true → s.bitLen a ≤ s.params.bitCap →
    s.bitLen a ≤ s.params.sampCap →
    ∃ t u, exec (.qmod a p) s = .next t ∧ exec (.qdem p d) t = .next u ∧
      u.bits d = if s.bitLen a % 2 = 0 then s.bits a else s.bits a ++ [false]

/-- R124: a signal written by BMOD and sliced by QDEM, after the host sets its shape to 1 and halves its length, inverts
every bit. -/
def Obligations.BpskAndQpskHaveOppositePolarity : Prop :=
  ∀ (s : State) (a d : BitSel) (p : SampSel), s.params.wellFormed = true → s.bitLen a % 2 = 0 →
    s.bitLen a ≤ s.params.bitCap → s.bitLen a ≤ s.params.sampCap →
    ∃ t u, exec (.bmod a p) s = .next t ∧
      exec (.qdem p d) (writeReg (.sampLen p) (BitVec.ofNat 32 (s.bitLen a / 2)) (writeReg (.sampShape p) 1 t)) = .next u ∧
      u.bits d = (s.bits a).map (fun b => !b)

/-- R111, R121, R131: the lengths after MENC, BMOD and QMOD, and the exact powers of the modulated signals. -/
def Obligations.LengthLawsOfEncodersAndModulators : Prop :=
  ∀ (s t : State) (ba bb : BitSel) (sb : SampSel) (snr : Int), s.params.wellFormed = true →
    (exec (.menc ba bb) s = .next t → 2 * s.bitLen ba ≤ s.params.bitCap → t.bitLen bb = 2 * s.bitLen ba) ∧
    (exec (.bmod ba sb) s = .next t → s.bitLen ba ≤ s.params.bitCap → s.bitLen ba ≤ s.params.sampCap →
      t.symbols sb = s.bitLen ba ∧
      (0 < s.bitLen ba → (awgnScale (t.signal sb) (t.symbols sb) snr).1 = 0x3FF0000000000000)) ∧
    (exec (.qmod ba sb) s = .next t → s.bitLen ba ≤ s.params.bitCap →
      2 * ((s.bitLen ba + 1) / 2) ≤ s.params.sampCap →
      t.symbols sb = (s.bitLen ba + 1) / 2 ∧
      (0 < s.bitLen ba → (awgnScale (t.signal sb) (t.symbols sb) snr).1 = 0x4000000000000000))

/-! ### Noise -/

/-- R140: AWGN, with its encoding, its error, its result on an empty and on any other signal, its draws and its frame.
Where an addition or a multiplication gives a NaN its bits are free (I7; log 9). -/
def Obligations.AwgnAddsScaledDraws : Prop :=
  ∀ (s : State) (sa sb : SampSel),
    encode (.awgn sa sb) &&& 0xFFFFFCFF = 0x00000007 ∧
    (s.params.sampCap < s.components sa → ∃ t, exec (.awgn sa sb) s = .next t ∧ FailsWith .srcLen s t) ∧
    (s.components sa ≤ s.params.sampCap → s.symbols sa = 0 →
      ∃ t, exec (.awgn sa sb) s = .next t ∧ (t.sampBuf sb).len = 0 ∧ (t.sampBuf sb).shape = (s.sampBuf sa).shape ∧
        t.results = { s.results with power := plusZero, sigma := plusZero } ∧ t.gen = s.gen ∧
        OnlySamplesStored sb 0 s t) ∧
    (s.components sa ≤ s.params.sampCap → s.symbols sa ≠ 0 →
      ∃ t, exec (.awgn sa sb) s = .next t ∧ (t.sampBuf sb).len = (s.sampBuf sa).len ∧
        (t.sampBuf sb).shape = (s.sampBuf sa).shape ∧
        t.results = { s.results with
          power := (awgnScale (s.signal sa) (s.symbols sa) s.snrDb.toInt).1
          sigma := (awgnScale (s.signal sa) (s.symbols sa) s.snrDb.toInt).2 } ∧
        (∀ j, j < s.components sa → ∃ nan, isNaN nan = true ∧
          t.sampWord sb j =
            fadd nan (s.sampWord sa j)
              (fmul nan t.results.sigma (drawFrom s.gen.origin (s.gen.taken + j)))) ∧
        t.gen = { s.gen with taken := s.gen.taken + s.components sa } ∧
        OnlySamplesStored sb (s.components sa) s t)

/-- R141: the power of a signal of N ≥ 1 symbols: NaN, infinity, or the exact mean rounded once; exactly 1.0 and 2.0 for
signals of ±1.0. -/
def Obligations.PowerIsTheExactMeanRoundedOnce : Prop :=
  ∀ (xs : List F64) (symbols : Nat) (snr : Int), symbols ≠ 0 →
    ((∃ x ∈ xs, isNaN x = true) → (awgnScale xs symbols snr).1 = 0x7FF8000000000000) ∧
    ((∀ x ∈ xs, isNaN x = false) → (∃ x ∈ xs, isInf x = true) → (awgnScale xs symbols snr).1 = plusInfinity) ∧
    ((∀ x ∈ xs, isFinite x = true) → ∀ p, IsExactPower xs symbols p → RoundsTo p (awgnScale xs symbols snr).1) ∧
    ((∀ x ∈ xs, x = plusOne ∨ x = minusOne) →
      (xs.length = symbols → (awgnScale xs symbols snr).1 = 0x3FF0000000000000) ∧
      (xs.length = 2 * symbols → (awgnScale xs symbols snr).1 = 0x4000000000000000))

/-- R142: sigma is sqrt(Pexact / (2 × 10^(snr/10))), rounded once; NaN and infinity as for the power. -/
def Obligations.SigmaIsTheExactRootRoundedOnce : Prop :=
  ∀ (xs : List F64) (symbols : Nat) (snr : Int), symbols ≠ 0 →
    ((∃ x ∈ xs, isNaN x = true) → (awgnScale xs symbols snr).2 = 0x7FF8000000000000) ∧
    ((∀ x ∈ xs, isNaN x = false) → (∃ x ∈ xs, isInf x = true) → (awgnScale xs symbols snr).2 = plusInfinity) ∧
    ((∀ x ∈ xs, isFinite x = true) → ∀ p, IsExactPower xs symbols p →
      RoundsTo (Real.sqrt (p / (2 * (10 : ℝ) ^ ((snr : ℝ) / 10)))) (awgnScale xs symbols snr).2)

/-- R143: a signal of zeros has power and sigma +0.0, and adds a zero to each component. -/
def Obligations.ZeroPowerAddsZeros : Prop :=
  (∀ (xs : List F64) (symbols : Nat) (snr : Int), symbols ≠ 0 → (∀ x ∈ xs, isZero x = true) →
    awgnScale xs symbols snr = (plusZero, plusZero)) ∧
  (∀ nan g : F64, isFinite g = true →
    fmul nan plusZero g = plusZero ∨ fmul nan plusZero g = 0x8000000000000000) ∧
  (∀ nan x : F64, isNaN x = false → isZero x = false →
    fadd nan x plusZero = x ∧ fadd nan x 0x8000000000000000 = x) ∧
  (∀ nan : F64, fadd nan 0x8000000000000000 0x8000000000000000 = 0x8000000000000000 ∧
    fadd nan 0x8000000000000000 plusZero = plusZero)

/-- R144: an empty signal is no error, and what a NaN and an infinite sigma make of a component. -/
def Obligations.EmptyAndNonFiniteSignals : Prop :=
  (∀ (s : State) (sa sb : SampSel), s.symbols sa = 0 →
    ∃ t, exec (.awgn sa sb) s = .next t ∧ t.symbols sb = 0 ∧ (t.sampBuf sb).shape = (s.sampBuf sa).shape ∧
      t.results.power = plusZero ∧ t.results.sigma = plusZero ∧ t.gen = s.gen ∧ t.status = s.status) ∧
  (∀ nan sigma x g : F64, isNaN nan = true → isNaN sigma = true → isNaN (noisy nan sigma x g) = true) ∧
  (∀ nan x g : F64, isNaN nan = true → isNaN x = false → isNaN g = false →
    (if isZero g = true ∨ (isInf x = true ∧ signBit x ≠ signBit g) then isNaN (noisy nan plusInfinity x g) = true
     else isInf (noisy nan plusInfinity x g) = true))

/-- R145: SEED loads the generator from the seed registers, and changes nothing else; every seed is legal, and its only
word is 0x00000009. -/
def Obligations.SeedLoadsTheGenerator : Prop :=
  (∀ w : Word, decode w = .ok .seed ↔ w = 0x00000009) ∧
  ∀ s : State, ∃ t, exec .seed s = .next t ∧ t.gen = gseed (s.seedHi ++ s.seedLo) ∧ SameRegisters s t ∧
    t.status = s.status ∧ t.results = s.results ∧ SameAllBits s t ∧ SameAllSamples s t

/-- R146: after a SEED the noise is a function of the seed: two runs of SEED and AWGN that agree on the seed, the signal
and the SNR leave the same samples (but for the free bits of a NaN, I7) and the same generator. -/
def Obligations.NoiseIsAFunctionOfTheSeed : Prop :=
  ∀ (s1 s2 : State) (sa sb : SampSel), s1.seed = s2.seed → s1.signal sa = s2.signal sa →
    s1.symbols sa = s2.symbols sa → (s1.sampBuf sa).shape = (s2.sampBuf sa).shape → s1.snrDb = s2.snrDb →
    s1.signalFits sa = true → s2.signalFits sa = true →
    ∃ t1 t2, runCommands [.seed, .awgn sa sb] s1 = .next t1 ∧ runCommands [.seed, .awgn sa sb] s2 = .next t2 ∧
      t1.gen = t2.gen ∧
      ∀ j, j < s1.components sa → t1.sampWord sb j = t2.sampWord sb j ∨
        (isNaN (t1.sampWord sb j) = true ∧ isNaN (t2.sampWord sb j) = true)

/-- R147, its exact part: noise `nz` turns the sign of a BPSK component only from -1.0 down, and only above +1.0. -/
def Obligations.NoiseFlipsASymbolOnlyPastOne : Prop :=
  ∀ nan nz : F64, isNaN nz = false →
    (gt0 (fadd nan plusOne nz) = false ↔ signBit nz = true ∧ magnitude plusOne ≤ magnitude nz) ∧
    (gt0 (fadd nan minusOne nz) = true ↔ signBit nz = false ∧ magnitude plusOne < magnitude nz)

/-- R11: fadd and fmul are the exact sum and product rounded once, with their rules for zeros, infinities and NaN; gt0 is
the comparison with +0.0, true for positive finite values and +infinity only. -/
def Obligations.ArithmeticAndComparisonFollowIeee754 : Prop :=
  (∀ x : F64, gt0 x = true ↔ x = 0x7FF0000000000000 ∨ (isFinite x = true ∧ 0 < value x)) ∧
  ∀ nan x y : F64,
    (isFinite x = true → isFinite y = true → value x + value y ≠ 0 →
      RoundsTo (((value x + value y : ℚ) : ℝ)) (fadd nan x y)) ∧
    (isFinite x = true → isFinite y = true → value x + value y = 0 →
      fadd nan x y = if signBit x && signBit y then 0x8000000000000000 else 0) ∧
    (isFinite x = true → isFinite y = true → value x * value y ≠ 0 →
      RoundsTo (((value x * value y : ℚ) : ℝ)) (fmul nan x y)) ∧
    (isFinite x = true → isFinite y = true → value x * value y = 0 →
      fmul nan x y = if signBit x != signBit y then 0x8000000000000000 else 0) ∧
    (isNaN x = true ∨ isNaN y = true → fadd nan x y = nan ∧ fmul nan x y = nan) ∧
    (isInf x = true → isFinite y = true → fadd nan x y = x ∧ fadd nan y x = x) ∧
    (isInf x = true → isInf y = true → fadd nan x y = if signBit x = signBit y then x else nan) ∧
    (isInf x = true → isZero y = true → fmul nan x y = nan ∧ fmul nan y x = nan) ∧
    (isInf x = true → isNaN y = false → isZero y = false →
      isInf (fmul nan x y) = true ∧ signBit (fmul nan x y) = (signBit x != signBit y) ∧ fmul nan y x = fmul nan x y)

/-- I7: the free NaN is a NaN, and any NaN can be it. -/
def Obligations.FreeNaNsAreExactlyTheNaNs : Prop :=
  (∀ n, isNaN (freeNaN n) = true) ∧ ∀ x : F64, isNaN x = true → nanFrom x = x

/-! ### Bit error rate -/

/-- R155 and R157: BERC, with its encoding, its error, its results (BER the exact quotient rounded once) and its frame. -/
def Obligations.BercCountsDifferingBits : Prop :=
  ∀ (s : State) (ba bb : BitSel),
    encode (.berc ba bb) &&& 0xFFFFFF0F = 0x00000008 ∧
    (s.params.bitCap < s.bitLen ba ∨ s.params.bitCap < s.bitLen bb →
      ∃ t, exec (.berc ba bb) s = .next t ∧ FailsWith .srcLen s t) ∧
    (s.bitLen ba ≤ s.params.bitCap → s.bitLen bb ≤ s.params.bitCap →
      ∀ errors compared, compared = min (s.bitLen ba) (s.bitLen bb) →
        errors = ((List.range compared).filter (fun i => s.bitCell ba i != s.bitCell bb i)).length →
      ∃ t, exec (.berc ba bb) s = .next t ∧ t.results.errCnt = BitVec.ofNat 32 errors ∧
        t.results.cmpLen = BitVec.ofNat 32 compared ∧ (compared = 0 → t.results.ber = plusZero) ∧
        (compared ≠ 0 → RoundsTo ((errors : ℝ) / compared) t.results.ber) ∧
        t.results.sigma = s.results.sigma ∧ t.results.power = s.results.power ∧ t.gen = s.gen ∧
        t.status = s.status ∧ SameRegisters s t ∧ SameAllBits s t ∧ SameAllSamples s t)

/-- R155, corner cases: BER lies in 0 .. 1, and is 1.0 when every compared place differs. -/
def Obligations.BerLiesBetweenZeroAndOne : Prop :=
  ∀ errors compared : Nat, errors ≤ compared →
    signBit (berValue errors compared) = false ∧ magnitude (berValue errors compared) ≤ magnitude plusOne ∧
    (compared ≠ 0 → errors = compared → berValue errors compared = 0x3FF0000000000000)

/-- R156: BERC on a longer operand equals BERC on it cut to the shorter one's length. -/
def Obligations.BercTruncatesToTheShorter : Prop :=
  ∀ (s : State) (ba bb : BitSel), s.bitLen ba ≤ s.params.bitCap → s.bitLen bb ≤ s.params.bitCap →
    (s.bitLen ba < s.bitLen bb →
      ∃ t u, exec (.berc ba bb) s = .next t ∧
        exec (.berc ba bb) (s.setBitBuf bb { s.bitBuf bb with len := (s.bitBuf ba).len }) = .next u ∧
        t.results = u.results) ∧
    (s.bitLen bb < s.bitLen ba →
      ∃ t u, exec (.berc ba bb) s = .next t ∧
        exec (.berc ba bb) (s.setBitBuf ba { s.bitBuf ba with len := (s.bitBuf bb).len }) = .next u ∧
        t.results = u.results)

/-! ### Control commands -/

/-- R168: CLR clears lengths, shapes and results, and nothing else; a second CLR changes nothing. -/
def Obligations.ClrClearsLengthsShapesResults : Prop :=
  (∀ w : Word, decode w = .ok .clr ↔ w = 0x0000000A) ∧
  ∀ s : State, ∃ t, exec .clr s = .next t ∧ (∀ b, (t.bitBuf b).len = 0) ∧
    (∀ p, (t.sampBuf p).len = 0 ∧ (t.sampBuf p).shape = .scalar) ∧
    t.results = { errCnt := 0, cmpLen := 0, ber := plusZero, sigma := plusZero, power := plusZero } ∧
    (∀ b i, t.bitCell b i = s.bitCell b i) ∧ (∀ p j, t.sampWord p j = s.sampWord p j) ∧
    t.gen = s.gen ∧ t.status = s.status ∧ SameRegisters s t ∧ exec .clr t = .next t

/-- R169: NOP changes no state beyond the frame, and its only word is 0x00000000. -/
def Obligations.NopChangesNothing : Prop :=
  (∀ w : Word, decode w = .ok .nop ↔ w = 0x00000000) ∧ ∀ s : State, exec .nop s = .next s

/-- R184: for the empty message every stage of the pipeline is empty, no draw is taken and BER is +0.0, for both
schemes. -/
def Obligations.EmptyMessageGivesEmptyResults : Prop :=
  ∀ s : State, s.bitLen .src = 0 →
    (∃ t, runCommands [.menc .src .coded, .bmod .coded .sig, .awgn .sig .rx, .bdem .rx .demod, .mdec .demod .recov,
        .berc .src .recov] s = .next t ∧ t.bitLen .coded = 0 ∧ t.symbols .sig = 0 ∧ t.symbols .rx = 0 ∧
      t.bitLen .demod = 0 ∧ t.bitLen .recov = 0 ∧ t.gen = s.gen ∧ t.results.cmpLen = 0 ∧ t.results.ber = plusZero) ∧
    (∃ t, runCommands [.menc .src .coded, .qmod .coded .sig, .awgn .sig .rx, .qdem .rx .demod, .mdec .demod .recov,
        .berc .src .recov] s = .next t ∧ t.bitLen .coded = 0 ∧ t.symbols .sig = 0 ∧ t.symbols .rx = 0 ∧
      t.bitLen .demod = 0 ∧ t.bitLen .recov = 0 ∧ t.gen = s.gen ∧ t.results.cmpLen = 0 ∧ t.results.ber = plusZero)

/-! ### Errors -/

/-- R191: the first error since ERR was cleared is kept and a later one sets OVF; a command either completes without
touching STATUS or has no effect but its recorded error; the core's step ends with PEND = 0 and DONE = 1 all the same. -/
def Obligations.ErrorsAreRecordedAndNothingElse : Prop :=
  (∀ (e : ErrCode) (info : Word) (s : State),
    recordError e info s =
      if s.status.err then { s with status := { s.status with ovf := true } }
      else { s with status := { s.status with err := true, errCode := e, errInfo := info } }) ∧
  (∀ (i : Instr) (s t : State), exec i s = .next t →
    t.status = s.status ∨ FailsWith .srcLen s t ∨ FailsWith .shape s t ∨ FailsWith .dstCap s t) ∧
  (∀ s t : State, s.pend = true → coreTurn s = .next t → t.pend = false ∧ t.status.done = true)

/-- R193, R194, R195: which condition of which command is reported with which code, in the order SRC_LEN, SHAPE,
DST_CAP; with none of them no error is recorded. -/
def Obligations.ErrorCodesFollowTheirCauses : Prop :=
  ∀ (i : Instr) (s : State), ∃ t, exec i s = .next t ∧
    (SourceTooLong s i → FailsWith .srcLen s t) ∧
    (¬ SourceTooLong s i → WrongShape s i → FailsWith .shape s t) ∧
    (¬ SourceTooLong s i → ¬ WrongShape s i → ResultTooLarge s i → FailsWith .dstCap s t) ∧
    (¬ SourceTooLong s i → ¬ WrongShape s i → ¬ ResultTooLarge s i → t.status = s.status)

/-! ### The host bus -/

/-- R165: a write of CMD while PEND = 0 accepts the word, legal or not; while PEND = 1 it is dropped and recorded. -/
def Obligations.CmdWriteAcceptsTheWord : Prop :=
  ∀ (s : State) (addr v : Word), AtOffset s addr 0x014 →
    (s.pend = false →
      hostWrite addr v s =
        { s with pcmd := v, lastCmd := v, pend := true, status := { s.status with done := false } }) ∧
    (s.pend = true → RecordsBusy 0x014 s (hostWrite addr v s))

/-- R225 and R196: while PEND = 1 a write of a guarded offset is dropped and records BUSY with the offset, and writes of
CTRL and STATUS are performed; every other write is ignored at all times without error. -/
def Obligations.GuardedWritesAreDroppedWhilePending : Prop :=
  ∀ (s : State) (addr v : Word) (off : Nat), AtOffset s addr off →
    (s.pend = true → GuardedOffset off → RecordsBusy off s (hostWrite addr v s)) ∧
    (off = 0x00C → hostWrite addr v s = { s with ctrl := { doneIe := v.getLsbD 0, errIe := v.getLsbD 1 } }) ∧
    (off = 0x010 → hostWrite addr v s = writeStatus v s) ∧
    (¬ GuardedOffset off → off ≠ 0x00C → off ≠ 0x010 → hostWrite addr v s = s)

/-- R231: while PEND = 1 a read of a length, shape, result or window word gets a fresh free word (I5; log 8); every other
read gets its defined value. -/
def Obligations.ReadsWhilePendingAreHazardous : Prop :=
  ∀ (s : State) (addr : Word) (off : Nat), s.pend = true → AtOffset s addr off →
    (HazardousOffset off →
      hostRead addr s =
        { s with replies := s.replies ++ [Config.busyReadWord s.draws], draws := s.draws + 1 }) ∧
    (¬ HazardousOffset off →
      hostRead addr s = { s with replies := s.replies ++ [readTarget (targetAt off) s] })

/-- R71: no read changes the core's state, and every write but one of CMD is idempotent while no command is pending. R60:
an access outside the window is not the core's; that it then changes nothing at all and gets no reply is read from that
rule (log 13). -/
def Obligations.ReadsChangeNothingAndWritesAreIdempotent : Prop :=
  (∀ (s : State) (addr : Word), ∃ replies draws, hostRead addr s = { s with replies := replies, draws := draws } ∧
    (s.pend = false → draws = s.draws)) ∧
  (∀ (s : State) (addr v : Word), s.pend = false → ¬ AtOffset s addr 0x014 →
    hostWrite addr v (hostWrite addr v s) = hostWrite addr v s) ∧
  (∀ (s : State) (addr v : Word), addr.toNat < s.params.base.toNat ∨ s.params.base.toNat + 0x200000 ≤ addr.toNat →
    hostRead addr s = s ∧ hostWrite addr v s = s)

/-- R64 and R65: word `m` of a bit window is cells 32m .. 32m+31, most significant bit first; beyond the capacity it reads
0 and ignores writes; the length register does not change. -/
def Obligations.BitWindowWordsAreMostSignificantFirst : Prop :=
  ∀ (s : State) (addr v : Word) (b : BitSel) (m : Nat), s.params.wellFormed = true → s.pend = false → m < 2048 →
    AtOffset s addr (0x010000 + 0x2000 * b.field.toNat + 4 * m) →
    (32 * m < s.params.bitCap →
      (∃ r, hostRead addr s = { s with replies := s.replies ++ [r] } ∧
        ∀ k, k < 32 → r.getLsbD (31 - k) = s.bitCell b (32 * m + k)) ∧
      (∀ k, k < 32 → (hostWrite addr v s).bitCell b (32 * m + k) = v.getLsbD (31 - k)) ∧
      (∀ i, i < 32 * m ∨ 32 * m + 32 ≤ i → (hostWrite addr v s).bitCell b i = s.bitCell b i) ∧
      (∀ c, c ≠ b → (hostWrite addr v s).bitBuf c = s.bitBuf c) ∧
      ((hostWrite addr v s).bitBuf b).len = (s.bitBuf b).len ∧
      (hostWrite addr v s).status = s.status ∧ SameRegisters s (hostWrite addr v s) ∧
      (hostWrite addr v s).results = s.results ∧ (hostWrite addr v s).gen = s.gen ∧
      SameAllSamples s (hostWrite addr v s)) ∧
    (s.params.bitCap ≤ 32 * m →
      hostRead addr s = { s with replies := s.replies ++ [0] } ∧ hostWrite addr v s = s)

/-- R66 and R67: sample word `j` is two bus words, the less significant half first; a write of one keeps the other;
beyond the capacity they read 0 and ignore writes; length and shape do not change. -/
def Obligations.SampleWindowHoldsTwoHalves : Prop :=
  ∀ (s : State) (addr v : Word) (p : SampSel) (j : Nat) (high : Bool), s.params.wellFormed = true → s.pend = false →
    j < 65536 →
    AtOffset s addr (0x080000 + 0x080000 * p.field.toNat + 8 * j + (if high then 4 else 0)) →
    (j < s.params.sampCap →
      hostRead addr s =
        { s with replies := s.replies ++ [(s.sampWord p j).extractLsb' (if high then 32 else 0) 32] } ∧
      (hostWrite addr v s).sampWord p j =
        (if high then v ++ (s.sampWord p j).extractLsb' 0 32 else (s.sampWord p j).extractLsb' 32 32 ++ v) ∧
      (∀ i, i ≠ j → (hostWrite addr v s).sampWord p i = s.sampWord p i) ∧
      (∀ q, q ≠ p → (hostWrite addr v s).sampBuf q = s.sampBuf q) ∧
      ((hostWrite addr v s).sampBuf p).len = (s.sampBuf p).len ∧
      ((hostWrite addr v s).sampBuf p).shape = (s.sampBuf p).shape ∧
      (hostWrite addr v s).status = s.status ∧ SameRegisters s (hostWrite addr v s) ∧
      (hostWrite addr v s).results = s.results ∧ (hostWrite addr v s).gen = s.gen ∧
      SameAllBits s (hostWrite addr v s)) ∧
    (s.params.sampCap ≤ j →
      hostRead addr s = { s with replies := s.replies ++ [0] } ∧ hostWrite addr v s = s)

/-- R69: an address that is not a multiple of 4 accesses the aligned word that contains it. -/
def Obligations.LowAddressBitsAreIgnored : Prop :=
  ∀ (s : State) (addr v : Word), s.params.wellFormed = true →
    hostRead addr s = hostRead (addr &&& 0xFFFFFFFC) s ∧ hostWrite addr v s = hostWrite (addr &&& 0xFFFFFFFC) v s

/-- R40 and R63: reserved and unmapped offsets read 0 and ignore writes at all times, and so do reserved fields. -/
def Obligations.ReservedAndUnmappedReadZero : Prop :=
  (∀ (s : State) (addr v : Word) (off : Nat), AtOffset s addr off → UnusedOffset off →
    hostRead addr s = { s with replies := s.replies ++ [0] } ∧ hostWrite addr v s = s) ∧
  (∀ s : State, readReg .ctrl s &&& 0xFFFFFFFC = 0 ∧ readReg .status s &&& 0xFFFFF0F0 = 0 ∧
    readReg .snrDb s &&& 0xFFFFFF00 = 0 ∧ ∀ p, readReg (.sampShape p) s &&& 0xFFFFFFFE = 0) ∧
  (∀ (s : State) (v : Word), writeReg .ctrl v s = writeReg .ctrl (v &&& 0x3) s ∧
    writeReg .status v s = writeReg .status (v &&& 0x6) s ∧ writeReg .snrDb v s = writeReg .snrDb (v &&& 0xFF) s ∧
    ∀ p, writeReg (.sampShape p) v s = writeReg (.sampShape p) (v &&& 0x1) s)

/-- R31: the fields of STATUS, with the error codes of R190, read at any time, and what a write of it clears, also while a
command is pending. -/
def Obligations.StatusFieldsAndTheirClearing : Prop :=
  (∀ s : State, (readReg .status s).getLsbD 0 = s.pend ∧ (readReg .status s).getLsbD 1 = s.status.done ∧
    (readReg .status s).getLsbD 2 = s.status.err ∧ (readReg .status s).getLsbD 3 = s.status.ovf ∧
    (readReg .status s).extractLsb' 8 4 = s.status.errCode.code) ∧
  (ErrCode.none.code = 0 ∧ ErrCode.illegal.code = 1 ∧ ErrCode.srcLen.code = 2 ∧ ErrCode.shape.code = 3 ∧
    ErrCode.dstCap.code = 4 ∧ ErrCode.busy.code = 5) ∧
  (∀ (s : State) (addr : Word), AtOffset s addr 0x010 →
    hostRead addr s = { s with replies := s.replies ++ [readReg .status s] }) ∧
  (∀ (s : State) (addr v : Word), AtOffset s addr 0x010 →
    hostWrite addr v s =
      { s with status :=
        { done := s.status.done && !v.getLsbD 1
          err := s.status.err && !v.getLsbD 2
          ovf := s.status.ovf && !v.getLsbD 2
          errCode := if v.getLsbD 2 then .none else s.status.errCode
          errInfo := if v.getLsbD 2 then 0 else s.status.errInfo } })

/-- R43, R30: IRQ is a function of CTRL and STATUS; CTRL keeps its two bits, also while a command is pending, and reads 0
elsewhere. -/
def Obligations.InterruptLineFollowsCtrlAndStatus : Prop :=
  (∀ s : State, s.irq =
    (((readReg .ctrl s).getLsbD 0 && (readReg .status s).getLsbD 1) ||
      ((readReg .ctrl s).getLsbD 1 && (readReg .status s).getLsbD 2))) ∧
  (∀ (s : State) (addr v : Word), AtOffset s addr 0x00C →
    hostWrite addr v s = { s with ctrl := { doneIe := v.getLsbD 0, errIe := v.getLsbD 1 } } ∧
    readReg .ctrl (hostWrite addr v s) = v &&& 0x3 ∧
    hostRead addr s = { s with replies := s.replies ++ [readReg .ctrl s] })

/-- R28 and R29: ID, CAP_BITS and CAP_SAMP read their constants at all times, and writes to them are ignored. -/
def Obligations.IdentificationRegistersAreConstant : Prop :=
  ∀ (s : State) (addr v : Word) (off : Nat), AtOffset s addr off → off = 0x000 ∨ off = 0x004 ∨ off = 0x008 →
    hostWrite addr v s = s ∧
    hostRead addr s =
      { s with replies := s.replies ++
        [if off = 0x000 then 0x53445444
         else if off = 0x004 then BitVec.ofNat 32 s.params.bitCap else BitVec.ofNat 32 s.params.sampCap] }

/-- R34 and R35: SNR_DB keeps bits 7:0, the signed SNR in dB; SEED_LO and SEED_HI keep their words, and writing them does
not change the generator. -/
def Obligations.SnrAndSeedRegistersKeepTheirValue : Prop :=
  ∀ (s : State) (addr v : Word) (off : Nat), s.pend = false → AtOffset s addr off →
    (off = 0x01C → hostWrite addr v s = { s with snrDb := v.extractLsb' 0 8 } ∧
      (hostWrite addr v s).snr = (v.extractLsb' 0 8).toInt ∧
      hostRead addr s = { s with replies := s.replies ++ [s.snrDb.zeroExtend 32] }) ∧
    (off = 0x020 → hostWrite addr v s = { s with seedLo := v } ∧
      hostRead addr s = { s with replies := s.replies ++ [s.seedLo] }) ∧
    (off = 0x024 → hostWrite addr v s = { s with seedHi := v } ∧
      hostRead addr s = { s with replies := s.replies ++ [s.seedHi] })

/-- R23, R25: the length and shape registers keep what the host writes, unchecked. -/
def Obligations.LengthAndShapeRegistersAreUnchecked : Prop :=
  ∀ (s : State) (addr v : Word), s.pend = false →
    (∀ b : BitSel, AtOffset s addr (0x030 + 4 * b.field.toNat) →
      hostWrite addr v s = s.setBitBuf b { s.bitBuf b with len := v } ∧
      hostRead addr s = { s with replies := s.replies ++ [(s.bitBuf b).len] }) ∧
    (∀ p : SampSel, AtOffset s addr (0x040 + 8 * p.field.toNat) →
      hostWrite addr v s = s.setSampBuf p { s.sampBuf p with len := v } ∧
      hostRead addr s = { s with replies := s.replies ++ [(s.sampBuf p).len] }) ∧
    (∀ p : SampSel, AtOffset s addr (0x044 + 8 * p.field.toNat) →
      hostWrite addr v s = s.setSampBuf p { s.sampBuf p with shape := if v.getLsbD 0 then .pair else .scalar } ∧
      hostRead addr s = { s with replies := s.replies ++ [if (s.sampBuf p).shape = .pair then 1 else 0] })

/-- R27, R36 to R39: what the result registers and LASTCMD and ERR_INFO read as; writes of the read-only ones are
ignored. -/
def Obligations.ResultRegistersReadTheirHalves : Prop :=
  ∀ (s : State) (addr v : Word) (off : Nat), s.pend = false → AtOffset s addr off →
    (0x050 ≤ off → off ≤ 0x06C → hostWrite addr v s = s ∧
      hostRead addr s = { s with replies := s.replies ++
        [if off = 0x050 then s.results.errCnt else if off = 0x054 then s.results.cmpLen
         else if off = 0x058 then s.results.ber.extractLsb' 0 32 else if off = 0x05C then s.results.ber.extractLsb' 32 32
         else if off = 0x060 then s.results.sigma.extractLsb' 0 32
         else if off = 0x064 then s.results.sigma.extractLsb' 32 32
         else if off = 0x068 then s.results.power.extractLsb' 0 32 else s.results.power.extractLsb' 32 32] }) ∧
    (off = 0x014 → hostRead addr s = { s with replies := s.replies ++ [s.lastCmd] }) ∧
    (off = 0x018 → hostWrite addr v s = s ∧ hostRead addr s = { s with replies := s.replies ++ [s.status.errInfo] })
end

