-- ==== Sys2Proof/Laws/State.lean ====
section
/-! SUPPORT. What each named update of State leaves, field by field. -/

set_option Elab.async false

namespace Sys2Proof.Machine

/-! ### A bit buffer replaced -/

@[simp] theorem State.setBitBuf_params (s : State) (b : BitSel) (x : BitBuf) :
    (s.setBitBuf b x).params = s.params := by cases b <;> rfl
@[simp] theorem State.setBitBuf_sig (s : State) (b : BitSel) (x : BitBuf) :
    (s.setBitBuf b x).sig = s.sig := by cases b <;> rfl
@[simp] theorem State.setBitBuf_rx (s : State) (b : BitSel) (x : BitBuf) :
    (s.setBitBuf b x).rx = s.rx := by cases b <;> rfl
@[simp] theorem State.setBitBuf_ctrl (s : State) (b : BitSel) (x : BitBuf) :
    (s.setBitBuf b x).ctrl = s.ctrl := by cases b <;> rfl
@[simp] theorem State.setBitBuf_status (s : State) (b : BitSel) (x : BitBuf) :
    (s.setBitBuf b x).status = s.status := by cases b <;> rfl
@[simp] theorem State.setBitBuf_pend (s : State) (b : BitSel) (x : BitBuf) :
    (s.setBitBuf b x).pend = s.pend := by cases b <;> rfl
@[simp] theorem State.setBitBuf_pcmd (s : State) (b : BitSel) (x : BitBuf) :
    (s.setBitBuf b x).pcmd = s.pcmd := by cases b <;> rfl
@[simp] theorem State.setBitBuf_lastCmd (s : State) (b : BitSel) (x : BitBuf) :
    (s.setBitBuf b x).lastCmd = s.lastCmd := by cases b <;> rfl
@[simp] theorem State.setBitBuf_snrDb (s : State) (b : BitSel) (x : BitBuf) :
    (s.setBitBuf b x).snrDb = s.snrDb := by cases b <;> rfl
@[simp] theorem State.setBitBuf_seedLo (s : State) (b : BitSel) (x : BitBuf) :
    (s.setBitBuf b x).seedLo = s.seedLo := by cases b <;> rfl
@[simp] theorem State.setBitBuf_seedHi (s : State) (b : BitSel) (x : BitBuf) :
    (s.setBitBuf b x).seedHi = s.seedHi := by cases b <;> rfl
@[simp] theorem State.setBitBuf_results (s : State) (b : BitSel) (x : BitBuf) :
    (s.setBitBuf b x).results = s.results := by cases b <;> rfl
@[simp] theorem State.setBitBuf_gen (s : State) (b : BitSel) (x : BitBuf) :
    (s.setBitBuf b x).gen = s.gen := by cases b <;> rfl
@[simp] theorem State.setBitBuf_powerOn (s : State) (b : BitSel) (x : BitBuf) :
    (s.setBitBuf b x).powerOn = s.powerOn := by cases b <;> rfl
@[simp] theorem State.setBitBuf_draws (s : State) (b : BitSel) (x : BitBuf) :
    (s.setBitBuf b x).draws = s.draws := by cases b <;> rfl
@[simp] theorem State.setBitBuf_inputs (s : State) (b : BitSel) (x : BitBuf) :
    (s.setBitBuf b x).inputs = s.inputs := by cases b <;> rfl
@[simp] theorem State.setBitBuf_replies (s : State) (b : BitSel) (x : BitBuf) :
    (s.setBitBuf b x).replies = s.replies := by cases b <;> rfl
@[simp] theorem State.setBitBuf_bitBuf (s : State) (b : BitSel) (x : BitBuf) :
    (s.setBitBuf b x).bitBuf b = x := by cases b <;> rfl
theorem State.setBitBuf_bitBuf_ne (s : State) {b c : BitSel} (x : BitBuf) (h : c ≠ b) :
    (s.setBitBuf b x).bitBuf c = s.bitBuf c := by cases b <;> cases c <;> first | rfl | exact absurd rfl h
@[simp] theorem State.setBitBuf_sampBuf (s : State) (b : BitSel) (x : BitBuf) (p : SampSel) :
    (s.setBitBuf b x).sampBuf p = s.sampBuf p := by cases b <;> cases p <;> rfl
@[simp] theorem State.setBitBuf_self (s : State) (b : BitSel) : s.setBitBuf b (s.bitBuf b) = s := by cases b <;> rfl

/-! ### A sample buffer replaced -/

@[simp] theorem State.setSampBuf_params (s : State) (p : SampSel) (x : SampBuf) :
    (s.setSampBuf p x).params = s.params := by cases p <;> rfl
@[simp] theorem State.setSampBuf_src (s : State) (p : SampSel) (x : SampBuf) :
    (s.setSampBuf p x).src = s.src := by cases p <;> rfl
@[simp] theorem State.setSampBuf_coded (s : State) (p : SampSel) (x : SampBuf) :
    (s.setSampBuf p x).coded = s.coded := by cases p <;> rfl
@[simp] theorem State.setSampBuf_demod (s : State) (p : SampSel) (x : SampBuf) :
    (s.setSampBuf p x).demod = s.demod := by cases p <;> rfl
@[simp] theorem State.setSampBuf_recov (s : State) (p : SampSel) (x : SampBuf) :
    (s.setSampBuf p x).recov = s.recov := by cases p <;> rfl
@[simp] theorem State.setSampBuf_ctrl (s : State) (p : SampSel) (x : SampBuf) :
    (s.setSampBuf p x).ctrl = s.ctrl := by cases p <;> rfl
@[simp] theorem State.setSampBuf_status (s : State) (p : SampSel) (x : SampBuf) :
    (s.setSampBuf p x).status = s.status := by cases p <;> rfl
@[simp] theorem State.setSampBuf_pend (s : State) (p : SampSel) (x : SampBuf) :
    (s.setSampBuf p x).pend = s.pend := by cases p <;> rfl
@[simp] theorem State.setSampBuf_pcmd (s : State) (p : SampSel) (x : SampBuf) :
    (s.setSampBuf p x).pcmd = s.pcmd := by cases p <;> rfl
@[simp] theorem State.setSampBuf_lastCmd (s : State) (p : SampSel) (x : SampBuf) :
    (s.setSampBuf p x).lastCmd = s.lastCmd := by cases p <;> rfl
@[simp] theorem State.setSampBuf_snrDb (s : State) (p : SampSel) (x : SampBuf) :
    (s.setSampBuf p x).snrDb = s.snrDb := by cases p <;> rfl
@[simp] theorem State.setSampBuf_seedLo (s : State) (p : SampSel) (x : SampBuf) :
    (s.setSampBuf p x).seedLo = s.seedLo := by cases p <;> rfl
@[simp] theorem State.setSampBuf_seedHi (s : State) (p : SampSel) (x : SampBuf) :
    (s.setSampBuf p x).seedHi = s.seedHi := by cases p <;> rfl
@[simp] theorem State.setSampBuf_results (s : State) (p : SampSel) (x : SampBuf) :
    (s.setSampBuf p x).results = s.results := by cases p <;> rfl
@[simp] theorem State.setSampBuf_gen (s : State) (p : SampSel) (x : SampBuf) :
    (s.setSampBuf p x).gen = s.gen := by cases p <;> rfl
@[simp] theorem State.setSampBuf_powerOn (s : State) (p : SampSel) (x : SampBuf) :
    (s.setSampBuf p x).powerOn = s.powerOn := by cases p <;> rfl
@[simp] theorem State.setSampBuf_draws (s : State) (p : SampSel) (x : SampBuf) :
    (s.setSampBuf p x).draws = s.draws := by cases p <;> rfl
@[simp] theorem State.setSampBuf_inputs (s : State) (p : SampSel) (x : SampBuf) :
    (s.setSampBuf p x).inputs = s.inputs := by cases p <;> rfl
@[simp] theorem State.setSampBuf_replies (s : State) (p : SampSel) (x : SampBuf) :
    (s.setSampBuf p x).replies = s.replies := by cases p <;> rfl
@[simp] theorem State.setSampBuf_sampBuf (s : State) (p : SampSel) (x : SampBuf) :
    (s.setSampBuf p x).sampBuf p = x := by cases p <;> rfl
theorem State.setSampBuf_sampBuf_ne (s : State) {p q : SampSel} (x : SampBuf) (h : q ≠ p) :
    (s.setSampBuf p x).sampBuf q = s.sampBuf q := by cases p <;> cases q <;> first | rfl | exact absurd rfl h
@[simp] theorem State.setSampBuf_bitBuf (s : State) (p : SampSel) (x : SampBuf) (b : BitSel) :
    (s.setSampBuf p x).bitBuf b = s.bitBuf b := by cases p <;> cases b <;> rfl

/-! ### A bit string or a signal stored -/

@[simp] theorem State.putBits_params (s : State) (b : BitSel) (ys : List Bool) :
    (s.putBits b ys).params = s.params := s.setBitBuf_params b _
@[simp] theorem State.putBits_sig (s : State) (b : BitSel) (ys : List Bool) :
    (s.putBits b ys).sig = s.sig := s.setBitBuf_sig b _
@[simp] theorem State.putBits_rx (s : State) (b : BitSel) (ys : List Bool) :
    (s.putBits b ys).rx = s.rx := s.setBitBuf_rx b _
@[simp] theorem State.putBits_ctrl (s : State) (b : BitSel) (ys : List Bool) :
    (s.putBits b ys).ctrl = s.ctrl := s.setBitBuf_ctrl b _
@[simp] theorem State.putBits_status (s : State) (b : BitSel) (ys : List Bool) :
    (s.putBits b ys).status = s.status := s.setBitBuf_status b _
@[simp] theorem State.putBits_pend (s : State) (b : BitSel) (ys : List Bool) :
    (s.putBits b ys).pend = s.pend := s.setBitBuf_pend b _
@[simp] theorem State.putBits_pcmd (s : State) (b : BitSel) (ys : List Bool) :
    (s.putBits b ys).pcmd = s.pcmd := s.setBitBuf_pcmd b _
@[simp] theorem State.putBits_lastCmd (s : State) (b : BitSel) (ys : List Bool) :
    (s.putBits b ys).lastCmd = s.lastCmd := s.setBitBuf_lastCmd b _
@[simp] theorem State.putBits_snrDb (s : State) (b : BitSel) (ys : List Bool) :
    (s.putBits b ys).snrDb = s.snrDb := s.setBitBuf_snrDb b _
@[simp] theorem State.putBits_seedLo (s : State) (b : BitSel) (ys : List Bool) :
    (s.putBits b ys).seedLo = s.seedLo := s.setBitBuf_seedLo b _
@[simp] theorem State.putBits_seedHi (s : State) (b : BitSel) (ys : List Bool) :
    (s.putBits b ys).seedHi = s.seedHi := s.setBitBuf_seedHi b _
@[simp] theorem State.putBits_results (s : State) (b : BitSel) (ys : List Bool) :
    (s.putBits b ys).results = s.results := s.setBitBuf_results b _
@[simp] theorem State.putBits_gen (s : State) (b : BitSel) (ys : List Bool) :
    (s.putBits b ys).gen = s.gen := s.setBitBuf_gen b _
@[simp] theorem State.putBits_powerOn (s : State) (b : BitSel) (ys : List Bool) :
    (s.putBits b ys).powerOn = s.powerOn := s.setBitBuf_powerOn b _
@[simp] theorem State.putBits_draws (s : State) (b : BitSel) (ys : List Bool) :
    (s.putBits b ys).draws = s.draws := s.setBitBuf_draws b _
@[simp] theorem State.putBits_inputs (s : State) (b : BitSel) (ys : List Bool) :
    (s.putBits b ys).inputs = s.inputs := s.setBitBuf_inputs b _
@[simp] theorem State.putBits_replies (s : State) (b : BitSel) (ys : List Bool) :
    (s.putBits b ys).replies = s.replies := s.setBitBuf_replies b _
@[simp] theorem State.putBits_sampBuf (s : State) (b : BitSel) (ys : List Bool) (p : SampSel) :
    (s.putBits b ys).sampBuf p = s.sampBuf p := s.setBitBuf_sampBuf b _ p
@[simp] theorem State.putSamples_params (s : State) (p : SampSel) (ys : List F64) (n : Nat) (h : Shape) :
    (s.putSamples p ys n h).params = s.params := s.setSampBuf_params p _
@[simp] theorem State.putSamples_src (s : State) (p : SampSel) (ys : List F64) (n : Nat) (h : Shape) :
    (s.putSamples p ys n h).src = s.src := s.setSampBuf_src p _
@[simp] theorem State.putSamples_coded (s : State) (p : SampSel) (ys : List F64) (n : Nat) (h : Shape) :
    (s.putSamples p ys n h).coded = s.coded := s.setSampBuf_coded p _
@[simp] theorem State.putSamples_demod (s : State) (p : SampSel) (ys : List F64) (n : Nat) (h : Shape) :
    (s.putSamples p ys n h).demod = s.demod := s.setSampBuf_demod p _
@[simp] theorem State.putSamples_recov (s : State) (p : SampSel) (ys : List F64) (n : Nat) (h : Shape) :
    (s.putSamples p ys n h).recov = s.recov := s.setSampBuf_recov p _
@[simp] theorem State.putSamples_ctrl (s : State) (p : SampSel) (ys : List F64) (n : Nat) (h : Shape) :
    (s.putSamples p ys n h).ctrl = s.ctrl := s.setSampBuf_ctrl p _
@[simp] theorem State.putSamples_status (s : State) (p : SampSel) (ys : List F64) (n : Nat) (h : Shape) :
    (s.putSamples p ys n h).status = s.status := s.setSampBuf_status p _
@[simp] theorem State.putSamples_pend (s : State) (p : SampSel) (ys : List F64) (n : Nat) (h : Shape) :
    (s.putSamples p ys n h).pend = s.pend := s.setSampBuf_pend p _
@[simp] theorem State.putSamples_pcmd (s : State) (p : SampSel) (ys : List F64) (n : Nat) (h : Shape) :
    (s.putSamples p ys n h).pcmd = s.pcmd := s.setSampBuf_pcmd p _
@[simp] theorem State.putSamples_lastCmd (s : State) (p : SampSel) (ys : List F64) (n : Nat) (h : Shape) :
    (s.putSamples p ys n h).lastCmd = s.lastCmd := s.setSampBuf_lastCmd p _
@[simp] theorem State.putSamples_snrDb (s : State) (p : SampSel) (ys : List F64) (n : Nat) (h : Shape) :
    (s.putSamples p ys n h).snrDb = s.snrDb := s.setSampBuf_snrDb p _
@[simp] theorem State.putSamples_seedLo (s : State) (p : SampSel) (ys : List F64) (n : Nat) (h : Shape) :
    (s.putSamples p ys n h).seedLo = s.seedLo := s.setSampBuf_seedLo p _
@[simp] theorem State.putSamples_seedHi (s : State) (p : SampSel) (ys : List F64) (n : Nat) (h : Shape) :
    (s.putSamples p ys n h).seedHi = s.seedHi := s.setSampBuf_seedHi p _
@[simp] theorem State.putSamples_results (s : State) (p : SampSel) (ys : List F64) (n : Nat) (h : Shape) :
    (s.putSamples p ys n h).results = s.results := s.setSampBuf_results p _
@[simp] theorem State.putSamples_gen (s : State) (p : SampSel) (ys : List F64) (n : Nat) (h : Shape) :
    (s.putSamples p ys n h).gen = s.gen := s.setSampBuf_gen p _
@[simp] theorem State.putSamples_powerOn (s : State) (p : SampSel) (ys : List F64) (n : Nat) (h : Shape) :
    (s.putSamples p ys n h).powerOn = s.powerOn := s.setSampBuf_powerOn p _
@[simp] theorem State.putSamples_draws (s : State) (p : SampSel) (ys : List F64) (n : Nat) (h : Shape) :
    (s.putSamples p ys n h).draws = s.draws := s.setSampBuf_draws p _
@[simp] theorem State.putSamples_inputs (s : State) (p : SampSel) (ys : List F64) (n : Nat) (h : Shape) :
    (s.putSamples p ys n h).inputs = s.inputs := s.setSampBuf_inputs p _
@[simp] theorem State.putSamples_replies (s : State) (p : SampSel) (ys : List F64) (n : Nat) (h : Shape) :
    (s.putSamples p ys n h).replies = s.replies := s.setSampBuf_replies p _
@[simp] theorem State.putSamples_bitBuf (s : State) (p : SampSel) (ys : List F64) (n : Nat) (h : Shape) (b : BitSel) :
    (s.putSamples p ys n h).bitBuf b = s.bitBuf b := s.setSampBuf_bitBuf p _ b

/-! ### An error recorded -/

@[simp] theorem recordError_params (e : ErrCode) (info : Word) (s : State) :
    (recordError e info s).params = s.params := by unfold recordError; split <;> rfl
@[simp] theorem recordError_src (e : ErrCode) (info : Word) (s : State) :
    (recordError e info s).src = s.src := by unfold recordError; split <;> rfl
@[simp] theorem recordError_coded (e : ErrCode) (info : Word) (s : State) :
    (recordError e info s).coded = s.coded := by unfold recordError; split <;> rfl
@[simp] theorem recordError_demod (e : ErrCode) (info : Word) (s : State) :
    (recordError e info s).demod = s.demod := by unfold recordError; split <;> rfl
@[simp] theorem recordError_recov (e : ErrCode) (info : Word) (s : State) :
    (recordError e info s).recov = s.recov := by unfold recordError; split <;> rfl
@[simp] theorem recordError_sig (e : ErrCode) (info : Word) (s : State) :
    (recordError e info s).sig = s.sig := by unfold recordError; split <;> rfl
@[simp] theorem recordError_rx (e : ErrCode) (info : Word) (s : State) :
    (recordError e info s).rx = s.rx := by unfold recordError; split <;> rfl
@[simp] theorem recordError_ctrl (e : ErrCode) (info : Word) (s : State) :
    (recordError e info s).ctrl = s.ctrl := by unfold recordError; split <;> rfl
@[simp] theorem recordError_pend (e : ErrCode) (info : Word) (s : State) :
    (recordError e info s).pend = s.pend := by unfold recordError; split <;> rfl
@[simp] theorem recordError_pcmd (e : ErrCode) (info : Word) (s : State) :
    (recordError e info s).pcmd = s.pcmd := by unfold recordError; split <;> rfl
@[simp] theorem recordError_lastCmd (e : ErrCode) (info : Word) (s : State) :
    (recordError e info s).lastCmd = s.lastCmd := by unfold recordError; split <;> rfl
@[simp] theorem recordError_snrDb (e : ErrCode) (info : Word) (s : State) :
    (recordError e info s).snrDb = s.snrDb := by unfold recordError; split <;> rfl
@[simp] theorem recordError_seedLo (e : ErrCode) (info : Word) (s : State) :
    (recordError e info s).seedLo = s.seedLo := by unfold recordError; split <;> rfl
@[simp] theorem recordError_seedHi (e : ErrCode) (info : Word) (s : State) :
    (recordError e info s).seedHi = s.seedHi := by unfold recordError; split <;> rfl
@[simp] theorem recordError_results (e : ErrCode) (info : Word) (s : State) :
    (recordError e info s).results = s.results := by unfold recordError; split <;> rfl
@[simp] theorem recordError_gen (e : ErrCode) (info : Word) (s : State) :
    (recordError e info s).gen = s.gen := by unfold recordError; split <;> rfl
@[simp] theorem recordError_powerOn (e : ErrCode) (info : Word) (s : State) :
    (recordError e info s).powerOn = s.powerOn := by unfold recordError; split <;> rfl
@[simp] theorem recordError_draws (e : ErrCode) (info : Word) (s : State) :
    (recordError e info s).draws = s.draws := by unfold recordError; split <;> rfl
@[simp] theorem recordError_inputs (e : ErrCode) (info : Word) (s : State) :
    (recordError e info s).inputs = s.inputs := by unfold recordError; split <;> rfl
@[simp] theorem recordError_replies (e : ErrCode) (info : Word) (s : State) :
    (recordError e info s).replies = s.replies := by unfold recordError; split <;> rfl
@[simp] theorem recordError_bitBuf (e : ErrCode) (info : Word) (s : State) (b : BitSel) :
    (recordError e info s).bitBuf b = s.bitBuf b := by unfold recordError; split <;> cases b <;> rfl
@[simp] theorem recordError_sampBuf (e : ErrCode) (info : Word) (s : State) (p : SampSel) :
    (recordError e info s).sampBuf p = s.sampBuf p := by unfold recordError; split <;> cases p <;> rfl

/-! ### An error acknowledged -/

@[simp] theorem acknowledgeError_params (s : State) : (acknowledgeError s).params = s.params := rfl
@[simp] theorem acknowledgeError_src (s : State) : (acknowledgeError s).src = s.src := rfl
@[simp] theorem acknowledgeError_coded (s : State) : (acknowledgeError s).coded = s.coded := rfl
@[simp] theorem acknowledgeError_demod (s : State) : (acknowledgeError s).demod = s.demod := rfl
@[simp] theorem acknowledgeError_recov (s : State) : (acknowledgeError s).recov = s.recov := rfl
@[simp] theorem acknowledgeError_sig (s : State) : (acknowledgeError s).sig = s.sig := rfl
@[simp] theorem acknowledgeError_rx (s : State) : (acknowledgeError s).rx = s.rx := rfl
@[simp] theorem acknowledgeError_ctrl (s : State) : (acknowledgeError s).ctrl = s.ctrl := rfl
@[simp] theorem acknowledgeError_pend (s : State) : (acknowledgeError s).pend = s.pend := rfl
@[simp] theorem acknowledgeError_pcmd (s : State) : (acknowledgeError s).pcmd = s.pcmd := rfl
@[simp] theorem acknowledgeError_lastCmd (s : State) : (acknowledgeError s).lastCmd = s.lastCmd := rfl
@[simp] theorem acknowledgeError_snrDb (s : State) : (acknowledgeError s).snrDb = s.snrDb := rfl
@[simp] theorem acknowledgeError_seedLo (s : State) : (acknowledgeError s).seedLo = s.seedLo := rfl
@[simp] theorem acknowledgeError_seedHi (s : State) : (acknowledgeError s).seedHi = s.seedHi := rfl
@[simp] theorem acknowledgeError_results (s : State) : (acknowledgeError s).results = s.results := rfl
@[simp] theorem acknowledgeError_gen (s : State) : (acknowledgeError s).gen = s.gen := rfl
@[simp] theorem acknowledgeError_powerOn (s : State) : (acknowledgeError s).powerOn = s.powerOn := rfl
@[simp] theorem acknowledgeError_draws (s : State) : (acknowledgeError s).draws = s.draws := rfl
@[simp] theorem acknowledgeError_inputs (s : State) : (acknowledgeError s).inputs = s.inputs := rfl
@[simp] theorem acknowledgeError_replies (s : State) : (acknowledgeError s).replies = s.replies := rfl
@[simp] theorem acknowledgeError_bitBuf (s : State) (b : BitSel) :
    (acknowledgeError s).bitBuf b = s.bitBuf b := by cases b <;> rfl
@[simp] theorem acknowledgeError_sampBuf (s : State) (p : SampSel) :
    (acknowledgeError s).sampBuf p = s.sampBuf p := by cases p <;> rfl

/-! ### DONE acknowledged -/

@[simp] theorem acknowledgeDone_params (s : State) : (acknowledgeDone s).params = s.params := rfl
@[simp] theorem acknowledgeDone_src (s : State) : (acknowledgeDone s).src = s.src := rfl
@[simp] theorem acknowledgeDone_coded (s : State) : (acknowledgeDone s).coded = s.coded := rfl
@[simp] theorem acknowledgeDone_demod (s : State) : (acknowledgeDone s).demod = s.demod := rfl
@[simp] theorem acknowledgeDone_recov (s : State) : (acknowledgeDone s).recov = s.recov := rfl
@[simp] theorem acknowledgeDone_sig (s : State) : (acknowledgeDone s).sig = s.sig := rfl
@[simp] theorem acknowledgeDone_rx (s : State) : (acknowledgeDone s).rx = s.rx := rfl
@[simp] theorem acknowledgeDone_ctrl (s : State) : (acknowledgeDone s).ctrl = s.ctrl := rfl
@[simp] theorem acknowledgeDone_pend (s : State) : (acknowledgeDone s).pend = s.pend := rfl
@[simp] theorem acknowledgeDone_pcmd (s : State) : (acknowledgeDone s).pcmd = s.pcmd := rfl
@[simp] theorem acknowledgeDone_lastCmd (s : State) : (acknowledgeDone s).lastCmd = s.lastCmd := rfl
@[simp] theorem acknowledgeDone_snrDb (s : State) : (acknowledgeDone s).snrDb = s.snrDb := rfl
@[simp] theorem acknowledgeDone_seedLo (s : State) : (acknowledgeDone s).seedLo = s.seedLo := rfl
@[simp] theorem acknowledgeDone_seedHi (s : State) : (acknowledgeDone s).seedHi = s.seedHi := rfl
@[simp] theorem acknowledgeDone_results (s : State) : (acknowledgeDone s).results = s.results := rfl
@[simp] theorem acknowledgeDone_gen (s : State) : (acknowledgeDone s).gen = s.gen := rfl
@[simp] theorem acknowledgeDone_powerOn (s : State) : (acknowledgeDone s).powerOn = s.powerOn := rfl
@[simp] theorem acknowledgeDone_draws (s : State) : (acknowledgeDone s).draws = s.draws := rfl
@[simp] theorem acknowledgeDone_inputs (s : State) : (acknowledgeDone s).inputs = s.inputs := rfl
@[simp] theorem acknowledgeDone_replies (s : State) : (acknowledgeDone s).replies = s.replies := rfl
@[simp] theorem acknowledgeDone_bitBuf (s : State) (b : BitSel) :
    (acknowledgeDone s).bitBuf b = s.bitBuf b := by cases b <;> rfl
@[simp] theorem acknowledgeDone_sampBuf (s : State) (p : SampSel) :
    (acknowledgeDone s).sampBuf p = s.sampBuf p := by cases p <;> rfl

/-! ### A write of STATUS -/

@[simp] theorem writeStatus_params (v : Word) (s : State) :
    (writeStatus v s).params = s.params := by unfold writeStatus; split <;> split <;> rfl
@[simp] theorem writeStatus_src (v : Word) (s : State) :
    (writeStatus v s).src = s.src := by unfold writeStatus; split <;> split <;> rfl
@[simp] theorem writeStatus_coded (v : Word) (s : State) :
    (writeStatus v s).coded = s.coded := by unfold writeStatus; split <;> split <;> rfl
@[simp] theorem writeStatus_demod (v : Word) (s : State) :
    (writeStatus v s).demod = s.demod := by unfold writeStatus; split <;> split <;> rfl
@[simp] theorem writeStatus_recov (v : Word) (s : State) :
    (writeStatus v s).recov = s.recov := by unfold writeStatus; split <;> split <;> rfl
@[simp] theorem writeStatus_sig (v : Word) (s : State) :
    (writeStatus v s).sig = s.sig := by unfold writeStatus; split <;> split <;> rfl
@[simp] theorem writeStatus_rx (v : Word) (s : State) :
    (writeStatus v s).rx = s.rx := by unfold writeStatus; split <;> split <;> rfl
@[simp] theorem writeStatus_ctrl (v : Word) (s : State) :
    (writeStatus v s).ctrl = s.ctrl := by unfold writeStatus; split <;> split <;> rfl
@[simp] theorem writeStatus_pend (v : Word) (s : State) :
    (writeStatus v s).pend = s.pend := by unfold writeStatus; split <;> split <;> rfl
@[simp] theorem writeStatus_pcmd (v : Word) (s : State) :
    (writeStatus v s).pcmd = s.pcmd := by unfold writeStatus; split <;> split <;> rfl
@[simp] theorem writeStatus_lastCmd (v : Word) (s : State) :
    (writeStatus v s).lastCmd = s.lastCmd := by unfold writeStatus; split <;> split <;> rfl
@[simp] theorem writeStatus_snrDb (v : Word) (s : State) :
    (writeStatus v s).snrDb = s.snrDb := by unfold writeStatus; split <;> split <;> rfl
@[simp] theorem writeStatus_seedLo (v : Word) (s : State) :
    (writeStatus v s).seedLo = s.seedLo := by unfold writeStatus; split <;> split <;> rfl
@[simp] theorem writeStatus_seedHi (v : Word) (s : State) :
    (writeStatus v s).seedHi = s.seedHi := by unfold writeStatus; split <;> split <;> rfl
@[simp] theorem writeStatus_results (v : Word) (s : State) :
    (writeStatus v s).results = s.results := by unfold writeStatus; split <;> split <;> rfl
@[simp] theorem writeStatus_gen (v : Word) (s : State) :
    (writeStatus v s).gen = s.gen := by unfold writeStatus; split <;> split <;> rfl
@[simp] theorem writeStatus_powerOn (v : Word) (s : State) :
    (writeStatus v s).powerOn = s.powerOn := by unfold writeStatus; split <;> split <;> rfl
@[simp] theorem writeStatus_draws (v : Word) (s : State) :
    (writeStatus v s).draws = s.draws := by unfold writeStatus; split <;> split <;> rfl
@[simp] theorem writeStatus_inputs (v : Word) (s : State) :
    (writeStatus v s).inputs = s.inputs := by unfold writeStatus; split <;> split <;> rfl
@[simp] theorem writeStatus_replies (v : Word) (s : State) :
    (writeStatus v s).replies = s.replies := by unfold writeStatus; split <;> split <;> rfl
@[simp] theorem writeStatus_bitBuf (v : Word) (s : State) (b : BitSel) :
    (writeStatus v s).bitBuf b = s.bitBuf b := by unfold writeStatus; split <;> split <;> cases b <;> rfl
@[simp] theorem writeStatus_sampBuf (v : Word) (s : State) (p : SampSel) :
    (writeStatus v s).sampBuf p = s.sampBuf p := by unfold writeStatus; split <;> split <;> cases p <;> rfl

/-! ### A write of CTRL -/

@[simp] theorem writeCtrl_params (v : Word) (s : State) : (writeCtrl v s).params = s.params := rfl
@[simp] theorem writeCtrl_src (v : Word) (s : State) : (writeCtrl v s).src = s.src := rfl
@[simp] theorem writeCtrl_coded (v : Word) (s : State) : (writeCtrl v s).coded = s.coded := rfl
@[simp] theorem writeCtrl_demod (v : Word) (s : State) : (writeCtrl v s).demod = s.demod := rfl
@[simp] theorem writeCtrl_recov (v : Word) (s : State) : (writeCtrl v s).recov = s.recov := rfl
@[simp] theorem writeCtrl_sig (v : Word) (s : State) : (writeCtrl v s).sig = s.sig := rfl
@[simp] theorem writeCtrl_rx (v : Word) (s : State) : (writeCtrl v s).rx = s.rx := rfl
@[simp] theorem writeCtrl_status (v : Word) (s : State) : (writeCtrl v s).status = s.status := rfl
@[simp] theorem writeCtrl_pend (v : Word) (s : State) : (writeCtrl v s).pend = s.pend := rfl
@[simp] theorem writeCtrl_pcmd (v : Word) (s : State) : (writeCtrl v s).pcmd = s.pcmd := rfl
@[simp] theorem writeCtrl_lastCmd (v : Word) (s : State) : (writeCtrl v s).lastCmd = s.lastCmd := rfl
@[simp] theorem writeCtrl_snrDb (v : Word) (s : State) : (writeCtrl v s).snrDb = s.snrDb := rfl
@[simp] theorem writeCtrl_seedLo (v : Word) (s : State) : (writeCtrl v s).seedLo = s.seedLo := rfl
@[simp] theorem writeCtrl_seedHi (v : Word) (s : State) : (writeCtrl v s).seedHi = s.seedHi := rfl
@[simp] theorem writeCtrl_results (v : Word) (s : State) : (writeCtrl v s).results = s.results := rfl
@[simp] theorem writeCtrl_gen (v : Word) (s : State) : (writeCtrl v s).gen = s.gen := rfl
@[simp] theorem writeCtrl_powerOn (v : Word) (s : State) : (writeCtrl v s).powerOn = s.powerOn := rfl
@[simp] theorem writeCtrl_draws (v : Word) (s : State) : (writeCtrl v s).draws = s.draws := rfl
@[simp] theorem writeCtrl_inputs (v : Word) (s : State) : (writeCtrl v s).inputs = s.inputs := rfl
@[simp] theorem writeCtrl_replies (v : Word) (s : State) : (writeCtrl v s).replies = s.replies := rfl
@[simp] theorem writeCtrl_bitBuf (v : Word) (s : State) (b : BitSel) :
    (writeCtrl v s).bitBuf b = s.bitBuf b := by cases b <;> rfl
@[simp] theorem writeCtrl_sampBuf (v : Word) (s : State) (p : SampSel) :
    (writeCtrl v s).sampBuf p = s.sampBuf p := by cases p <;> rfl

/-! ### A command accepted -/

@[simp] theorem acceptCommand_params (w : Word) (s : State) : (acceptCommand w s).params = s.params := rfl
@[simp] theorem acceptCommand_src (w : Word) (s : State) : (acceptCommand w s).src = s.src := rfl
@[simp] theorem acceptCommand_coded (w : Word) (s : State) : (acceptCommand w s).coded = s.coded := rfl
@[simp] theorem acceptCommand_demod (w : Word) (s : State) : (acceptCommand w s).demod = s.demod := rfl
@[simp] theorem acceptCommand_recov (w : Word) (s : State) : (acceptCommand w s).recov = s.recov := rfl
@[simp] theorem acceptCommand_sig (w : Word) (s : State) : (acceptCommand w s).sig = s.sig := rfl
@[simp] theorem acceptCommand_rx (w : Word) (s : State) : (acceptCommand w s).rx = s.rx := rfl
@[simp] theorem acceptCommand_ctrl (w : Word) (s : State) : (acceptCommand w s).ctrl = s.ctrl := rfl
@[simp] theorem acceptCommand_snrDb (w : Word) (s : State) : (acceptCommand w s).snrDb = s.snrDb := rfl
@[simp] theorem acceptCommand_seedLo (w : Word) (s : State) : (acceptCommand w s).seedLo = s.seedLo := rfl
@[simp] theorem acceptCommand_seedHi (w : Word) (s : State) : (acceptCommand w s).seedHi = s.seedHi := rfl
@[simp] theorem acceptCommand_results (w : Word) (s : State) : (acceptCommand w s).results = s.results := rfl
@[simp] theorem acceptCommand_gen (w : Word) (s : State) : (acceptCommand w s).gen = s.gen := rfl
@[simp] theorem acceptCommand_powerOn (w : Word) (s : State) : (acceptCommand w s).powerOn = s.powerOn := rfl
@[simp] theorem acceptCommand_draws (w : Word) (s : State) : (acceptCommand w s).draws = s.draws := rfl
@[simp] theorem acceptCommand_inputs (w : Word) (s : State) : (acceptCommand w s).inputs = s.inputs := rfl
@[simp] theorem acceptCommand_replies (w : Word) (s : State) : (acceptCommand w s).replies = s.replies := rfl
@[simp] theorem acceptCommand_bitBuf (w : Word) (s : State) (b : BitSel) :
    (acceptCommand w s).bitBuf b = s.bitBuf b := by cases b <;> rfl
@[simp] theorem acceptCommand_sampBuf (w : Word) (s : State) (p : SampSel) :
    (acceptCommand w s).sampBuf p = s.sampBuf p := by cases p <;> rfl
@[simp] theorem acceptCommand_pcmd (w : Word) (s : State) : (acceptCommand w s).pcmd = w := rfl
@[simp] theorem acceptCommand_lastCmd (w : Word) (s : State) : (acceptCommand w s).lastCmd = w := rfl
@[simp] theorem acceptCommand_pend (w : Word) (s : State) : (acceptCommand w s).pend = true := rfl
@[simp] theorem acceptCommand_status (w : Word) (s : State) :
    (acceptCommand w s).status = { s.status with done := false } := rfl

/-! ### A command completed -/

@[simp] theorem completeCommand_params (s : State) : (completeCommand s).params = s.params := rfl
@[simp] theorem completeCommand_src (s : State) : (completeCommand s).src = s.src := rfl
@[simp] theorem completeCommand_coded (s : State) : (completeCommand s).coded = s.coded := rfl
@[simp] theorem completeCommand_demod (s : State) : (completeCommand s).demod = s.demod := rfl
@[simp] theorem completeCommand_recov (s : State) : (completeCommand s).recov = s.recov := rfl
@[simp] theorem completeCommand_sig (s : State) : (completeCommand s).sig = s.sig := rfl
@[simp] theorem completeCommand_rx (s : State) : (completeCommand s).rx = s.rx := rfl
@[simp] theorem completeCommand_ctrl (s : State) : (completeCommand s).ctrl = s.ctrl := rfl
@[simp] theorem completeCommand_pcmd (s : State) : (completeCommand s).pcmd = s.pcmd := rfl
@[simp] theorem completeCommand_lastCmd (s : State) : (completeCommand s).lastCmd = s.lastCmd := rfl
@[simp] theorem completeCommand_snrDb (s : State) : (completeCommand s).snrDb = s.snrDb := rfl
@[simp] theorem completeCommand_seedLo (s : State) : (completeCommand s).seedLo = s.seedLo := rfl
@[simp] theorem completeCommand_seedHi (s : State) : (completeCommand s).seedHi = s.seedHi := rfl
@[simp] theorem completeCommand_results (s : State) : (completeCommand s).results = s.results := rfl
@[simp] theorem completeCommand_gen (s : State) : (completeCommand s).gen = s.gen := rfl
@[simp] theorem completeCommand_powerOn (s : State) : (completeCommand s).powerOn = s.powerOn := rfl
@[simp] theorem completeCommand_draws (s : State) : (completeCommand s).draws = s.draws := rfl
@[simp] theorem completeCommand_inputs (s : State) : (completeCommand s).inputs = s.inputs := rfl
@[simp] theorem completeCommand_replies (s : State) : (completeCommand s).replies = s.replies := rfl
@[simp] theorem completeCommand_bitBuf (s : State) (b : BitSel) :
    (completeCommand s).bitBuf b = s.bitBuf b := by cases b <;> rfl
@[simp] theorem completeCommand_sampBuf (s : State) (p : SampSel) :
    (completeCommand s).sampBuf p = s.sampBuf p := by cases p <;> rfl
@[simp] theorem completeCommand_pend (s : State) : (completeCommand s).pend = false := rfl
@[simp] theorem completeCommand_status (s : State) : (completeCommand s).status = { s.status with done := true } := rfl

/-! ### The next events replaced -/

@[simp] theorem State.withInputs_bitBuf (s : State) (l : List HostEvent) (b : BitSel) :
    State.bitBuf { s with inputs := l } b = s.bitBuf b := by cases b <;> rfl
@[simp] theorem State.withInputs_sampBuf (s : State) (l : List HostEvent) (p : SampSel) :
    State.sampBuf { s with inputs := l } p = s.sampBuf p := by cases p <;> rfl

end Sys2Proof.Machine
end

