-- ==== Sys2Proof/Laws/Stores.lean ====
section
/-! SUPPORT. The sparse stores: read after write, and that every write keeps the canonical form. -/

set_option Elab.async false

namespace Sys2Proof.Machine

variable {α : Type}

/-! ### Reading -/

theorem storeGet_append (c d : List (Nat × α)) (i : Nat) :
    storeGet (c ++ d) i = (storeGet c i).or (storeGet d i) := by
  induction c with
  | nil => simp [storeGet]
  | cons kv rest ih =>
    obtain ⟨k, v⟩ := kv
    by_cases h : k = i <;> simp [storeGet, h, ih]

theorem storeGet_filter (p : Nat → Bool) (c : List (Nat × α)) (i : Nat) :
    storeGet (c.filter (fun kv => p kv.1)) i = if p i then storeGet c i else none := by
  induction c with
  | nil => simp [storeGet]
  | cons kv rest ih =>
    obtain ⟨k, v⟩ := kv
    by_cases hk : k = i
    · subst hk
      by_cases hp : p k <;> simp [storeGet, hp, ih]
    · by_cases hp : p k <;> simp [storeGet, hp, hk, ih]

theorem storeGet_run (start : Nat) (ys : List α) (i : Nat) :
    storeGet (storeRun start ys) i = if start ≤ i then ys[i - start]? else none := by
  induction ys generalizing start with
  | nil => simp [storeRun, storeGet]
  | cons y rest ih =>
    by_cases h : start = i
    · subst h; simp [storeRun, storeGet]
    · simp only [storeRun, storeGet, h, if_false, ih]
      by_cases hl : start + 1 ≤ i
      · have e : i - start = (i - (start + 1)) + 1 := by omega
        rw [if_pos hl, if_pos (by omega : start ≤ i), e, List.getElem?_cons_succ]
      · rw [if_neg hl, if_neg (by omega)]

/-- Everything a write does to what is read. -/
theorem storeGet_write (start : Nat) (ys : List α) (c : List (Nat × α)) (i : Nat) :
    storeGet (storeWrite start ys c) i =
      if start ≤ i ∧ i < start + ys.length then ys[i - start]? else storeGet c i := by
  unfold storeWrite
  rw [storeGet_append, storeGet_append, storeGet_filter (fun k => decide (k < start)),
    storeGet_filter (fun k => decide (start + ys.length ≤ k)), storeGet_run]
  by_cases h1 : i < start
  · have h2 : ¬ start ≤ i := by omega
    have h3 : ¬ start + ys.length ≤ i := by omega
    simp [h1, h2, h3]
  · by_cases h4 : i < start + ys.length
    · have h2 : start ≤ i := by omega
      have h3 : ¬ start + ys.length ≤ i := by omega
      simp [h1, h2, h3, h4]
    · have h2 : start ≤ i := by omega
      have h3 : start + ys.length ≤ i := by omega
      have h5 : ys[i - start]? = none := by
        rw [List.getElem?_eq_none_iff]; omega
      simp [h1, h2, h3, h4, h5]

theorem storeGet_write_in {start : Nat} {ys : List α} {c : List (Nat × α)} {i : Nat}
    (h1 : start ≤ i) (h2 : i < start + ys.length) : storeGet (storeWrite start ys c) i = ys[i - start]? := by
  rw [storeGet_write, if_pos ⟨h1, h2⟩]

theorem storeGet_write_out {start : Nat} {ys : List α} {c : List (Nat × α)} {i : Nat}
    (h : i < start ∨ start + ys.length ≤ i) : storeGet (storeWrite start ys c) i = storeGet c i := by
  rw [storeGet_write, if_neg (by omega)]

/-! ### Canonical form -/

theorem storeWf_cons {cap k : Nat} {v : α} {rest : List (Nat × α)} :
    storeWf cap ((k, v) :: rest) = true ↔ k < cap ∧ (∀ kv ∈ rest, k < kv.1) ∧ storeWf cap rest = true := by
  simp [storeWf, and_assoc]

theorem storeWf_mem {cap : Nat} {c : List (Nat × α)} (h : storeWf cap c = true) : ∀ kv ∈ c, kv.1 < cap := by
  induction c with
  | nil => simp
  | cons kv rest ih =>
    obtain ⟨k, v⟩ := kv
    obtain ⟨hk, -, hr⟩ := storeWf_cons.mp h
    intro kv' hm
    rcases List.mem_cons.mp hm with rfl | hm
    · exact hk
    · exact ih hr _ hm

theorem storeWf_append {cap : Nat} {c d : List (Nat × α)} (hc : storeWf cap c = true) (hd : storeWf cap d = true)
    (h : ∀ x ∈ c, ∀ y ∈ d, x.1 < y.1) : storeWf cap (c ++ d) = true := by
  induction c with
  | nil => simpa using hd
  | cons kv rest ih =>
    obtain ⟨k, v⟩ := kv
    obtain ⟨hk, hlt, hr⟩ := storeWf_cons.mp hc
    rw [List.cons_append, storeWf_cons]
    refine ⟨hk, ?_, ih hr (fun x hx y hy => h x (List.mem_cons_of_mem _ hx) y hy)⟩
    intro y hy
    rcases List.mem_append.mp hy with hy | hy
    · exact hlt y hy
    · exact h (k, v) (List.mem_cons_self ..) y hy

theorem storeWf_filter {cap : Nat} {c : List (Nat × α)} (p : Nat × α → Bool) (h : storeWf cap c = true) :
    storeWf cap (c.filter p) = true := by
  induction c with
  | nil => simpa using h
  | cons kv rest ih =>
    obtain ⟨k, v⟩ := kv
    obtain ⟨hk, hlt, hr⟩ := storeWf_cons.mp h
    rw [List.filter_cons]
    split
    · rw [storeWf_cons]
      exact ⟨hk, fun y hy => hlt y (List.mem_of_mem_filter hy), ih hr⟩
    · exact ih hr

theorem storeRun_mem {start : Nat} {ys : List α} {kv : Nat × α} (h : kv ∈ storeRun start ys) :
    start ≤ kv.1 ∧ kv.1 < start + ys.length := by
  induction ys generalizing start with
  | nil => simp [storeRun] at h
  | cons y rest ih =>
    rcases List.mem_cons.mp (by simpa [storeRun] using h) with rfl | h
    · simp
    · have := ih h
      simp only [List.length_cons]
      omega

theorem storeWf_run {cap start : Nat} {ys : List α} (h : start + ys.length ≤ cap) :
    storeWf cap (storeRun start ys) = true := by
  induction ys generalizing start with
  | nil => simp [storeRun, storeWf]
  | cons y rest ih =>
    simp only [List.length_cons] at h
    rw [storeRun, storeWf_cons]
    exact ⟨by omega, fun kv hm => (storeRun_mem hm).1, ih (by omega)⟩

/-- A write within the capacity keeps the canonical form. -/
theorem storeWf_write {cap start : Nat} {ys : List α} {c : List (Nat × α)} (hc : storeWf cap c = true)
    (h : start + ys.length ≤ cap) : storeWf cap (storeWrite start ys c) = true := by
  unfold storeWrite
  refine storeWf_append (storeWf_append (storeWf_filter _ hc) (storeWf_run h) ?_) (storeWf_filter _ hc) ?_
  · intro x hx y hy
    have h1 := List.of_mem_filter hx
    have h2 := storeRun_mem hy
    simp only [decide_eq_true_eq] at h1
    omega
  · intro x hx y hy
    have h1 := List.of_mem_filter hy
    simp only [decide_eq_true_eq] at h1
    rcases List.mem_append.mp hx with hx | hx
    · have h2 := List.of_mem_filter hx
      simp only [decide_eq_true_eq] at h2
      omega
    · have h2 := storeRun_mem hx
      omega

/-- Writing the same values again changes nothing. -/
theorem storeWrite_write (start : Nat) (ys : List α) (c : List (Nat × α)) :
    storeWrite start ys (storeWrite start ys c) = storeWrite start ys c := by
  have hrun : ∀ kv ∈ storeRun start ys, ¬ kv.1 < start ∧ ¬ start + ys.length ≤ kv.1 := by
    intro kv h
    have := storeRun_mem h
    omega
  have r1 : (storeRun start ys).filter (fun kv => decide (kv.1 < start)) = [] := by
    rw [List.filter_eq_nil_iff]; intro kv h; simpa using (hrun kv h).1
  have r2 : (storeRun start ys).filter (fun kv => decide (start + ys.length ≤ kv.1)) = [] := by
    rw [List.filter_eq_nil_iff]; intro kv h; simpa using (hrun kv h).2
  have lo : ∀ kv : Nat × α, (decide (start + ys.length ≤ kv.1) && decide (kv.1 < start)) = false := by
    intro kv
    by_cases h : start + ys.length ≤ kv.1
    · have : ¬ kv.1 < start := by omega
      simp [this]
    · simp [h]
  have hi : ∀ kv : Nat × α, (decide (kv.1 < start) && decide (start + ys.length ≤ kv.1)) = false := by
    intro kv; rw [Bool.and_comm]; exact lo kv
  simp only [storeWrite, List.filter_append, List.filter_filter, r1, r2, lo, hi, Bool.and_self, List.filter_false,
    List.append_nil, List.nil_append]

/-! ### The buffers -/

theorem State.bitBuf_putBits (s : State) (b : BitSel) (ys : List Bool) :
    (s.putBits b ys).bitBuf b = { cells := storeWrite 0 ys (s.bitBuf b).cells, len := BitVec.ofNat 32 ys.length } := by
  simp [State.putBits]

theorem State.bitBuf_putBits_ne (s : State) {b c : BitSel} (ys : List Bool) (h : c ≠ b) :
    (s.putBits b ys).bitBuf c = s.bitBuf c := s.setBitBuf_bitBuf_ne _ h

/-- Every cell after a bit string was stored. -/
theorem State.bitCell_putBits (s : State) (b c : BitSel) (ys : List Bool) (i : Nat) :
    (s.putBits b ys).bitCell c i = if c = b then (ys[i]?).getD (s.bitCell c i) else s.bitCell c i := by
  by_cases h : c = b
  · subst h
    unfold State.bitCell
    rw [if_pos rfl, State.bitBuf_putBits, State.putBits_powerOn, storeGet_write]
    by_cases hi : i < ys.length
    · simp [hi]
    · simp [hi]
  · rw [if_neg h]
    unfold State.bitCell
    rw [State.bitBuf_putBits_ne s ys h, State.putBits_powerOn]

theorem State.bitCell_putBits_lt (s : State) (b : BitSel) {ys : List Bool} {i : Nat} (h : i < ys.length) :
    (s.putBits b ys).bitCell b i = ys[i] := by
  rw [State.bitCell_putBits, if_pos rfl, List.getElem?_eq_getElem h, Option.getD_some]

theorem State.bitCell_putBits_ge (s : State) (b : BitSel) {ys : List Bool} {i : Nat} (h : ys.length ≤ i) :
    (s.putBits b ys).bitCell b i = s.bitCell b i := by
  rw [State.bitCell_putBits, if_pos rfl, List.getElem?_eq_none h, Option.getD_none]

theorem State.bitLen_putBits (s : State) (b : BitSel) (ys : List Bool) (h : ys.length < 2 ^ 32) :
    (s.putBits b ys).bitLen b = ys.length := by
  simp only [State.bitLen, State.bitBuf_putBits, BitVec.toNat_ofNat]
  exact Nat.mod_eq_of_lt h

/-- A stored bit string is what the buffer then holds. -/
theorem State.bits_putBits (s : State) (b : BitSel) (ys : List Bool) (h : ys.length < 2 ^ 32) :
    (s.putBits b ys).bits b = ys := by
  unfold State.bits
  rw [State.bitLen_putBits s b ys h]
  apply List.ext_getElem
  · simp
  · intro i h1 h2
    simp [State.bitCell_putBits_lt s b h2]

theorem State.bits_length (s : State) (b : BitSel) : (s.bits b).length = s.bitLen b := by simp [State.bits]

theorem State.bits_getElem (s : State) (b : BitSel) {i : Nat} (h : i < (s.bits b).length) :
    (s.bits b)[i] = s.bitCell b i := by simp [State.bits]

theorem State.signal_length (s : State) (p : SampSel) : (s.signal p).length = s.components p := by simp [State.signal]

theorem State.signal_getElem (s : State) (p : SampSel) {j : Nat} (h : j < (s.signal p).length) :
    (s.signal p)[j] = s.sampWord p j := by simp [State.signal]

theorem halvesOf_flatMap_length (ys : List F64) : (ys.flatMap halvesOf).length = 2 * ys.length := by
  induction ys with
  | nil => rfl
  | cons y rest ih => simp only [List.flatMap_cons, List.length_append, ih, List.length_cons]; simp [halvesOf]; omega

theorem halvesOf_flatMap_getElem? (ys : List F64) (k : Nat) :
    (ys.flatMap halvesOf)[k]? = (ys[k / 2]?).map (fun y => y.extractLsb' (32 * (k % 2)) 32) := by
  induction ys generalizing k with
  | nil => simp
  | cons y rest ih =>
    rcases k with _ | _ | k
    · simp [halvesOf]
    · simp [halvesOf]
    · have e1 : (k + 1 + 1) / 2 = k / 2 + 1 := by omega
      have e2 : (k + 1 + 1) % 2 = k % 2 := by omega
      simp [List.flatMap_cons, halvesOf, ih, e1, e2]

theorem State.sampBuf_putSamples (s : State) (p : SampSel) (ys : List F64) (n : Nat) (h : Shape) :
    (s.putSamples p ys n h).sampBuf p =
      { halves := storeWrite 0 (ys.flatMap halvesOf) (s.sampBuf p).halves, len := BitVec.ofNat 32 n, shape := h } := by
  simp [State.putSamples]

theorem State.sampBuf_putSamples_ne (s : State) {p q : SampSel} (ys : List F64) (n : Nat) (h : Shape) (hq : q ≠ p) :
    (s.putSamples p ys n h).sampBuf q = s.sampBuf q := s.setSampBuf_sampBuf_ne _ hq

/-- Every half after a signal was stored. -/
theorem State.sampHalf_putSamples (s : State) (p q : SampSel) (ys : List F64) (n : Nat) (h : Shape) (k : Nat) :
    (s.putSamples p ys n h).sampHalf q k =
      if q = p then ((ys[k / 2]?).map (fun y => y.extractLsb' (32 * (k % 2)) 32)).getD (s.sampHalf q k)
      else s.sampHalf q k := by
  by_cases hq : q = p
  · subst hq
    unfold State.sampHalf
    rw [if_pos rfl, State.sampBuf_putSamples, State.putSamples_powerOn, storeGet_write, halvesOf_flatMap_length]
    by_cases hk : k < 2 * ys.length
    · have : k / 2 < ys.length := by omega
      simp [hk, halvesOf_flatMap_getElem?, this]
    · have : ys.length ≤ k / 2 := by omega
      simp [hk, List.getElem?_eq_none this]
  · rw [if_neg hq]
    unfold State.sampHalf
    rw [State.sampBuf_putSamples_ne s ys n h hq, State.putSamples_powerOn]

theorem halves_join (y : F64) : y.extractLsb' 32 32 ++ y.extractLsb' 0 32 = y := by
  apply BitVec.eq_of_getLsbD_eq
  intro i hi
  rw [BitVec.getLsbD_append]
  by_cases h : i < 32
  · simp [h]
  · have : i - 32 < 32 := by omega
    simp [h, this, show 32 + (i - 32) = i by omega]

theorem State.sampWord_putSamples_lt (s : State) (p : SampSel) {ys : List F64} (n : Nat) (h : Shape) {j : Nat}
    (hj : j < ys.length) : (s.putSamples p ys n h).sampWord p j = ys[j] := by
  have e1 : (2 * j + 1) / 2 = j := by omega
  have e2 : (2 * j + 1) % 2 = 1 := by omega
  have e3 : 2 * j / 2 = j := by omega
  have e4 : 2 * j % 2 = 0 := by omega
  unfold State.sampWord
  simp only [State.sampHalf_putSamples, if_true, e1, e2, e3, e4, List.getElem?_eq_getElem hj, Option.map_some,
    Option.getD_some]
  exact halves_join _

theorem State.sampHalf_putSamples_ge (s : State) (p : SampSel) {ys : List F64} (n : Nat) (h : Shape) {k : Nat}
    (hk : 2 * ys.length ≤ k) : (s.putSamples p ys n h).sampHalf p k = s.sampHalf p k := by
  rw [State.sampHalf_putSamples, if_pos rfl, List.getElem?_eq_none (by omega)]
  rfl

theorem State.sampHalf_putSamples_ne (s : State) {p q : SampSel} (ys : List F64) (n : Nat) (h : Shape) (k : Nat)
    (hq : q ≠ p) : (s.putSamples p ys n h).sampHalf q k = s.sampHalf q k := by
  rw [State.sampHalf_putSamples, if_neg hq]

theorem State.symbols_putSamples (s : State) (p : SampSel) (ys : List F64) (n : Nat) (h : Shape) (hn : n < 2 ^ 32) :
    (s.putSamples p ys n h).symbols p = n := by
  simp only [State.symbols, State.sampBuf_putSamples, BitVec.toNat_ofNat]
  exact Nat.mod_eq_of_lt hn

/-- A stored signal is what the buffer then holds. -/
theorem State.signal_putSamples (s : State) (p : SampSel) (ys : List F64) (n : Nat) (h : Shape) (hn : n < 2 ^ 32)
    (hl : ys.length = n * h.width) : (s.putSamples p ys n h).signal p = ys := by
  have hc : (s.putSamples p ys n h).components p = ys.length := by
    simp only [State.components, State.symbols_putSamples s p ys n h hn, State.sampBuf_putSamples, hl]
  unfold State.signal
  rw [hc]
  apply List.ext_getElem
  · simp
  · intro j h1 h2
    simp [State.sampWord_putSamples_lt s p n h h2]

end Sys2Proof.Machine
end

