-- ==== Sys2Proof/Laws/Ops.lean ====
section
/-! SUPPORT. What the shared operations do, said once: recording an error, storing a bit string, storing a signal, and
what any command can answer. -/

set_option Elab.async false

namespace Sys2Proof.Machine

open Sys2Proof.Safety

/-! ### Reading through updates -/

/-- A cell is read off its buffer and the power-on draw. -/
theorem State.bitCell_congr {s t : State} {b : BitSel} (h : t.bitBuf b = s.bitBuf b) (hp : t.powerOn = s.powerOn)
    (i : Nat) : t.bitCell b i = s.bitCell b i := by unfold State.bitCell; rw [h, hp]

theorem State.sampHalf_congr {s t : State} {p : SampSel} (h : t.sampBuf p = s.sampBuf p) (hp : t.powerOn = s.powerOn)
    (k : Nat) : t.sampHalf p k = s.sampHalf p k := by unfold State.sampHalf; rw [h, hp]

theorem State.sampWord_congr {s t : State} {p : SampSel} (h : t.sampBuf p = s.sampBuf p) (hp : t.powerOn = s.powerOn)
    (j : Nat) : t.sampWord p j = s.sampWord p j := by
  unfold State.sampWord; rw [State.sampHalf_congr h hp, State.sampHalf_congr h hp]

theorem sameAllBits_of {s t : State} (h : ∀ b, t.bitBuf b = s.bitBuf b) (hp : t.powerOn = s.powerOn) :
    SameAllBits s t := ⟨fun b => by rw [h], fun b => State.bitCell_congr (h b) hp⟩

theorem sameAllSamples_of {s t : State} (h : ∀ p, t.sampBuf p = s.sampBuf p) (hp : t.powerOn = s.powerOn) :
    SameAllSamples s t :=
  ⟨fun p => by rw [h], fun p => by rw [h], fun p => State.sampWord_congr (h p) hp⟩

/-! ### Errors -/

/-- Everything that recording an error does. -/
theorem recordError_eq (e : ErrCode) (info : Word) (s : State) :
    recordError e info s =
      { s with status := { s.status with
        err := true
        ovf := s.status.ovf || s.status.err
        errCode := if s.status.err then s.status.errCode else e
        errInfo := if s.status.err then s.status.errInfo else info } } := by
  unfold recordError
  cases h : s.status.err
  · simp
  · simp [h]

theorem failsWith_recordError (e : ErrCode) (s : State) : FailsWith e s (recordError e s.pcmd s) := by
  refine ⟨?_, ?_, ?_, ?_⟩
  · rw [recordError_eq]
  · simp [recordError_eq]
  · simp [recordError_eq]
  · rw [recordError_eq]; cases h : s.status.err <;> simp

/-! ### Bit strings and signals stored -/

theorem sameRegisters_putBits (s : State) (b : BitSel) (ys : List Bool) : SameRegisters s (s.putBits b ys) := by
  constructor <;> simp

/-- The frame of storing a bit string. -/
theorem onlyBitsStored_putBits (s : State) (b : BitSel) (ys : List Bool) :
    OnlyBitsStored b ys.length s (s.putBits b ys) where
  regs := sameRegisters_putBits s b ys
  status := by simp
  results := by simp
  gen := by simp
  bits :=
    { lens := fun c hc => by rw [State.bitBuf_putBits_ne s ys hc]
      others := fun c hc i => State.bitCell_congr (State.bitBuf_putBits_ne s ys hc) (by simp) i
      beyond := fun i hi => State.bitCell_putBits_ge s b hi }
  samples := sameAllSamples_of (fun p => by simp) (by simp)

/-- The frame of storing a signal. -/
theorem onlySamplesStored_putSamples (s : State) (p : SampSel) (ys : List F64) (n : Nat) (h : Shape) :
    OnlySamplesStored p ys.length s (s.putSamples p ys n h) where
  regs := by constructor <;> simp
  status := by simp
  bits := sameAllBits_of (fun b => by simp) (by simp)
  samples :=
    { lens := fun q hq => by rw [State.sampBuf_putSamples_ne s ys n h hq]
      shapes := fun q hq => by rw [State.sampBuf_putSamples_ne s ys n h hq]
      others := fun q hq j => State.sampWord_congr (State.sampBuf_putSamples_ne s ys n h hq) (by simp) j
      beyond := fun j hj => by
        unfold State.sampWord
        rw [State.sampHalf_putSamples_ge s p n h (by omega), State.sampHalf_putSamples_ge s p n h (by omega)] }

/-! ### Manchester coding -/

theorem manchesterEncode_length (xs : List Bool) : (manchesterEncode xs).length = 2 * xs.length := by
  induction xs with
  | nil => rfl
  | cons x rest ih => simp only [manchesterEncode, List.length_cons, ih]; omega

theorem manchesterEncode_getElem? (xs : List Bool) (i : Nat) :
    (manchesterEncode xs)[2 * i]? = xs[i]? ∧ (manchesterEncode xs)[2 * i + 1]? = (xs[i]?).map (!·) := by
  induction xs generalizing i with
  | nil => simp [manchesterEncode]
  | cons x rest ih =>
    cases i with
    | zero => simp [manchesterEncode]
    | succ i =>
      have e1 : 2 * (i + 1) = 2 * i + 1 + 1 := by omega
      rw [e1]
      simp only [manchesterEncode, List.getElem?_cons_succ]
      exact ih i

theorem manchesterDecode_length : ∀ xs : List Bool, (manchesterDecode xs).length = xs.length / 2
  | [] => rfl
  | [_] => by simp [manchesterDecode]
  | _ :: _ :: rest => by
    simp only [manchesterDecode, List.length_cons, manchesterDecode_length rest]; omega

theorem manchesterDecode_getElem? : ∀ (xs : List Bool) (i : Nat), 2 * i + 1 < xs.length →
    (manchesterDecode xs)[i]? = some ((xs[2 * i]?.getD false) && !(xs[2 * i + 1]?.getD false))
  | [], i, h => by simp at h
  | [_], i, h => by simp at h
  | x :: y :: rest, 0, _ => by simp [manchesterDecode]
  | x :: y :: rest, i + 1, h => by
    have e1 : 2 * (i + 1) = 2 * i + 1 + 1 := by omega
    rw [e1]
    simp only [manchesterDecode, List.getElem?_cons_succ]
    exact manchesterDecode_getElem? rest i (by simp only [List.length_cons] at h; omega)

/-- Decoding gives back what was encoded. -/
theorem manchesterDecode_encode (xs : List Bool) : manchesterDecode (manchesterEncode xs) = xs := by
  induction xs with
  | nil => rfl
  | cons x rest ih => simp [manchesterEncode, manchesterDecode, ih]

theorem padEven_length (xs : List Bool) : (padEven xs).length = 2 * ((xs.length + 1) / 2) := by
  unfold padEven
  split
  · simp; omega
  · omega

/-! ### Noise -/

theorem addNoise_length (sigma : F64) (xs : List F64) (g : GState) (n : Nat) :
    (addNoise sigma xs g n).1.length = xs.length := by
  induction xs generalizing g n with
  | nil => rfl
  | cons x rest ih => simp [addNoise, ih]

/-- One draw a component: the generator after them. -/
theorem addNoise_gen (sigma : F64) (xs : List F64) (g : GState) (n : Nat) :
    (addNoise sigma xs g n).2 = { g with taken := g.taken + xs.length } := by
  induction xs generalizing g n with
  | nil => rfl
  | cons x rest ih => simp only [addNoise, ih, gnext, List.length_cons]; congr 1; omega

/-- Component `j` takes draw `j`. -/
theorem addNoise_getElem? (sigma : F64) (xs : List F64) (g : GState) (n j : Nat) :
    (addNoise sigma xs g n).1[j]? =
      (xs[j]?).map (fun x => noisy (freeNaN (n + j)) sigma x (drawFrom g.origin (g.taken + j))) := by
  induction xs generalizing g n j with
  | nil => simp [addNoise]
  | cons x rest ih =>
    cases j with
    | zero => simp [addNoise, gnext]
    | succ j =>
      simp only [addNoise, List.getElem?_cons_succ, ih, gnext]
      congr 1
      funext x
      rw [show n + 1 + j = n + (j + 1) by omega, show g.taken + 1 + j = g.taken + (j + 1) by omega]

/-! ### What a command can answer -/

/-- The reads of a state that commands check their operands with. -/
theorem State.bitsFit_iff (s : State) (b : BitSel) : s.bitsFit b = true ↔ s.bitLen b ≤ s.params.bitCap := by
  simp [State.bitsFit]

theorem State.signalFits_iff (s : State) (p : SampSel) :
    s.signalFits p = true ↔ s.components p ≤ s.params.sampCap := by
  simp [State.signalFits]

/-- Every command answers a next state: it records one error, or stores one bit string within the capacity, or one
signal within it, or writes result registers, the generator or nothing (`exec` is unfolded here once). -/
theorem exec_cases (i : Instr) (s : State) :
    (∃ e, e ∈ [ErrCode.srcLen, ErrCode.shape, ErrCode.dstCap] ∧ exec i s = .next (recordError e s.pcmd s)) ∨
    (∃ b ys, ys.length ≤ s.params.bitCap ∧ exec i s = .next (s.putBits b ys)) ∨
    (∃ p ys n h, ys.length ≤ s.params.sampCap ∧ exec i s = .next (s.putSamples p ys n h)) ∨
    (∃ sa sb ys h, i = .awgn sa sb ∧ s.symbols sa = 0 ∧ ys = [] ∧ exec i s = .next { s.putSamples sb ys 0 h with
      results := { s.results with power := plusZero, sigma := plusZero } }) ∨
    (∃ sa sb ys h p q, i = .awgn sa sb ∧ s.components sa ≤ s.params.sampCap ∧ s.symbols sa ≠ 0 ∧
      ys.length = s.components sa ∧ exec i s = .next { s.putSamples sb ys (s.symbols sa) h with
        results := { s.results with power := p, sigma := q }
        gen := { s.gen with taken := s.gen.taken + s.components sa }
        draws := s.draws + s.components sa }) ∨
    (∃ ba bb e l ber, i = .berc ba bb ∧ e ≤ l ∧ l ≤ s.params.bitCap ∧ l < 2 ^ 32 ∧ exec i s = .next { s with
      results := { s.results with errCnt := BitVec.ofNat 32 e, cmpLen := BitVec.ofNat 32 l, ber := ber } }) ∨
    (i = .seed ∧ exec i s = .next { s with gen := gseed s.seed }) ∨
    (i = .clr ∧ exec i s = execClr s) ∨
    (i = .nop ∧ exec i s = .next s) := by
  have err : ∀ e, e ∈ [ErrCode.srcLen, ErrCode.shape, ErrCode.dstCap] → exec i s = raiseError e s →
      (∃ e, e ∈ [ErrCode.srcLen, ErrCode.shape, ErrCode.dstCap] ∧ exec i s = .next (recordError e s.pcmd s)) :=
    fun e he h => ⟨e, he, h⟩
  have hsrc : ErrCode.srcLen ∈ [ErrCode.srcLen, ErrCode.shape, ErrCode.dstCap] := by simp
  have hshape : ErrCode.shape ∈ [ErrCode.srcLen, ErrCode.shape, ErrCode.dstCap] := by simp
  have hdst : ErrCode.dstCap ∈ [ErrCode.srcLen, ErrCode.shape, ErrCode.dstCap] := by simp
  cases i with
  | nop => simp [exec, execNop]
  | seed => simp [exec, execSeed]
  | clr => simp [exec]
  | menc ba bb =>
    by_cases h1 : s.bitsFit ba = true
    · by_cases h2 : 2 * s.bitLen ba > s.params.bitCap
      · exact .inl (err _ hdst (by simp [exec, execMenc, h1, h2]))
      · refine .inr (.inl ⟨bb, manchesterEncode (s.bits ba), ?_, by simp [exec, execMenc, h1, h2]⟩)
        rw [manchesterEncode_length, State.bits_length]; omega
    · exact .inl (err _ hsrc (by simp [exec, execMenc, h1]))
  | mdec ba bb =>
    by_cases h1 : s.bitsFit ba = true
    · refine .inr (.inl ⟨bb, manchesterDecode (s.bits ba), ?_, by simp [exec, execMdec, h1]⟩)
      rw [manchesterDecode_length, State.bits_length]
      have := (s.bitsFit_iff ba).mp h1; omega
    · exact .inl (err _ hsrc (by simp [exec, execMdec, h1]))
  | bmod ba sb =>
    by_cases h1 : s.bitsFit ba = true
    · by_cases h2 : s.bitLen ba > s.params.sampCap
      · exact .inl (err _ hdst (by simp [exec, execBmod, h1, h2]))
      · refine .inr (.inr (.inl ⟨sb, _, _, _, ?_, by simp only [exec, execBmod, h1, h2]; rfl⟩))
        rw [List.length_map, State.bits_length]; omega
    · exact .inl (err _ hsrc (by simp [exec, execBmod, h1]))
  | qmod ba sb =>
    by_cases h1 : s.bitsFit ba = true
    · by_cases h2 : 2 * ((s.bitLen ba + 1) / 2) > s.params.sampCap
      · exact .inl (err _ hdst (by simp [exec, execQmod, h1, h2]))
      · refine .inr (.inr (.inl ⟨sb, _, _, _, ?_, by simp only [exec, execQmod, h1, h2]; rfl⟩))
        rw [List.length_map, padEven_length, State.bits_length]; omega
    · exact .inl (err _ hsrc (by simp [exec, execQmod, h1]))
  | bdem sa bb =>
    by_cases h1 : s.signalFits sa = true
    · by_cases h2 : (s.sampBuf sa).shape = .scalar
      · by_cases h3 : s.symbols sa > s.params.bitCap
        · exact .inl (err _ hdst (by simp [exec, execBdem, h1, h2, h3]))
        · refine .inr (.inl ⟨bb, (s.signal sa).map bpskSlice, ?_, by simp [exec, execBdem, h1, h2, h3]⟩)
          rw [List.length_map, State.signal_length, State.components, h2]; simp only [Shape.width]; omega
      · exact .inl (err _ hshape (by simp [exec, execBdem, h1, h2]))
    · exact .inl (err _ hsrc (by simp [exec, execBdem, h1]))
  | qdem sa bb =>
    by_cases h1 : s.signalFits sa = true
    · by_cases h2 : (s.sampBuf sa).shape = .pair
      · by_cases h3 : 2 * s.symbols sa > s.params.bitCap
        · exact .inl (err _ hdst (by simp [exec, execQdem, h1, h2, h3]))
        · refine .inr (.inl ⟨bb, (s.signal sa).map qpskSlice, ?_, by simp [exec, execQdem, h1, h2, h3]⟩)
          rw [List.length_map, State.signal_length, State.components, h2]; simp only [Shape.width]; omega
      · exact .inl (err _ hshape (by simp [exec, execQdem, h1, h2]))
    · exact .inl (err _ hsrc (by simp [exec, execQdem, h1]))
  | awgn sa sb =>
    by_cases h1 : s.signalFits sa = true
    · by_cases h2 : s.symbols sa = 0
      · exact .inr (.inr (.inr (.inl ⟨sa, sb, [], (s.sampBuf sa).shape, rfl, h2, rfl, by simp [exec, execAwgn, h1, h2]⟩)))
      · refine .inr (.inr (.inr (.inr (.inl ⟨sa, sb, _, (s.sampBuf sa).shape, _, _, rfl, (s.signalFits_iff sa).mp h1, h2,
          ?_, by
            simp only [exec, execAwgn, h1, h2, addNoise_gen, State.signal_length]; rfl⟩))))
        rw [addNoise_length, State.signal_length]
    · exact .inl (err _ hsrc (by simp [exec, execAwgn, h1]))
  | berc ba bb =>
    by_cases h1 : s.bitsFit ba = true
    · by_cases h2 : s.bitsFit bb = true
      · have hcount : ∀ as rs : List Bool, countDiffering as rs ≤ min as.length rs.length := by
          intro as
          induction as with
          | nil => intro rs; simp [countDiffering]
          | cons a as ih =>
            intro rs
            cases rs with
            | nil => simp [countDiffering]
            | cons r rs =>
              have := ih rs
              simp only [countDiffering, List.length_cons]
              split <;> omega
        refine .inr (.inr (.inr (.inr (.inr (.inl ⟨ba, bb, countDiffering (s.bits ba) (s.bits bb),
          min (s.bitLen ba) (s.bitLen bb), _, rfl, ?_, ?_, ?_, by simp only [exec, execBerc, h1, h2]; rfl⟩)))))
        · simpa [State.bits_length] using hcount (s.bits ba) (s.bits bb)
        · have := (s.bitsFit_iff ba).mp h1; omega
        · have : s.bitLen ba < 2 ^ 32 := (s.bitBuf ba).len.isLt
          omega
      · exact .inl (err _ hsrc (by simp [exec, execBerc, h1, h2]))
    · exact .inl (err _ hsrc (by simp [exec, execBerc, h1]))

end Sys2Proof.Machine
end

