-- ==== Sys2Proof/Laws/Bus.lean ====
section
/-! SUPPORT. The address map read off its offsets, and the words of a bit window bit by bit. -/

set_option Elab.async false

namespace Sys2Proof.Machine

open Sys2Proof.Safety

/-! ### Offsets -/

theorem offsetOf_lt (p : Params) (addr : Word) : offsetOf p addr < 0x200000 := by
  unfold offsetOf
  have := ((addr - p.base).extractLsb' 2 19).isLt
  omega

theorem offsetOf_aligned (p : Params) (addr : Word) : offsetOf p addr % 4 = 0 := by
  unfold offsetOf; omega

/-- The offsets above the registers are reserved (R40). -/
theorem regAt_above {off : Nat} (h : 0x070 ≤ off) : regAt regMap off = .unmapped := by
  have hne : ∀ n, n < 0x070 → n ≠ off := fun n hn => by omega
  simp only [regMap, controlRegs, bufferRegs, resultRegs, List.cons_append, List.nil_append, regAt]
  repeat rw [if_neg (hne _ (by decide))]

/-- The bit windows (R62, R64). -/
theorem targetAt_bitWindow (b : BitSel) {m : Nat} (hm : m < 2048) :
    targetAt (0x010000 + 0x2000 * b.field.toNat + 4 * m) = .bitWord b m := by
  have hb : ∀ n : Nat, b.field.toNat = n → n < 4 := fun n hn => hn ▸ b.field.isLt
  have hsel : bitSelOf b.field.toNat = b := by cases b <;> rfl
  generalize b.field.toNat = n at *
  have hn := hb n rfl
  have h1 : ¬ 0x010000 + 0x2000 * n + 4 * m < 0x010000 := by omega
  have h2 : 0x010000 + 0x2000 * n + 4 * m < 0x018000 := by omega
  have h3 : (0x010000 + 0x2000 * n + 4 * m - 0x010000) / 0x2000 = n := by omega
  have h4 : (0x010000 + 0x2000 * n + 4 * m - 0x010000) % 0x2000 / 4 = m := by omega
  simp only [targetAt, h1, h2, h3, h4, if_true, if_false, hsel]

/-- The sample windows (R62, R66). -/
theorem targetAt_sampWindow (p : SampSel) {k : Nat} (hk : k < 131072) :
    targetAt (0x080000 + 0x080000 * p.field.toNat + 4 * k) = .sampHalf p k := by
  have hp : ∀ n : Nat, p.field.toNat = n → n < 2 := fun n hn => hn ▸ p.field.isLt
  have hsel : sampSelOf p.field.toNat = p := by cases p <;> rfl
  generalize p.field.toNat = n at *
  have hn := hp n rfl
  have h1 : ¬ 0x080000 + 0x080000 * n + 4 * k < 0x010000 := by omega
  have h2 : ¬ 0x080000 + 0x080000 * n + 4 * k < 0x018000 := by omega
  have h5 : ¬ 0x080000 + 0x080000 * n + 4 * k < 0x080000 := by omega
  have h6 : 0x080000 + 0x080000 * n + 4 * k < 0x180000 := by omega
  have h3 : (0x080000 + 0x080000 * n + 4 * k - 0x080000) / 0x080000 = n := by omega
  have h4 : (0x080000 + 0x080000 * n + 4 * k - 0x080000) % 0x080000 / 4 = k := by omega
  simp only [targetAt, h1, h2, h3, h4, h5, h6, if_true, if_false, hsel]

/-- What an offset of the window can be: one of the 28 register offsets, reserved or unmapped, or a window word. -/
theorem targetAt_cases {off : Nat} (h4 : off % 4 = 0) (hl : off < 0x200000) :
    (∃ k, k < 28 ∧ off = 4 * k ∧ targetAt off = regAt regMap (4 * k)) ∨
    ((0x070 ≤ off ∧ off < 0x010000 ∨ 0x018000 ≤ off ∧ off < 0x080000 ∨ 0x180000 ≤ off) ∧
      targetAt off = .unmapped) ∨
    (0x010000 ≤ off ∧ off < 0x018000 ∧ ∃ b m, targetAt off = .bitWord b m) ∨
    (0x080000 ≤ off ∧ off < 0x180000 ∧ ∃ p k, targetAt off = .sampHalf p k) := by
  by_cases h1 : off < 0x010000
  · by_cases h2 : off < 0x070
    · refine .inl ⟨off / 4, by omega, by omega, ?_⟩
      rw [show 4 * (off / 4) = off by omega]; simp only [targetAt, h1, if_true]
    · exact .inr (.inl ⟨by omega, by simp only [targetAt, h1, if_true, regAt_above (show 0x070 ≤ off by omega)]⟩)
  · by_cases h2 : off < 0x018000
    · exact .inr (.inr (.inl ⟨by omega, h2, _, _, by simp only [targetAt, h1, h2, if_true, if_false]; rfl⟩))
    · by_cases h3 : off < 0x080000
      · exact .inr (.inl ⟨by omega, by simp only [targetAt, h1, h2, h3, if_true, if_false]⟩)
      · by_cases h5 : off < 0x180000
        · exact .inr (.inr (.inr ⟨by omega, h5, _, _, by
            simp only [targetAt, h1, h2, h3, h5, if_true, if_false]; rfl⟩))
        · exact .inr (.inl ⟨by omega, by simp only [targetAt, h1, h2, h3, h5, if_false]⟩)

/-- Which register offsets are guarded (R225). -/
theorem guarded_regAt : ∀ k, k < 28 → (regAt regMap (4 * k)).guarded =
    (4 * k == 0x014 || 4 * k == 0x01C || 4 * k == 0x020 || 4 * k == 0x024
      || (decide (0x030 ≤ 4 * k) && decide (4 * k ≤ 0x04C))) := by decide

/-- Which register offsets are hazardous to read (R231). -/
theorem readHazard_regAt : ∀ k, k < 28 → (regAt regMap (4 * k)).readHazard =
    ((decide (0x030 ≤ 4 * k) && decide (4 * k ≤ 0x04C)) || (decide (0x050 ≤ 4 * k) && decide (4 * k ≤ 0x06C))) := by
  decide

/-! ### Accesses -/

/-- A read at an offset of the window while nothing is pending, or where the read is no hazard. -/
theorem hostRead_plain {s : State} {addr : Word} (hw : inWindow s.params addr = true)
    (hh : (s.pend && (targetAt (offsetOf s.params addr)).readHazard) = false) :
    hostRead addr s = { s with replies := s.replies ++ [readTarget (targetAt (offsetOf s.params addr)) s] } := by
  simp [hostRead, hw, hh]

/-- A write at an offset of the window while nothing is pending, or where the offset is not guarded. -/
theorem hostWrite_plain {s : State} {addr : Word} (v : Word) (hw : inWindow s.params addr = true)
    (hh : (s.pend && (targetAt (offsetOf s.params addr)).guarded) = false) :
    hostWrite addr v s = writeTarget (targetAt (offsetOf s.params addr)) v s := by
  simp [hostWrite, hw, hh]

/-- A guarded write while a command is pending. -/
theorem hostWrite_dropped {s : State} {addr : Word} (v : Word) (hw : inWindow s.params addr = true)
    (hh : (s.pend && (targetAt (offsetOf s.params addr)).guarded) = true) :
    hostWrite addr v s = recordError .busy (BitVec.ofNat 32 (offsetOf s.params addr)) s := by
  simp [hostWrite, hw, hh]

/-! ### Words of a bit window -/

theorem packWord_foldl (bits : List Bool) (v : Word) (i : Nat) (hi : i < 32) :
    (bits.foldl (fun (v : Word) b => v <<< 1 ||| (BitVec.ofBool b).setWidth 32) v).getLsbD i =
      if h : i < bits.length then bits[bits.length - 1 - i] else v.getLsbD (i - bits.length) := by
  induction bits generalizing v with
  | nil => simp
  | cons b rest ih =>
    rw [List.foldl_cons, ih]
    by_cases h : i < rest.length
    · have h' : i < (b :: rest).length := by simp; omega
      rw [dif_pos h, dif_pos h']
      have e : (b :: rest).length - 1 - i = (rest.length - 1 - i) + 1 := by simp; omega
      simp only [e, List.getElem_cons_succ]
    · by_cases h2 : i = rest.length
      · have h' : i < (b :: rest).length := by simp; omega
        rw [dif_neg h, dif_pos h']
        simp [h2]
      · have h' : ¬ i < (b :: rest).length := by simp; omega
        rw [dif_neg h, dif_neg h']
        have e : i - rest.length = (i - (b :: rest).length) + 1 := by simp; omega
        rw [e]
        simp
        omega

/-- Cell `32m + k` is bit `31 - k` of the word (R64). -/
theorem getLsbD_packWord {bits : List Bool} (hl : bits.length = 32) {k : Nat} (hk : k < 32) :
    (packWord bits).getLsbD (31 - k) = bits[k] := by
  unfold packWord
  rw [packWord_foldl bits 0 (31 - k) (by omega), dif_pos (by omega)]
  congr 1
  omega

theorem wordBits_length (v : Word) : (wordBits v).length = 32 := by simp [wordBits]

theorem wordBits_getElem? (v : Word) {k : Nat} (hk : k < 32) : (wordBits v)[k]? = some (v.getLsbD (31 - k)) := by
  simp [wordBits, hk]

end Sys2Proof.Machine
end

