-- ==== Sys2Proof/Laws/Decode.lean ====
section
/-! SUPPORT. The reserved field of a command word: a word with a 1 in it is refused, any other is below 1024. -/

set_option Elab.async false

namespace Sys2Proof

theorem decode_reservedField {w : Word} (h : fieldRsv w ≠ 0) : decode w = .error .reservedField := by
  unfold decode
  exact if_pos h

/-- A word whose RSV is 0 is one of 1024, so that what holds of it can be checked word by word. -/
theorem lt_of_fieldRsv {w : Word} (h : fieldRsv w = 0) : ∃ k, k < 1024 ∧ w = BitVec.ofNat 32 k := by
  refine ⟨w.toNat, ?_, by simp⟩
  have h2 : (fieldRsv w).toNat = 0 := by rw [h]; rfl
  unfold fieldRsv at h2
  have h3 := w.isLt
  simp only [BitVec.extractLsb'_toNat, Nat.shiftRight_eq_div_pow] at h2
  omega

/-- RSV is bits 31:10 (spec/30_encoding.md R91). -/
theorem fieldRsv_eq_zero {w : Word} : fieldRsv w = 0 ↔ w &&& 0xFFFFFC00 = 0 := by
  have hbit : ∀ i, i < 22 → (0xFFFFFC00#32).getLsbD (10 + i) = true := by decide
  constructor
  · intro h
    obtain ⟨k, hk, rfl⟩ := lt_of_fieldRsv h
    revert k
    decide +kernel
  · intro h
    apply BitVec.eq_of_getLsbD_eq
    intro i hi
    have h1 : (w &&& 0xFFFFFC00#32).getLsbD (10 + i) = false := by
      rw [show w &&& 0xFFFFFC00#32 = 0 from h]; simp
    rw [BitVec.getLsbD_and, hbit i hi, Bool.and_true] at h1
    simp [fieldRsv, hi, h1]

end Sys2Proof
end

