-- ==== Sys2Proof/Laws/Exec.lean ====
section
/-! SUPPORT. What each command answers when its operands fit, and what stays of a stored signal when results, generator
and draws are written beside it. -/

set_option Elab.async false

namespace Sys2Proof.Machine

open Sys2Proof.Safety

/-! ### Operand checks -/

theorem bitsFit_false {s : State} {b : BitSel} : s.bitsFit b = false ↔ s.params.bitCap < s.bitLen b := by
  rw [← Bool.not_eq_true, State.bitsFit_iff]; omega

theorem signalFits_false {s : State} {p : SampSel} :
    s.signalFits p = false ↔ s.params.sampCap < s.components p := by
  rw [← Bool.not_eq_true, State.signalFits_iff]; omega

theorem raiseError_failsWith (e : ErrCode) (s : State) : ∃ t, raiseError e s = .next t ∧ FailsWith e s t :=
  ⟨_, rfl, failsWith_recordError e s⟩

/-! ### Results -/

theorem exec_menc {s : State} {ba bb : BitSel} (h1 : s.bitLen ba ≤ s.params.bitCap)
    (h2 : 2 * s.bitLen ba ≤ s.params.bitCap) :
    exec (.menc ba bb) s = .next (s.putBits bb (manchesterEncode (s.bits ba))) := by
  simp [exec, execMenc, (s.bitsFit_iff ba).mpr h1]; omega

theorem exec_mdec {s : State} {ba bb : BitSel} (h1 : s.bitLen ba ≤ s.params.bitCap) :
    exec (.mdec ba bb) s = .next (s.putBits bb (manchesterDecode (s.bits ba))) := by
  simp [exec, execMdec, (s.bitsFit_iff ba).mpr h1]

theorem exec_bmod {s : State} {ba : BitSel} {sb : SampSel} (h1 : s.bitLen ba ≤ s.params.bitCap)
    (h2 : s.bitLen ba ≤ s.params.sampCap) :
    exec (.bmod ba sb) s = .next (s.putSamples sb ((s.bits ba).map bpskSymbol) (s.bitLen ba) .scalar) := by
  simp [exec, execBmod, (s.bitsFit_iff ba).mpr h1]; omega

theorem exec_qmod {s : State} {ba : BitSel} {sb : SampSel} (h1 : s.bitLen ba ≤ s.params.bitCap)
    (h2 : 2 * ((s.bitLen ba + 1) / 2) ≤ s.params.sampCap) :
    exec (.qmod ba sb) s =
      .next (s.putSamples sb ((padEven (s.bits ba)).map qpskComponent) ((s.bitLen ba + 1) / 2) .pair) := by
  simp [exec, execQmod, (s.bitsFit_iff ba).mpr h1]; omega

theorem exec_bdem {s : State} {sa : SampSel} {bb : BitSel} (hs : (s.sampBuf sa).shape = .scalar)
    (h1 : s.symbols sa ≤ s.params.sampCap) (h2 : s.symbols sa ≤ s.params.bitCap) :
    exec (.bdem sa bb) s = .next (s.putBits bb ((s.signal sa).map bpskSlice)) := by
  have hf : s.signalFits sa = true := (s.signalFits_iff sa).mpr (by simpa [State.components, hs, Shape.width] using h1)
  simp [exec, execBdem, hf, hs]; omega

theorem exec_qdem {s : State} {sa : SampSel} {bb : BitSel} (hs : (s.sampBuf sa).shape = .pair)
    (h1 : 2 * s.symbols sa ≤ s.params.sampCap) (h2 : 2 * s.symbols sa ≤ s.params.bitCap) :
    exec (.qdem sa bb) s = .next (s.putBits bb ((s.signal sa).map qpskSlice)) := by
  have hf : s.signalFits sa = true :=
    (s.signalFits_iff sa).mpr (by simp only [State.components, hs, Shape.width]; omega)
  simp [exec, execQdem, hf, hs]; omega

theorem exec_awgn_empty {s : State} {sa sb : SampSel} (h1 : s.components sa ≤ s.params.sampCap)
    (h2 : s.symbols sa = 0) :
    exec (.awgn sa sb) s = .next { s.putSamples sb [] 0 (s.sampBuf sa).shape with
      results := { s.results with power := plusZero, sigma := plusZero } } := by
  simp only [exec, execAwgn, (s.signalFits_iff sa).mpr h1, h2, Bool.not_true, Bool.false_eq_true, if_false, if_true]

theorem exec_awgn {s : State} {sa sb : SampSel} (h1 : s.components sa ≤ s.params.sampCap) (h2 : s.symbols sa ≠ 0) :
    exec (.awgn sa sb) s = .next
      { s.putSamples sb
          (addNoise (awgnScale (s.signal sa) (s.symbols sa) s.snr).2 (s.signal sa) s.gen s.draws).1
          (s.symbols sa) (s.sampBuf sa).shape with
        results := { s.results with
          power := (awgnScale (s.signal sa) (s.symbols sa) s.snr).1
          sigma := (awgnScale (s.signal sa) (s.symbols sa) s.snr).2 }
        gen := { s.gen with taken := s.gen.taken + s.components sa }
        draws := s.draws + s.components sa } := by
  simp only [exec, execAwgn, (s.signalFits_iff sa).mpr h1, h2, Bool.not_true, Bool.false_eq_true, if_false,
    addNoise_gen, State.signal_length]

/-! ### Results, generator and draws beside a stored signal -/

theorem onlySamplesStored_with {p : SampSel} {w : Nat} {s t : State} (h : OnlySamplesStored p w s t) (r : Results)
    (g : GState) (d : Nat) : OnlySamplesStored p w s { t with results := r, gen := g, draws := d } where
  regs := ⟨h.regs.params, h.regs.ctrl, h.regs.pend, h.regs.pcmd, h.regs.lastCmd, h.regs.snrDb, h.regs.seedLo,
    h.regs.seedHi, h.regs.inputs, h.regs.replies⟩
  status := h.status
  bits := ⟨fun b => by rw [← h.bits.lens b]; cases b <;> rfl, fun b i => by rw [← h.bits.cells b]; cases b <;> rfl⟩
  samples :=
    { lens := fun q hq => by rw [← h.samples.lens q hq]; cases q <;> rfl
      shapes := fun q hq => by rw [← h.samples.shapes q hq]; cases q <;> rfl
      others := fun q hq j => by rw [← h.samples.others q hq]; cases q <;> rfl
      beyond := fun j hj => by rw [← h.samples.beyond j hj]; cases p <;> rfl }

theorem sampBuf_with (t : State) (r : Results) (g : GState) (d : Nat) (p : SampSel) :
    ({ t with results := r, gen := g, draws := d } : State).sampBuf p = t.sampBuf p := by cases p <;> rfl

theorem sampWord_with (t : State) (r : Results) (g : GState) (d : Nat) (p : SampSel) (j : Nat) :
    ({ t with results := r, gen := g, draws := d } : State).sampWord p j = t.sampWord p j := by cases p <;> rfl

/-! ### The invariant's stores -/

/-- The buffers' canonical form, buffer by buffer. -/
theorem storesWf_iff (s : State) :
    storesWf s = true ↔ (∀ b, storeWf s.params.bitCap (s.bitBuf b).cells = true) ∧
      ∀ p, storeWf (2 * s.params.sampCap) (s.sampBuf p).halves = true := by
  unfold storesWf
  simp only [Bool.and_eq_true]
  constructor
  · rintro ⟨⟨⟨⟨⟨h1, h2⟩, h3⟩, h4⟩, h5⟩, h6⟩
    exact ⟨by intro b; cases b <;> assumption, by intro p; cases p <;> assumption⟩
  · rintro ⟨h1, h2⟩
    exact ⟨⟨⟨⟨⟨h1 .src, h1 .coded⟩, h1 .demod⟩, h1 .recov⟩, h2 .sig⟩, h2 .rx⟩

theorem storesWf_putBits {s : State} (h : storesWf s = true) (b : BitSel) {ys : List Bool}
    (hl : ys.length ≤ s.params.bitCap) : storesWf (s.putBits b ys) = true := by
  rw [storesWf_iff] at *
  refine ⟨fun c => ?_, fun p => ?_⟩
  · by_cases hc : c = b
    · subst hc; rw [State.bitBuf_putBits, State.putBits_params]; exact storeWf_write (h.1 _) (by omega)
    · rw [State.bitBuf_putBits_ne _ _ hc, State.putBits_params]; exact h.1 _
  · rw [State.putBits_sampBuf, State.putBits_params]; exact h.2 _

theorem storesWf_putSamples {s : State} (h : storesWf s = true) (p : SampSel) {ys : List F64} (n : Nat) (sh : Shape)
    (hl : ys.length ≤ s.params.sampCap) : storesWf (s.putSamples p ys n sh) = true := by
  rw [storesWf_iff] at *
  refine ⟨fun b => ?_, fun q => ?_⟩
  · rw [State.putSamples_bitBuf, State.putSamples_params]; exact h.1 _
  · by_cases hq : q = p
    · subst hq
      rw [State.sampBuf_putSamples, State.putSamples_params]
      exact storeWf_write (h.2 _) (by rw [halvesOf_flatMap_length]; omega)
    · rw [State.sampBuf_putSamples_ne _ _ _ _ hq, State.putSamples_params]; exact h.2 _

end Sys2Proof.Machine
end

