-- ==== Sys2Proof/Laws/PerInstr.lean ====
section
/-! SUPPORT. The family EncodeMatches: the word of every command matches its row of the opcode map
(spec/30_encoding.md R93), one lemma for each command. -/

set_option Elab.async false

/-- `w AND mask = match` of the command's row, for the word that the encoder gives. -/
def Sys2Proof.Laws.EncodeMatches.Statement (i : Sys2Proof.Instr) : Prop :=
  Sys2Proof.encode i &&& (Sys2Proof.matchMask i).2 = (Sys2Proof.matchMask i).1

namespace Sys2Proof.Laws.EncodeMatches

theorem nop : Statement .nop := rfl

theorem menc (ba bb : BitSel) : Statement (.menc ba bb) := by cases ba <;> cases bb <;> rfl

theorem mdec (ba bb : BitSel) : Statement (.mdec ba bb) := by cases ba <;> cases bb <;> rfl

theorem bmod (ba : BitSel) (sb : SampSel) : Statement (.bmod ba sb) := by cases ba <;> cases sb <;> rfl

theorem bdem (sa : SampSel) (bb : BitSel) : Statement (.bdem sa bb) := by cases sa <;> cases bb <;> rfl

theorem qmod (ba : BitSel) (sb : SampSel) : Statement (.qmod ba sb) := by cases ba <;> cases sb <;> rfl

theorem qdem (sa : SampSel) (bb : BitSel) : Statement (.qdem sa bb) := by cases sa <;> cases bb <;> rfl

theorem awgn (sa sb : SampSel) : Statement (.awgn sa sb) := by cases sa <;> cases sb <;> rfl

theorem berc (ba bb : BitSel) : Statement (.berc ba bb) := by cases ba <;> cases bb <;> rfl

theorem seed : Statement .seed := rfl

theorem clr : Statement .clr := rfl

end Sys2Proof.Laws.EncodeMatches
end

