-- ==== Sys2Proof/Laws/Rounding.lean ====
section
/-! SUPPORT. The binary64 encodings rise with their values, and `roundRoot` rounds to the nearest one (R11). -/

set_option Elab.async false

namespace Sys2Proof.Machine

open Sys2Proof.Safety

/-! ### Magnitudes -/

theorem magValue_zero : magValue 0 = 0 := by decide

theorem magValue_lt_succ (m : Nat) : magValue m < magValue (m + 1) := by
  unfold magValue
  have h52 : (1 <<< 52 : Nat) = 2 ^ 52 := by decide
  simp only [h52, Nat.shiftLeft_eq]
  generalize hq : m / 2 ^ 52 = q
  generalize hf : m % 2 ^ 52 = f
  have hfl : f < 2 ^ 52 := hf ▸ Nat.mod_lt _ (by decide)
  have hm : m = 2 ^ 52 * q + f := by rw [← hq, ← hf]; exact (Nat.div_add_mod m _).symm
  by_cases hc : f + 1 = 2 ^ 52
  · have h1 : (m + 1) / 2 ^ 52 = q + 1 := by omega
    have h2 : (m + 1) % 2 ^ 52 = 0 := by omega
    rw [h1, h2]
    simp only [Nat.add_eq_zero_iff, one_ne_zero, and_false, if_false, Nat.add_sub_cancel, Nat.add_zero]
    by_cases h0 : q = 0
    · subst h0; simp; omega
    · obtain ⟨e, rfl⟩ : ∃ e, q = e + 1 := ⟨q - 1, by omega⟩
      simp only [Nat.add_eq_zero_iff, one_ne_zero, and_false, if_false, Nat.add_sub_cancel, pow_succ 2 e]
      have : 0 < 2 ^ e := Nat.two_pow_pos e
      calc (2 ^ 52 + f) * 2 ^ e < (2 ^ 52 * 2) * 2 ^ e := Nat.mul_lt_mul_of_pos_right (by omega) this
        _ = 2 ^ 52 * (2 ^ e * 2) := by ring
  · have h1 : (m + 1) / 2 ^ 52 = q := by omega
    have h2 : (m + 1) % 2 ^ 52 = f + 1 := by omega
    rw [h1, h2]
    split
    · omega
    · exact Nat.mul_lt_mul_of_pos_right (by omega) (Nat.two_pow_pos _)

theorem magValue_strictMono : StrictMono magValue := strictMono_nat_of_lt_succ magValue_lt_succ

theorem magValue_le_iff {a b : Nat} : magValue a ≤ magValue b ↔ a ≤ b := magValue_strictMono.le_iff_le

theorem magValue_inj {a b : Nat} : magValue a = magValue b ↔ a = b := magValue_strictMono.injective.eq_iff

/-- Reading a number off its bits finds the largest one accepted. -/
theorem largestBelow_spec (le : Nat → Bool) (bits acc : Nat) (h0 : le acc = true)
    (mono : ∀ a b, a ≤ b → le b = true → le a = true) :
    acc ≤ largestBelow le bits acc ∧ largestBelow le bits acc < acc + 2 ^ bits ∧ le (largestBelow le bits acc) = true ∧
      ∀ c, largestBelow le bits acc < c → c < acc + 2 ^ bits → le c = false := by
  induction bits generalizing acc with
  | zero => exact ⟨le_refl _, by simp [largestBelow], h0, fun c h1 h2 => by simp [largestBelow] at h1 h2; omega⟩
  | succ n ih =>
    have e : acc + 1 <<< n = acc + 2 ^ n := by rw [Nat.one_shiftLeft]
    unfold largestBelow
    rw [e]
    split
    case isTrue h =>
      obtain ⟨h1, h2, h3, h4⟩ := ih (acc + 2 ^ n) h
      refine ⟨by omega, by rw [pow_succ]; omega, h3, fun c hc hl => h4 c hc ?_⟩
      rw [pow_succ] at hl; omega
    case isFalse h =>
      obtain ⟨h1, h2, h3, h4⟩ := ih acc h0
      refine ⟨h1, by rw [pow_succ]; omega, h3, fun c hc hl => ?_⟩
      by_cases hn : c < acc + 2 ^ n
      · exact h4 c hc hn
      · by_contra hcon
        exact h (mono _ c (by omega) (by simpa using hcon))

/-! ### Rounding -/

theorem pow_mul_le_iff {k num den v : Nat} {r : ℝ} (hk : k ≠ 0) (hd : 0 < den) (hr : 0 ≤ r)
    (h : r ^ k * den = num) : v ^ k * den ≤ num ↔ (v : ℝ) ≤ r := by
  have hd' : (0 : ℝ) < den := by exact_mod_cast hd
  rw [← pow_le_pow_iff_left₀ (Nat.cast_nonneg v) hr hk, ← mul_le_mul_iff_left₀ hd', h]
  exact_mod_cast Iff.rfl

/-- `roundRoot` in units of 2^-1074: a magnitude nearest to `r`, the even one of two, infinity from the middle of the
largest finite magnitude and 2^1024 on. -/
theorem roundRoot_spec {k num den : Nat} {r : ℝ} (hk : k ≠ 0) (hd : 0 < den) (hr : 0 ≤ r) (h : r ^ k * den = num) :
    roundRoot k num den ≤ infMag ∧
    (roundRoot k num den = infMag ↔ ((magValue (infMag - 1) + magValue infMag : Nat) : ℝ) ≤ 2 * r) ∧
    (roundRoot k num den < infMag → ∀ c, c < infMag →
      |r - magValue (roundRoot k num den)| ≤ |r - magValue c| ∧
      (|r - magValue (roundRoot k num den)| = |r - magValue c| → c ≠ roundRoot k num den →
        roundRoot k num den % 2 = 0)) := by
  have hle : ∀ v : Nat, v ^ k * den ≤ num ↔ (v : ℝ) ≤ r := fun v => pow_mul_le_iff hk hd hr h
  have hmono : ∀ a b, a ≤ b → magAtMost k num den b = true → magAtMost k num den a = true := by
    intro a b hab hb
    simp only [magAtMost, Bool.and_eq_true, decide_eq_true_eq] at hb ⊢
    refine ⟨by omega, le_trans ?_ hb.2⟩
    exact Nat.mul_le_mul_right _ (Nat.pow_le_pow_left (magValue_le_iff.mpr hab) k)
  have hstart : magAtMost k num den 0 = true := by
    simp [magAtMost, magValue_zero, hk, infMag]
  obtain ⟨-, h2, h3, h4⟩ := largestBelow_spec (magAtMost k num den) 63 0 hstart hmono
  have h2r : (2 * r) ^ k * den = ((num * 2 ^ k : Nat) : ℝ) := by
    push_cast; rw [mul_pow, ← h]; ring
  have hmid : ∀ v : Nat, (v ^ k * den ≤ num * 2 ^ k ↔ (v : ℝ) ≤ 2 * r) := fun v =>
    pow_mul_le_iff hk hd (by linarith) h2r
  unfold roundRoot
  generalize hlo : largestBelow (magAtMost k num den) 63 0 = lo at *
  simp only [magAtMost, Bool.and_eq_true, decide_eq_true_eq] at h3
  have hinf : infMag < 2 ^ 63 := by decide
  have hinfe : infMag % 2 = 0 := by decide
  have ha : (magValue lo : ℝ) ≤ r := (hle _).mp h3.2
  have hb : lo + 1 < infMag → r < magValue (lo + 1) := by
    intro hl
    have := h4 (lo + 1) (by omega) (by omega)
    by_contra hcon
    have hc := (hle _).mpr (not_lt.mp hcon)
    simp [magAtMost, hl, hc] at this
  have hlow : ∀ c, c ≤ lo → (magValue c : ℝ) ≤ magValue lo := fun c hc => by
    exact_mod_cast magValue_le_iff.mpr hc
  have hhigh : ∀ c, lo < c → (magValue (lo + 1) : ℝ) ≤ magValue c := fun c hc => by
    exact_mod_cast magValue_le_iff.mpr (show lo + 1 ≤ c by omega)
  have hinj : ∀ c d : Nat, (magValue c : ℝ) = magValue d → c = d := fun c d hcd => by
    exact magValue_inj.mp (by exact_mod_cast hcd)
  have hab : (magValue lo : ℝ) < magValue (lo + 1) := by exact_mod_cast magValue_lt_succ lo
  -- the bound of infinity is met only when `lo` is the largest finite magnitude
  have hbound : ((magValue (infMag - 1) + magValue infMag : Nat) : ℝ) ≤ 2 * r → lo + 1 = infMag := by
    intro hh
    by_contra hne
    have hl : lo + 1 < infMag := by omega
    have h5 := hb hl
    have h6 : (magValue (lo + 1) : ℝ) ≤ magValue (infMag - 1) := by
      exact_mod_cast magValue_le_iff.mpr (by omega)
    have h7 : (magValue (infMag - 1) : ℝ) ≤ magValue infMag := by
      exact_mod_cast magValue_le_iff.mpr (by omega)
    push_cast at hh
    linarith
  have hpred : lo + 1 = infMag → infMag - 1 = lo := by omega
  by_cases c1 : num * 2 ^ k < (magValue lo + magValue (lo + 1)) ^ k * den
  · have hlt : 2 * r < magValue lo + magValue (lo + 1) := by
      have := (hmid (magValue lo + magValue (lo + 1))).not.mp (by omega)
      push_cast at this; linarith
    simp only [if_pos c1]
    refine ⟨by omega, ⟨fun he => by omega, fun hh => ?_⟩, fun _ c _ => ?_⟩
    · have hl := hbound hh
      rw [hpred hl, ← hl] at hh; push_cast at hh; linarith
    · rw [abs_of_nonneg (by linarith : (0 : ℝ) ≤ r - magValue lo)]
      rcases Nat.lt_or_ge lo c with hc | hc
      · have := hhigh c hc
        rw [abs_of_nonpos (by linarith : r - (magValue c : ℝ) ≤ 0)]
        exact ⟨by linarith, fun he => by linarith⟩
      · have := hlow c hc
        rw [abs_of_nonneg (by linarith : (0 : ℝ) ≤ r - magValue c)]
        exact ⟨by linarith, fun he hne => absurd (hinj c lo (by linarith)) hne⟩
  · have hge : (magValue lo + magValue (lo + 1) : ℝ) ≤ 2 * r := by
      have := (hmid (magValue lo + magValue (lo + 1))).mp (by omega)
      push_cast at this; linarith
    have hinf_iff : lo + 1 = infMag → ((magValue (infMag - 1) + magValue infMag : Nat) : ℝ) ≤ 2 * r := by
      intro hl; rw [hpred hl, ← hl]; push_cast; exact hge
    by_cases c2 : num * 2 ^ k = (magValue lo + magValue (lo + 1)) ^ k * den
    · have heq : 2 * r = magValue lo + magValue (lo + 1) := by
        have h5 : (((magValue lo + magValue (lo + 1) : Nat) : ℝ)) ^ k * den = (2 * r) ^ k * den := by
          rw [h2r, c2]; push_cast; ring
        have hd' : (den : ℝ) ≠ 0 := by exact_mod_cast hd.ne'
        have h6 := mul_right_cancel₀ hd' h5
        have h7 := (pow_left_inj₀ (Nat.cast_nonneg _) (by linarith) hk).mp h6
        push_cast at h7; linarith
      simp only [if_neg c1, if_pos c2]
      refine ⟨by omega, ⟨fun he => hinf_iff (by omega), fun hh => ?_⟩, fun _ c _ => ⟨?_, fun _ _ => by omega⟩⟩
      · have hl := hbound hh; omega
      · have hdist : |r - (magValue (lo + lo % 2) : ℝ)| = r - magValue lo := by
          rcases Nat.mod_two_eq_zero_or_one lo with e | e
          · rw [e, Nat.add_zero, abs_of_nonneg (by linarith)]
          · rw [e, abs_of_nonpos (by linarith)]; linarith
        rw [hdist]
        rcases Nat.lt_or_ge lo c with hc | hc
        · have := hhigh c hc
          rw [abs_of_nonpos (by linarith : r - (magValue c : ℝ) ≤ 0)]; linarith
        · have := hlow c hc
          rw [abs_of_nonneg (by linarith : (0 : ℝ) ≤ r - magValue c)]; linarith
    · have hgt : (magValue lo + magValue (lo + 1) : ℝ) < 2 * r := by
        refine lt_of_le_of_ne hge fun he => c2 ?_
        have : (num * 2 ^ k : Nat) = ((magValue lo + magValue (lo + 1)) ^ k * den : ℝ) := by
          rw [← h2r, ← he]
        exact_mod_cast this
      simp only [if_neg c1, if_neg c2]
      refine ⟨by omega, ⟨fun he => hinf_iff he, fun hh => hbound hh⟩, fun hl c _ => ?_⟩
      have hrb := hb hl
      rw [abs_of_nonpos (by linarith : r - (magValue (lo + 1) : ℝ) ≤ 0)]
      rcases Nat.lt_or_ge lo c with hc | hc
      · have := hhigh c hc
        rw [abs_of_nonpos (by linarith : r - (magValue c : ℝ) ≤ 0)]
        exact ⟨by linarith, fun he hne => absurd (hinj c (lo + 1) (by linarith)) hne⟩
      · have := hlow c hc
        rw [abs_of_nonneg (by linarith : (0 : ℝ) ≤ r - magValue c)]
        exact ⟨by linarith, fun he => by linarith⟩

/-- Rounding does not pass a finite magnitude that the number is not above. -/
theorem roundRoot_le {k num den m : Nat} {r : ℝ} (hk : k ≠ 0) (hd : 0 < den) (hr : 0 ≤ r) (h : r ^ k * den = num)
    (hm : m < infMag) (hrm : r ≤ magValue m) : roundRoot k num den ≤ m := by
  obtain ⟨hle, hinf, hnear⟩ := roundRoot_spec hk hd hr h
  by_contra hcon
  have hlt : (magValue m : ℝ) < magValue (roundRoot k num den) := by
    exact_mod_cast magValue_strictMono (not_le.mp hcon)
  rcases lt_or_eq_of_le hle with hfin | heq
  · have := (hnear hfin m hm).1
    rw [abs_of_nonpos (by linarith), abs_of_nonpos (by linarith)] at this
    linarith
  · have h1 := hinf.mp heq
    have h2 : (magValue m : ℝ) ≤ magValue (infMag - 1) := by exact_mod_cast magValue_le_iff.mpr (by omega)
    have h3 : (magValue (infMag - 1) : ℝ) < magValue infMag := by
      exact_mod_cast magValue_strictMono (show infMag - 1 < infMag by decide)
    push_cast at h1
    linarith

/-- Rounding does not pass a finite magnitude that the number is not below. -/
theorem le_roundRoot {k num den m : Nat} {r : ℝ} (hk : k ≠ 0) (hd : 0 < den) (hr : 0 ≤ r) (h : r ^ k * den = num)
    (hm : m < infMag) (hrm : magValue m ≤ r) : m ≤ roundRoot k num den := by
  obtain ⟨hle, -, hnear⟩ := roundRoot_spec hk hd hr h
  by_contra hcon
  have hlt : (magValue (roundRoot k num den) : ℝ) < magValue m := by
    exact_mod_cast magValue_strictMono (not_le.mp hcon)
  have := (hnear (by omega) m hm).1
  rw [abs_of_nonneg (by linarith), abs_of_nonneg (by linarith)] at this
  linarith

/-- A representable number is its own rounding. -/
theorem roundRoot_exact {k den m : Nat} (hk : k ≠ 0) (hd : 0 < den) (hm : m < infMag) :
    roundRoot k (magValue m ^ k * den) den = m :=
  have h : ((magValue m : ℝ)) ^ k * den = ((magValue m ^ k * den : Nat) : ℝ) := by push_cast; rfl
  le_antisymm (roundRoot_le hk hd (Nat.cast_nonneg _) h hm le_rfl)
    (le_roundRoot hk hd (Nat.cast_nonneg _) h hm le_rfl)

/-! ### Signs and magnitudes -/

theorem one_shl_63 : (1 <<< 63 : Nat) = 2 ^ 63 := by decide

theorem toNat_ofSignMag {neg : Bool} {m : Nat} (h : m < 2 ^ 63) :
    (ofSignMag neg m).toNat = (if neg then 2 ^ 63 else 0) + m := by
  unfold ofSignMag
  rw [BitVec.toNat_ofNat, one_shl_63]
  apply Nat.mod_eq_of_lt
  split <;> omega

@[simp] theorem magnitude_ofSignMag {neg : Bool} {m : Nat} (h : m < 2 ^ 63) : magnitude (ofSignMag neg m) = m := by
  unfold magnitude
  rw [toNat_ofSignMag h, one_shl_63]
  split <;> omega

@[simp] theorem signBit_ofSignMag {neg : Bool} {m : Nat} (h : m < 2 ^ 63) : signBit (ofSignMag neg m) = neg := by
  unfold signBit
  rw [BitVec.getLsbD, toNat_ofSignMag h]
  cases neg
  · simpa using Nat.testBit_lt_two_pow h
  · rw [if_pos rfl, Nat.testBit_two_pow_add_eq, Nat.testBit_lt_two_pow h]; rfl

theorem getLsbD_zero_ofSignMag {neg : Bool} {m : Nat} (h : m < 2 ^ 63) :
    (ofSignMag neg m).getLsbD 0 = decide (m % 2 = 1) := by
  rw [BitVec.getLsbD, toNat_ofSignMag h, Nat.testBit_zero]
  congr 1
  split
  · simp; omega
  · simp

theorem magnitude_lt (x : F64) : magnitude x < 2 ^ 63 := by
  unfold magnitude; rw [one_shl_63]; exact Nat.mod_lt _ (by decide)

/-- A value is its sign and its magnitude. -/
theorem ofSignMag_self (x : F64) : ofSignMag (signBit x) (magnitude x) = x := by
  apply BitVec.eq_of_toNat_eq
  rw [toNat_ofSignMag (magnitude_lt x)]
  unfold magnitude signBit
  rw [one_shl_63, BitVec.getLsbD, Nat.testBit_eq_decide_div_mod_eq]
  have := x.isLt
  by_cases h : x.toNat / 2 ^ 63 % 2 = 1
  · rw [if_pos (by simpa using h)]; omega
  · rw [if_neg (by simpa using h)]; omega

theorem value_eq (x : F64) :
    ((value x : ℚ) : ℝ) = (if signBit x then -1 else 1) * ((magValue (magnitude x) : ℝ) / 2 ^ 1074) := by
  unfold value finiteValue
  split <;> push_cast <;> ring

theorem infBound :
    (((magValue (infMag - 1) + magValue infMag : Nat) : ℝ)) = 2 * ((2 : ℝ) ^ 1024 * (1 - 1 / 2 ^ 54) * 2 ^ 1074) := by
  have h1 : magValue (infMag - 1) + magValue infMag = 2 ^ 2099 - 2 ^ 2045 := by
    rw [show (2 ^ 2099 : Nat) = 1 <<< 2099 from (Nat.one_shiftLeft _).symm,
      show (2 ^ 2045 : Nat) = 1 <<< 2045 from (Nat.one_shiftLeft _).symm]
    decide
  have h2 : (2 : Nat) ^ 2045 ≤ 2 ^ 2099 := Nat.pow_le_pow_right (by decide) (by decide)
  rw [h1, Nat.cast_sub h2]
  push_cast
  have e1 : (2 : ℝ) ^ 2099 = 2 * (2 ^ 1024 * 2 ^ 1074) := by rw [← pow_add, ← pow_succ']
  have e2 : (2 : ℝ) ^ 2045 * 2 ^ 54 = 2 * (2 ^ 1024 * 2 ^ 1074) := by
    rw [← e1, ← pow_add]
  have e3 : (2 : ℝ) ^ 54 ≠ 0 := by positivity
  have e4 : (2 : ℝ) ^ 2045 = 2 * (2 ^ 1024 * 2 ^ 1074) / 2 ^ 54 := by
    rw [← e2]; field_simp
  rw [e1, e4]
  ring

/-- `roundRoot`, with its sign, is round64 (R11) of the signed real number it is given. -/
theorem roundsTo_roundRoot {k num den : Nat} {r : ℝ} (neg : Bool) (hk : k ≠ 0) (hd : 0 < den) (hr : 0 ≤ r)
    (h : (r * 2 ^ 1074) ^ k * den = num) (hneg : neg = true → 0 < r) :
    RoundsTo (if neg then -r else r) (ofSignMag neg (roundRoot k num den)) := by
  have hu : (0 : ℝ) < 2 ^ 1074 := by positivity
  obtain ⟨hle, hinf, hnear⟩ := roundRoot_spec hk hd (mul_nonneg hr hu.le) h
  generalize roundRoot k num den = m at *
  have hm : m < 2 ^ 63 := lt_of_le_of_lt hle (by decide)
  have habs : |if neg then -r else r| = r := by cases neg <;> simp [abs_of_nonneg hr]
  refine ⟨by simp [isNaN, magnitude_ofSignMag hm, hle], ?_, ?_, ?_⟩
  · rw [signBit_ofSignMag hm]
    cases neg
    · simp [hr]
    · simpa using hneg rfl
  · rw [habs]
    unfold isInf
    rw [magnitude_ofSignMag hm, beq_iff_eq, hinf, infBound]
    constructor
    · intro h1
      exact le_of_mul_le_mul_right (le_of_mul_le_mul_left h1 (by norm_num)) hu
    · intro h1
      exact mul_le_mul_of_nonneg_left (mul_le_mul_of_nonneg_right h1 hu.le) (by norm_num)
  · intro hfin y hy
    unfold isFinite at hfin hy
    rw [magnitude_ofSignMag hm, decide_eq_true_eq] at hfin
    rw [decide_eq_true_eq] at hy
    obtain ⟨h1, h2⟩ := hnear hfin _ hy
    have hsc : ∀ v : ℝ, |r - v / 2 ^ 1074| = |r * 2 ^ 1074 - v| / 2 ^ 1074 := by
      intro v
      rw [← abs_of_pos hu, ← abs_div, abs_of_pos hu]
      congr 1
      field_simp
    have hx : |(if neg then -r else r) - ((value (ofSignMag neg m) : ℚ) : ℝ)| =
        |r * 2 ^ 1074 - magValue m| / 2 ^ 1074 := by
      rw [value_eq, signBit_ofSignMag hm, magnitude_ofSignMag hm, ← hsc]
      cases neg
      · simp
      · rw [← abs_neg]; congr 1; simp; ring
    generalize hc : magnitude y = c at *
    have hy' : |r * 2 ^ 1074 - magValue c| / 2 ^ 1074 ≤ |(if neg then -r else r) - ((value y : ℚ) : ℝ)| ∧
        (|(if neg then -r else r) - ((value y : ℚ) : ℝ)| = |r * 2 ^ 1074 - magValue c| / 2 ^ 1074 →
          signBit y = neg ∨ r = 0 ∨ magValue c = 0) := by
      rw [value_eq, hc, ← hsc]
      have hv : (0 : ℝ) ≤ (magValue c : ℝ) / 2 ^ 1074 := by positivity
      have hz : (magValue c : ℝ) / 2 ^ 1074 = 0 → magValue c = 0 := fun e => by
        have : (magValue c : ℝ) = 0 := by
          rcases div_eq_zero_iff.mp e with e | e
          · exact e
          · exact absurd e hu.ne'
        exact_mod_cast this
      generalize (magValue c : ℝ) / 2 ^ 1074 = v at *
      by_cases hs : signBit y = neg
      · refine ⟨le_of_eq ?_, fun _ => Or.inl hs⟩
        rw [hs]
        cases neg
        · simp
        · rw [← abs_neg]; congr 1; simp; ring
      · have e : |(if neg then -r else r) - (if signBit y then -1 else 1) * v| = r + v := by
          cases neg
          · have : signBit y = true := by simpa using hs
            simp only [this, if_true, Bool.false_eq_true, if_false]
            rw [abs_of_nonneg (by linarith)]; ring
          · have : signBit y = false := by simpa using hs
            simp only [this, if_true, Bool.false_eq_true, if_false]
            rw [abs_of_nonpos (by linarith)]; ring
        rw [e]
        refine ⟨abs_le.mpr ⟨by linarith, by linarith⟩, fun he => Or.inr ?_⟩
        rcases le_total r v with h3 | h3
        · rw [abs_of_nonpos (by linarith)] at he; left; linarith
        · rw [abs_of_nonneg (by linarith)] at he; right; exact hz (by linarith)
    rw [hx]
    refine ⟨le_trans ((div_le_div_iff_of_pos_right hu).mpr h1) hy'.1, fun he hne => ?_⟩
    have hle2 : |r * 2 ^ 1074 - magValue m| / 2 ^ 1074 ≤ |r * 2 ^ 1074 - magValue c| / 2 ^ 1074 :=
      (div_le_div_iff_of_pos_right hu).mpr h1
    have hall : |r * 2 ^ 1074 - magValue m| = |r * 2 ^ 1074 - magValue c| := by
      have h5 : |r * 2 ^ 1074 - magValue m| / 2 ^ 1074 = |r * 2 ^ 1074 - magValue c| / 2 ^ 1074 :=
        le_antisymm hle2 (by rw [he]; exact hy'.1)
      exact (div_left_inj' hu.ne').mp h5
    have hcase := hy'.2 (by rw [← he, hall])
    rw [getLsbD_zero_ofSignMag hm, decide_eq_false_iff_not]
    have hcm : c ≠ m := by
      intro hcm
      subst hcm
      rcases hcase with hs | hr0 | hz
      · apply hne
        have : y = ofSignMag neg c := by rw [← ofSignMag_self y, hs, hc]
        rw [this]
      · subst hr0
        have h6 := (hnear hfin 0 (by decide)).1
        rw [magValue_zero] at h6
        simp only [zero_mul, zero_sub, abs_neg, Nat.cast_zero, neg_zero, abs_zero, Nat.abs_cast] at h6
        have h7 : magValue c = 0 := by exact_mod_cast le_antisymm h6 (Nat.cast_nonneg _)
        apply hne
        have hq : ∀ z : F64, magValue (magnitude z) = 0 → value z = 0 := by
          intro z hz; unfold value finiteValue; simp [hz]
        rw [hq _ (by rw [magnitude_ofSignMag hm]; exact h7), hq y (by rw [hc]; exact h7)]
      · apply hne
        have hq : ∀ z : F64, magValue (magnitude z) = 0 → value z = 0 := by
          intro z hz; unfold value finiteValue; simp [hz]
        rw [hq _ (by rw [magnitude_ofSignMag hm]; exact hz), hq y (by rw [hc]; exact hz)]
    have := h2 hall hcm
    omega

end Sys2Proof.Machine
end

