-- ==== Sys2Proof/Tests/Slice0.lean ====
section
/-! SUPPORT. Tests of single steps, their expected results taken from spec/95_test_vectors.md or worked out by hand from
the cited rule, and, for every statement with hypotheses, a state and operands that meet them. -/

set_option Elab.async false

namespace Sys2Proof.Tests

open Sys2Proof.Machine Sys2Proof.Safety Sys2Proof.Claims

/-! ### Well-formedness (spec/00_scope.md R7) -/

theorem test_params_default : Params.default.wellFormed = true := by decide
theorem test_params_smallest : Params.wellFormed { base := 0x00200000, bitCap := 32, sampCap := 2 } = true := by decide
theorem test_params_base : Params.wellFormed { base := 0x00100000, bitCap := 32, sampCap := 2 } = false := by decide
theorem test_params_bitCap_multiple : Params.wellFormed { base := 0, bitCap := 48, sampCap := 2 } = false := by decide
theorem test_params_bitCap_least : Params.wellFormed { base := 0, bitCap := 0, sampCap := 2 } = false := by decide
theorem test_params_bitCap_most : Params.wellFormed { base := 0, bitCap := 65568, sampCap := 2 } = false := by decide
theorem test_params_sampCap_even : Params.wellFormed { base := 0, bitCap := 32, sampCap := 3 } = false := by decide
theorem test_params_sampCap_least : Params.wellFormed { base := 0, bitCap := 32, sampCap := 0 } = false := by decide
theorem test_params_sampCap_most : Params.wellFormed { base := 0, bitCap := 32, sampCap := 65538 } = false := by decide

/-! ### Decoding: words written out from spec/30_encoding.md R91 and R93 -/

/-- RSV 0, SB 0, SA 0, BB 0, BA 0, OPC 0. -/
theorem test_decode_nop : decode 0b0000000000000000000000_0_0_00_00_0000 = .ok .nop := by decide
/-- BB 01 (CODED), BA 00 (SRC), OPC 1. -/
theorem test_decode_menc : decode 0b0000000000000000000000_0_0_01_00_0001 = .ok (.menc .src .coded) := by decide
/-- BB 11 (RECOV), BA 10 (DEMOD), OPC 2. -/
theorem test_decode_mdec : decode 0b0000000000000000000000_0_0_11_10_0010 = .ok (.mdec .demod .recov) := by decide
/-- SB 1 (RX), BA 01 (CODED), OPC 3. -/
theorem test_decode_bmod : decode 0b0000000000000000000000_1_0_00_01_0011 = .ok (.bmod .coded .rx) := by decide
/-- SA 1 (RX), BB 10 (DEMOD), OPC 4. -/
theorem test_decode_bdem : decode 0b0000000000000000000000_0_1_10_00_0100 = .ok (.bdem .rx .demod) := by decide
/-- SB 0 (SIG), BA 01 (CODED), OPC 5. -/
theorem test_decode_qmod : decode 0b0000000000000000000000_0_0_00_01_0101 = .ok (.qmod .coded .sig) := by decide
/-- SA 1 (RX), BB 11 (RECOV), OPC 6. -/
theorem test_decode_qdem : decode 0b0000000000000000000000_0_1_11_00_0110 = .ok (.qdem .rx .recov) := by decide
/-- SB 1 (RX), SA 0 (SIG), OPC 7. -/
theorem test_decode_awgn : decode 0b0000000000000000000000_1_0_00_00_0111 = .ok (.awgn .sig .rx) := by decide
/-- BB 11 (RECOV), BA 00 (SRC), OPC 8. -/
theorem test_decode_berc : decode 0b0000000000000000000000_0_0_11_00_1000 = .ok (.berc .src .recov) := by decide
/-- OPC 9. -/
theorem test_decode_seed : decode 0b0000000000000000000000_0_0_00_00_1001 = .ok .seed := by decide
/-- OPC 0xA. -/
theorem test_decode_clr : decode 0b0000000000000000000000_0_0_00_00_1010 = .ok .clr := by decide
/-- OPC 0xF is no command (R95). -/
theorem test_decode_reserved : decode 0x0000000F = .error .reservedOpcode := by decide
/-- NOP with a 1 in BA (R94). -/
theorem test_decode_unused : decode 0x00000010 = .error .unusedField := by decide
/-- Bit 10 is in RSV (R91). -/
theorem test_decode_rsv : decode 0x00000400 = .error .reservedField := by decide
/-- The host's reader (R90: one word of 32 bits). -/
theorem test_decodeTableWord : decodeTableWord 32 0x307 = some (.awgn .rx .rx) ∧ decodeTableWord 32 0x0B = none := by
  decide

/-! ### States for the tests -/

/-- A core with 32-bit buffers and 4 sample words, after reset. -/
def machine : State := { State.reset with params := { base := 0, bitCap := 32, sampCap := 4 } }

/-- `machine` with a bit string in `b`. -/
def holding (b : BitSel) (xs : List Bool) : State := machine.putBits b xs

/-- `machine` with a signal in `p`. -/
def carrying (p : SampSel) (xs : List F64) (symbols : Nat) (h : Shape) : State := machine.putSamples p xs symbols h

/-- A state whose generator draws `g0`, `g1`, … -/
def drawing (draws : List F64) (s : State) : State := { s with gen := { origin := .given draws, taken := 0 } }

/-- A state with the length register of `b` written, its cells as they are. -/
def withLen (b : BitSel) (n : Word) : State := machine.setBitBuf b { machine.bitBuf b with len := n }

/-- A state with the length and shape registers of `p` written. -/
def withSymbols (p : SampSel) (n : Word) (h : Shape) : State :=
  machine.setSampBuf p { machine.sampBuf p with len := n, shape := h }

/-- A state in which the command word `w` is pending. -/
def pendingOn (w : Word) : State := acceptCommand w machine

/-- Where one step leads; `machine` itself if it stops (no step does). -/
def afterStep (s : State) : State :=
  match step s with
  | .next t => t
  | .fault _ => machine
  | .refused _ => machine

/-- What the word `w` does to `s`, from acceptance to completion. -/
def perform (w : Nat) (s : State) : State := afterStep (s.withFetchWord 32 w)

/-! ### One step each: the vectors of spec/95_test_vectors.md -/

/-- NOP: only the frame (R169, R166). -/
theorem test_nop : perform 0x0 machine = { machine with status := { machine.status with done := true } } := by
  decide +kernel
/-- V-ME-6: in place. -/
theorem test_menc_in_place : (perform 0x1 (holding .src [true, false])).bits .src = [true, false, false, true] := by
  decide +kernel
/-- V-ME-8, for this capacity. -/
theorem test_menc_dstCap : (perform 0x41 (withLen .src 17)).statusWord = 0x406 := by decide +kernel
/-- V-MD-5: the odd bit is dropped. -/
theorem test_mdec_odd : (perform 0xE2 (holding .demod [true, false, true])).bits .recov = [true] := by decide +kernel
/-- V-MD-2: "00" and "11" both give 0, without an error. -/
theorem test_mdec_no_transition : (perform 0xE2 (holding .demod [false, false, true, true])).bits .recov = [false, false]
    ∧ (perform 0xE2 (holding .demod [false, false, true, true])).statusWord = 0x2 := by decide +kernel
/-- V-BM-1. -/
theorem test_bmod : (perform 0x13 (holding .coded [false, true, true, false])).signal .sig =
    [0xBFF0000000000000, 0x3FF0000000000000, 0x3FF0000000000000, 0xBFF0000000000000] := by decide +kernel
/-- V-BM-4, for this capacity. -/
theorem test_bmod_dstCap : (perform 0x13 (withLen .coded 5)).statusWord = 0x406
    ∧ (perform 0x13 (withLen .coded 5)).status.errInfo = 0x13 := by decide +kernel
/-- V-BD-2, its first four samples: +0.0, -0.0, NaN, +inf. -/
theorem test_bdem : (perform 0x184
    (carrying .rx [0, 0x8000000000000000, 0x7FF8000000000000, 0x7FF0000000000000] 4 .scalar)).bits .demod =
    [false, false, false, true] := by decide +kernel
/-- V-BD-4: the wrong shape. -/
theorem test_bdem_shape : (perform 0x184 (withSymbols .rx 2 .pair)).statusWord = 0x306 := by decide +kernel
/-- V-QM-3: the pad. -/
theorem test_qmod_pad : (perform 0x15 (holding .coded [true])).signal .sig = [0xBFF0000000000000, 0x3FF0000000000000]
    ∧ (perform 0x15 (holding .coded [true])).symbols .sig = 1 := by decide +kernel
/-- V-QM-2: "11". -/
theorem test_qmod_ones : (perform 0x15 (holding .coded [true, true])).signal .sig =
    [0xBFF0000000000000, 0xBFF0000000000000] := by decide +kernel
/-- V-QD-1. -/
theorem test_qdem : (perform 0x186
    (carrying .rx [0x3FD3333333333333, 0xBFD3333333333333, 0, 0x3FF8000000000000] 2 .pair)).bits .demod =
    [false, true, true, false] := by decide +kernel
/-- V-QD-5, for this capacity: the shape comes before the destination. -/
theorem test_qdem_shape_first : (perform 0x186 (withSymbols .rx 4 .scalar)).statusWord = 0x306 := by decide +kernel
/-- V-AW-3: sigma, and the two samples with their noise. -/
theorem test_awgn :
    let t := perform 0x207 (drawing [0x3FE0000000000000, 0xBFD0000000000000] (carrying .sig [plusOne, minusOne] 2 .scalar))
    t.results.sigma = 0x3FE6A09E667F3BCD ∧ t.signal .rx = [0x3FF5A827999FCEF3, 0xBFF2D413CCCFE77A] := by decide +kernel
/-- V-AW-1, at -128 dB for BPSK and at 127 dB for QPSK. -/
theorem test_awgn_sigma : (awgnScale [plusOne] 1 (-128)).2 = 0x413B1A2BEDE60232 ∧
    (awgnScale [plusOne, minusOne] 1 127).2 = 0x3E9DF9F736CA784B := by decide +kernel
/-- V-BE-6. -/
theorem test_berc : (perform 0xC8 ((holding .src [true, false, true, true, false]).putBits .recov
    [false, false, true, true, true])).results.ber = 0x3FD999999999999A := by decide +kernel
/-- V-BE-2: the longer operand is cut. -/
theorem test_berc_cut :
    let t := perform 0xC8 ((holding .src [true, false, true, true]).putBits .recov [true, false, false])
    t.results.errCnt = 1 ∧ t.results.cmpLen = 3 ∧ t.results.ber = 0x3FD5555555555555 := by decide +kernel
/-- V-SD-1. -/
theorem test_seed : (perform 0x9 { machine with seedLo := 0x2A }).gen = gseed 42 := by decide +kernel
/-- R168: the cells stay. -/
theorem test_clr : (perform 0xA (holding .src [true])).src = { cells := [(0, true)], len := 0 } := by decide +kernel

/-! ### The bus and the errors -/

/-- V-ER-2: two illegal words. -/
theorem test_illegal_twice : (perform 0xC (perform 0xB machine)).statusWord = 0x10E := by decide +kernel
/-- V-ER-5: a guarded write while a command is pending. -/
theorem test_busy : (hostWrite 0x030 5 (pendingOn 0x0)).statusWord = 0x505
    ∧ (hostWrite 0x030 5 (pendingOn 0x0)).status.errInfo = 0x30 := by decide +kernel
/-- R64: the first cell is the most significant bit of the word. -/
theorem test_bit_window : (hostWrite 0x010000 0x80000001 machine).bitCell .src 0 = true
    ∧ (hostWrite 0x010000 0x80000001 machine).bitCell .src 31 = true
    ∧ (hostWrite 0x010000 0x80000001 machine).bitCell .src 1 = false := by decide +kernel
/-- R66: the low half comes first. -/
theorem test_samp_window :
    (hostWrite 0x100004 0x3FF00000 (hostWrite 0x100000 0x00000001 machine)).sampWord .rx 0 = 0x3FF0000000000001 := by
  decide +kernel
/-- R97: case does not matter, blanks around operands neither. -/
theorem test_assemble : assemble ['m', 'e', 'n', 'c', ' ', 'S', 'r', 'c', ',', ' ', 'c', 'o', 'd', 'e', 'd'] =
    some (.menc .src .coded) := by decide +kernel
/-- V-SRC-1: the text "HI". -/
theorem test_textToBits : textToBits ['H', 'I'] = .ok
    [false, true, false, false, true, false, false, false, false, true, false, false, true, false, false, true] := by
  decide +kernel
/-- V-SRC-7: what the sweeps (0, 9, 5) and (3, 3, 1) visit, and a descriptor that is rejected. -/
theorem test_sweep_values : Sweep.values ⟨0, 9, 5⟩ = [0, 5] ∧ Sweep.values ⟨3, 3, 1⟩ = [3] ∧
    Sweep.accepted ⟨0, 10, 0⟩ = false ∧ Sweep.accepted ⟨-130, 0, 10⟩ = false := by decide +kernel
/-- R184, V-SRC-2: the empty message gives BER +0.0 for every SNR, and `run` returns empty bits and an empty signal
(R182), however often the host polls. -/
theorem test_hostRun_empty : hostRun [] .bpsk (fun k => k % 2) ⟨0, 1, 1⟩ machine =
    { error := none, series := [(0, 0), (1, 0)]
      outputs := some { src := [], coded := [], shape := .scalar, signal := [] } } := by decide +kernel
/-- V-SRC-7: min_db above max_db runs nothing and returns an empty series beside the error (R183). -/
theorem test_hostRun_rejected : hostRun [] .bpsk (fun _ => 0) ⟨5, 0, 1⟩ machine =
    { error := some .configuration, series := [], outputs := none } := by decide +kernel
/-- R182, Done: the bits of SRC and CODED and the signal of SIG of the message "U", coded by R110 and modulated by R130. -/
theorem test_hostRun_outputs :
    (hostRun ['U'] .qpsk (fun _ => 1) ⟨7, 7, 1⟩ { State.reset with params := { base := 0, bitCap := 32, sampCap := 16 } }).outputs
      = some
        { src := [false, true, false, true, false, true, false, true]
          coded := [false, true, true, false, false, true, true, false, false, true, true, false, false, true, true, false]
          shape := .pair
          signal := [plusOne, minusOne, minusOne, plusOne, plusOne, minusOne, minusOne, plusOne, plusOne, minusOne, minusOne,
            plusOne, plusOne, minusOne, minusOne, plusOne] } := by decide +kernel

/-! ### Witnesses: the statements' hypotheses are met -/

theorem witness_DecodeFollowsTheOpcodeMap : ((0x00000007, 0xFFFFFCFF) : Word × Word) ∈ opcodeRows ∧
    (0x00000307 : Word) &&& 0xFFFFFCFF = 0x00000007 := by decide
theorem witness_UnusedFieldsMustBeZero : (0x0000001A : Word).toNat % 16 ≤ 0xA ∧
    (0x0000001A : Word) &&& (0xFFFFFC00 ||| unusedFields 0xA) ≠ 0 := by decide
theorem witness_CoreTurn_quiet : (pendingOn 0x9).pend = true ∧ decode (pendingOn 0x9).pcmd = .ok .seed ∧
    (pendingOn 0x9).inputs = [] ∧
    exec .seed (pendingOn 0x9) = .next { pendingOn 0x9 with gen := gseed 0 } :=
  ⟨by decide, by decide, by decide, rfl⟩
theorem witness_CoreTurn_turn : ({ pendingOn 0x9 with inputs := [.coreTurn, .reset] } : State).pend = true ∧
    exec .seed { pendingOn 0x9 with inputs := [.reset] } =
      .next { pendingOn 0x9 with inputs := [.reset], gen := gseed 0 } := ⟨by decide, rfl⟩
theorem witness_CoreTurn_events : ({ machine with inputs := [.write 0x014 0x41] } : State).inputs = .write 0x014 0x41 :: [] ∧
    ({ machine with inputs := [.read 0x010] } : State).inputs = .read 0x010 :: [] ∧
    ({ machine with inputs := [.coreTurn] } : State).inputs = .coreTurn :: [] ∧
    ({ machine with inputs := [.coreTurn] } : State).pend = false := by decide
theorem witness_PlacedWord : (0x9 : Nat) < 2 ^ 32 ∧ decode (BitVec.ofNat 32 0x9) = .ok .seed ∧
    exec .seed (pendingOn 0x9) = .next { pendingOn 0x9 with gen := gseed 0 } := ⟨by decide, by decide, rfl⟩
theorem witness_IllegalWord_opcode : (pendingOn 0xB).pend = true ∧ IllegalWord (pendingOn 0xB).pcmd ∧
    (pendingOn 0xB).inputs = [] := ⟨by decide, .inl (by decide), by decide⟩
theorem witness_IllegalWord_field : IllegalWord (pendingOn 0x400).pcmd := .inr (by decide)
theorem witness_EveryStepAnswers : machine.pend = false ∧ machine.inputs = [] := by decide
theorem witness_EveryStepKeepsTheInvariant : Inv (pendingOn 0x41) ∧
    step (pendingOn 0x41) = .next (afterStep (pendingOn 0x41)) :=
  ⟨⟨by decide, by decide, by decide, by decide, by decide⟩, rfl⟩
theorem witness_PendingCommandIsPerformed : (pendingOn 0x41).pend = true ∧ HostEvent.reset ∉ (pendingOn 0x41).inputs ∧
    HostEvent.reset ∉ ({ pendingOn 0x41 with inputs := [.write 0x014 0x1, .read 0x010] } : State).inputs := by decide
theorem witness_PendChanges_accept : machine.pend = false ∧
    (afterStep { machine with inputs := [.write 0x014 0x41] }).pend = true := by decide +kernel
theorem witness_PendChanges_clear : (pendingOn 0x0).pend = true ∧ (afterStep (pendingOn 0x0)).pend = false := by
  decide +kernel
theorem witness_PendChanges_stay : (pendingOn 0x0).pend = true ∧
    (afterStep { pendingOn 0x0 with inputs := [.write 0x014 0x41] }).pend = true := by decide +kernel
theorem witness_GeneratorChanges : step { machine with inputs := [.reset] } =
    .next (afterStep { machine with inputs := [.reset] }) ∧
    (afterStep { machine with inputs := [.reset] }).gen ≠ machine.gen := ⟨rfl, by decide +kernel⟩
theorem witness_ResetAbandons : ({ pendingOn 0x41 with inputs := [.reset] } : State).inputs = .reset :: [] := by decide

theorem witness_Menc_srcLen : (withLen .src 33).params.bitCap < (withLen .src 33).bitLen .src := by decide
theorem witness_Menc_dstCap : (withLen .src 17).bitLen .src ≤ 32 ∧ (withLen .src 17).params.bitCap = 32 ∧
    32 < 2 * (withLen .src 17).bitLen .src := by decide
theorem witness_Menc_fits : (withLen .src 16).bitLen .src ≤ (withLen .src 16).params.bitCap ∧
    2 * (withLen .src 16).bitLen .src ≤ (withLen .src 16).params.bitCap ∧
    (withLen .src 16).params.wellFormed = true := by decide
theorem witness_Mdec_fits : (withLen .src 32).bitLen .src ≤ (withLen .src 32).params.bitCap := by decide
theorem witness_Bmod_dstCap : (withLen .src 5).bitLen .src ≤ (withLen .src 5).params.bitCap ∧
    (withLen .src 5).params.sampCap < (withLen .src 5).bitLen .src := by decide
theorem witness_Bmod_fits : (withLen .src 4).bitLen .src ≤ (withLen .src 4).params.bitCap ∧
    (withLen .src 4).bitLen .src ≤ (withLen .src 4).params.sampCap ∧
    (withLen .src 4).params.wellFormed = true ∧ (withLen .src 4).bitLen .src % 2 = 0 := by decide
theorem witness_Bdem_srcLen : (withSymbols .rx 5 .scalar).params.sampCap <
    (withSymbols .rx 5 .scalar).symbols .rx * ((withSymbols .rx 5 .scalar).sampBuf .rx).shape.width := by decide
theorem witness_Bdem_shape : (withSymbols .rx 2 .pair).symbols .rx * ((withSymbols .rx 2 .pair).sampBuf .rx).shape.width
    ≤ (withSymbols .rx 2 .pair).params.sampCap ∧ ((withSymbols .rx 2 .pair).sampBuf .rx).shape = .pair := by decide

/-- A core whose sample buffers are larger than its bit buffers. -/
def wide (n : Word) (h : Shape) : State :=
  { withSymbols .rx n h with params := { base := 0, bitCap := 32, sampCap := 64 } }

theorem witness_Bdem_dstCap : (wide 33 .scalar).symbols .rx ≤ (wide 33 .scalar).params.sampCap ∧
    ((wide 33 .scalar).sampBuf .rx).shape = .scalar ∧
    (wide 33 .scalar).params.bitCap < (wide 33 .scalar).symbols .rx := by decide
theorem witness_Bdem_fits : (wide 32 .scalar).symbols .rx ≤ (wide 32 .scalar).params.sampCap ∧
    ((wide 32 .scalar).sampBuf .rx).shape = .scalar ∧
    (wide 32 .scalar).symbols .rx ≤ (wide 32 .scalar).params.bitCap := by decide
theorem witness_Qmod_dstCap : (withLen .src 5).bitLen .src ≤ (withLen .src 5).params.bitCap ∧
    (withLen .src 5).params.sampCap < 2 * (((withLen .src 5).bitLen .src + 1) / 2) := by decide
theorem witness_Qmod_fits : (withLen .src 3).bitLen .src ≤ (withLen .src 3).params.bitCap ∧
    2 * (((withLen .src 3).bitLen .src + 1) / 2) ≤ (withLen .src 3).params.sampCap ∧
    (withLen .src 3).params.wellFormed = true := by decide
theorem witness_Qdem_srcLen : (withSymbols .rx 3 .pair).params.sampCap <
    (withSymbols .rx 3 .pair).symbols .rx * ((withSymbols .rx 3 .pair).sampBuf .rx).shape.width := by decide
theorem witness_Qdem_shape : (withSymbols .rx 4 .scalar).symbols .rx *
    ((withSymbols .rx 4 .scalar).sampBuf .rx).shape.width ≤ (withSymbols .rx 4 .scalar).params.sampCap ∧
    ((withSymbols .rx 4 .scalar).sampBuf .rx).shape = .scalar := by decide
theorem witness_Qdem_dstCap : 2 * (wide 17 .pair).symbols .rx ≤ (wide 17 .pair).params.sampCap ∧
    ((wide 17 .pair).sampBuf .rx).shape = .pair ∧
    (wide 17 .pair).params.bitCap < 2 * (wide 17 .pair).symbols .rx := by decide
theorem witness_Qdem_fits : 2 * (wide 16 .pair).symbols .rx ≤ (wide 16 .pair).params.sampCap ∧
    ((wide 16 .pair).sampBuf .rx).shape = .pair ∧
    2 * (wide 16 .pair).symbols .rx ≤ (wide 16 .pair).params.bitCap := by decide
theorem witness_LengthLaws : exec (.menc .src .coded) (withLen .src 16) =
    .next ((withLen .src 16).putBits .coded (manchesterEncode ((withLen .src 16).bits .src))) := by rfl
theorem witness_LengthLaws_bmod : exec (.bmod .src .sig) (withLen .src 1) =
    .next ((withLen .src 1).putSamples .sig (((withLen .src 1).bits .src).map bpskSymbol) 1 .scalar) ∧
    exec (.qmod .src .sig) (withLen .src 1) =
    .next ((withLen .src 1).putSamples .sig ((padEven ((withLen .src 1).bits .src)).map qpskComponent) 1 .pair) ∧
    0 < (withLen .src 1).bitLen .src := ⟨rfl, rfl, by decide⟩

theorem witness_Awgn_srcLen : (withSymbols .sig 3 .pair).params.sampCap < (withSymbols .sig 3 .pair).components .sig := by
  decide
theorem witness_Awgn_empty : (withSymbols .sig 0 .pair).components .sig ≤ (withSymbols .sig 0 .pair).params.sampCap ∧
    (withSymbols .sig 0 .pair).symbols .sig = 0 := by decide
theorem witness_Awgn_fits : (withSymbols .sig 2 .pair).components .sig ≤ (withSymbols .sig 2 .pair).params.sampCap ∧
    (withSymbols .sig 2 .pair).symbols .sig ≠ 0 := by decide
theorem witness_Power_nan : (1 : Nat) ≠ 0 ∧ ∃ x ∈ [canonicalNaN], isNaN x = true :=
  ⟨by decide, _, List.mem_singleton_self _, by decide⟩
theorem witness_Power_inf : (∀ x ∈ [plusInfinity], isNaN x = false) ∧ ∃ x ∈ [plusInfinity], isInf x = true :=
  ⟨List.forall_mem_singleton.mpr (by decide), _, List.mem_singleton_self _, by decide⟩
theorem witness_Power_finite : (∀ x ∈ [plusOne], isFinite x = true) ∧ ∃ p, IsExactPower [plusOne] 1 p :=
  ⟨List.forall_mem_singleton.mpr (by decide), _, rfl⟩
theorem witness_Power_ones : (∀ x ∈ [plusOne, minusOne], x = plusOne ∨ x = minusOne) ∧
    [plusOne, minusOne].length = 2 ∧ [plusOne, minusOne].length = 2 * 1 := ⟨by simp, rfl, rfl⟩
theorem witness_ZeroPower : (∀ x ∈ [plusZero], isZero x = true) ∧ isFinite plusOne = true ∧
    isNaN plusOne = false ∧ isZero plusOne = false :=
  ⟨List.forall_mem_singleton.mpr (by decide), by decide, by decide, by decide⟩
theorem witness_NonFinite : isNaN canonicalNaN = true ∧ isNaN plusInfinity = false ∧ isZero plusZero = true ∧
    isInf plusInfinity = true ∧ signBit plusInfinity ≠ signBit minusOne := by decide +kernel
theorem witness_NoiseIsAFunction : machine.seed = ({ machine with draws := 7 } : State).seed ∧
    machine.signal .sig = ({ machine with draws := 7 } : State).signal .sig ∧
    machine.signalFits .sig = true ∧ ({ machine with draws := 7 } : State).signalFits .sig = true := by
  refine ⟨rfl, rfl, by decide, by decide⟩
theorem witness_NoiseIsAFunction_noise :
    (withSymbols .sig 2 .scalar).signal .sig = ({ withSymbols .sig 2 .scalar with draws := 7 } : State).signal .sig ∧
    (withSymbols .sig 2 .scalar).signalFits .sig = true ∧ 0 < (withSymbols .sig 2 .scalar).components .sig :=
  ⟨rfl, by decide, by decide⟩
theorem witness_NoiseFlips : isNaN minusOne = false ∧ signBit minusOne = true ∧
    magnitude plusOne ≤ magnitude minusOne := by decide

theorem value_pos {x : F64} (h : 0 < finiteValue x) : 0 < value x := by
  unfold value
  have : (0 : ℚ) < (finiteValue x : ℚ) := by exact_mod_cast h
  positivity

theorem witness_AddMul_sum : isFinite plusOne = true ∧ value plusOne + value plusOne ≠ 0 ∧
    value plusOne * value plusOne ≠ 0 := by
  have h := value_pos (x := plusOne) (by decide +kernel)
  exact ⟨by decide, by positivity, by positivity⟩
theorem witness_AddMul_zero : isFinite plusZero = true ∧ value plusZero + value plusZero = 0 ∧
    value plusZero * value plusZero = 0 := by
  have h : value plusZero = 0 := by unfold value; rw [show finiteValue plusZero = 0 by decide]; simp
  rw [h]
  exact ⟨by decide, by simp, by simp⟩
theorem witness_AddMul_special : isNaN canonicalNaN = true ∧ isInf plusInfinity = true ∧ isFinite plusOne = true ∧
    isZero plusZero = true ∧ isNaN minusOne = false ∧ isZero minusOne = false := by decide
theorem witness_FreeNaNs : isNaN 0xFFF0000000000001 = true := by decide

theorem witness_Berc_srcLen : (withLen .src 33).params.bitCap < (withLen .src 33).bitLen .src ∨
    (withLen .src 33).params.bitCap < (withLen .src 33).bitLen .recov := by decide
theorem witness_Berc_fits : (withLen .src 32).bitLen .src ≤ (withLen .src 32).params.bitCap ∧
    (withLen .src 32).bitLen .recov ≤ (withLen .src 32).params.bitCap := by decide
theorem witness_BerLies : (3 : Nat) ≤ 3 ∧ (3 : Nat) ≠ 0 := by decide
theorem witness_BercTruncates : (withLen .src 32).bitLen .recov < (withLen .src 32).bitLen .src := by decide
theorem witness_EmptyMessage : machine.bitLen .src = 0 := by decide
theorem witness_Errors : exec (.menc .src .coded) (withLen .src 33) =
    .next (recordError .srcLen (withLen .src 33).pcmd (withLen .src 33)) := by rfl
theorem witness_Errors_step : (pendingOn 0xB).pend = true ∧ coreTurn (pendingOn 0xB) =
    .next (completeCommand (recordError .illegal 0xB (pendingOn 0xB))) := ⟨by decide, rfl⟩
theorem witness_ErrorCodes_srcLen : SourceTooLong (withLen .src 33) (.mdec .src .coded) := by
  unfold SourceTooLong; decide
theorem witness_ErrorCodes_shape : ¬ SourceTooLong (withSymbols .rx 2 .pair) (.bdem .rx .demod) ∧
    WrongShape (withSymbols .rx 2 .pair) (.bdem .rx .demod) := by
  unfold SourceTooLong WrongShape; decide
theorem witness_ErrorCodes_dstCap : ¬ SourceTooLong (wide 33 .scalar) (.bdem .rx .demod) ∧
    ¬ WrongShape (wide 33 .scalar) (.bdem .rx .demod) ∧ ResultTooLarge (wide 33 .scalar) (.bdem .rx .demod) := by
  unfold SourceTooLong WrongShape ResultTooLarge; decide
theorem witness_ErrorCodes_none : ¬ SourceTooLong (wide 32 .scalar) (.bdem .rx .demod) ∧
    ¬ WrongShape (wide 32 .scalar) (.bdem .rx .demod) ∧ ¬ ResultTooLarge (wide 32 .scalar) (.bdem .rx .demod) := by
  unfold SourceTooLong WrongShape ResultTooLarge; decide

/-- The offsets of the statements about the bus, each at the ends of its ranges. -/
def someOffsets : List Nat :=
  [0x000, 0x004, 0x008, 0x00C, 0x010, 0x014, 0x018, 0x01C, 0x020, 0x024, 0x028, 0x02C, 0x030, 0x04C, 0x050, 0x06C, 0x070,
    0x00FFFC, 0x010000, 0x017FFC, 0x018000, 0x07FFFC, 0x080000, 0x17FFFC, 0x180000, 0x1FFFFC]

/-- Each of these offsets is that of some address (with BASE = 0, of itself). -/
theorem witness_AtOffset : ∀ off ∈ someOffsets, inWindow machine.params (BitVec.ofNat 32 off) = true ∧
    offsetOf machine.params (BitVec.ofNat 32 off) = off := by decide +kernel
theorem witness_CmdWrite : AtOffset machine 0x014 0x014 ∧ machine.pend = false ∧ (pendingOn 0x0).pend = true ∧
    AtOffset (pendingOn 0x0) 0x014 0x014 :=
  ⟨⟨by decide, by decide⟩, by decide, by decide, ⟨by decide, by decide⟩⟩
theorem witness_GuardedOffset : ∀ off ∈ [0x014, 0x01C, 0x020, 0x024, 0x030, 0x04C, 0x010000, 0x017FFC, 0x080000, 0x17FFFC],
    off ∈ someOffsets ∧ GuardedOffset off := by unfold GuardedOffset; decide +kernel
theorem witness_UnguardedOffset : ∀ off ∈ [0x000, 0x018, 0x028, 0x050, 0x06C, 0x00FFFC, 0x018000, 0x07FFFC, 0x180000],
    off ∈ someOffsets ∧ ¬ GuardedOffset off ∧ off ≠ 0x00C ∧ off ≠ 0x010 := by unfold GuardedOffset; decide +kernel
theorem witness_HazardousOffset : ∀ off ∈ [0x030, 0x04C, 0x050, 0x06C, 0x010000, 0x017FFC, 0x080000, 0x17FFFC],
    off ∈ someOffsets ∧ HazardousOffset off := by unfold HazardousOffset; decide +kernel
theorem witness_HarmlessOffset : ∀ off ∈ [0x000, 0x010, 0x024, 0x02C, 0x070, 0x00FFFC, 0x018000, 0x07FFFC, 0x180000],
    off ∈ someOffsets ∧ ¬ HazardousOffset off := by unfold HazardousOffset; decide +kernel
theorem witness_UnusedOffset : ∀ off ∈ [0x028, 0x02C, 0x070, 0x00FFFC, 0x018000, 0x07FFFC, 0x180000, 0x1FFFFC],
    off ∈ someOffsets ∧ UnusedOffset off := by unfold UnusedOffset; decide +kernel
theorem witness_Idempotent : machine.pend = false ∧ ¬ AtOffset machine 0x010 0x014 :=
  ⟨by decide, fun h => absurd h.2 (by decide)⟩
theorem witness_OutsideTheWindow : machine.params.base.toNat + 0x200000 ≤ (0x00200000 : Word).toNat ∧
    (0x001FFFFC : Word).toNat < ({ base := 0x00200000, bitCap := 32, sampCap := 2 } : Params).base.toNat := by decide
theorem witness_BitWindow_inside : machine.params.wellFormed = true ∧ machine.pend = false ∧ (0 : Nat) < 2048 ∧
    AtOffset machine 0x016000 (0x010000 + 0x2000 * BitSel.recov.field.toNat + 4 * 0) ∧
    32 * 0 < machine.params.bitCap := ⟨by decide, by decide, by decide, ⟨by decide, by decide⟩, by decide⟩
theorem witness_BitWindow_beyond : AtOffset machine 0x016004 (0x010000 + 0x2000 * BitSel.recov.field.toNat + 4 * 1) ∧
    machine.params.bitCap ≤ 32 * 1 ∧
    AtOffset machine 0x017FFC (0x010000 + 0x2000 * BitSel.recov.field.toNat + 4 * 2047) :=
  ⟨⟨by decide, by decide⟩, by decide, ⟨by decide, by decide⟩⟩
theorem witness_SampleWindow_inside :
    AtOffset machine 0x10001C (0x080000 + 0x080000 * SampSel.rx.field.toNat + 8 * 3 + (if true then 4 else 0)) ∧
    AtOffset machine 0x100018 (0x080000 + 0x080000 * SampSel.rx.field.toNat + 8 * 3 + (if false then 4 else 0)) ∧
    3 < machine.params.sampCap := ⟨⟨by decide, by decide⟩, ⟨by decide, by decide⟩, by decide⟩
theorem witness_SampleWindow_beyond :
    AtOffset machine 0x100020 (0x080000 + 0x080000 * SampSel.rx.field.toNat + 8 * 4 + (if false then 4 else 0)) ∧
    machine.params.sampCap ≤ 4 ∧
    AtOffset machine 0x17FFFC (0x080000 + 0x080000 * SampSel.rx.field.toNat + 8 * 65535 + (if true then 4 else 0)) :=
  ⟨⟨by decide, by decide⟩, by decide, ⟨by decide, by decide⟩⟩
theorem witness_LengthAndShape : (∀ b : BitSel, b = .recov →
      AtOffset machine 0x03C (0x030 + 4 * b.field.toNat)) ∧
    AtOffset machine 0x048 (0x040 + 8 * SampSel.rx.field.toNat) ∧
    AtOffset machine 0x04C (0x044 + 8 * SampSel.rx.field.toNat) :=
  ⟨fun _ h => h ▸ ⟨by decide, by decide⟩, ⟨by decide, by decide⟩, ⟨by decide, by decide⟩⟩

end Sys2Proof.Tests
end

/-! PROOFS. The binary64 primitives `gt0`, `fadd` and `fmul` against IEEE 754 (spec/00_scope.md R11): the classes of a
value read off its magnitude, the sign of its value, one equation per class of operands, and the rounding of a signed
number. -/

namespace Sys2Proof.Machine

open Sys2Proof.Safety

/-! ### The classes of a value -/

theorem isNaN_iff {x : F64} : isNaN x = true ↔ infMag < magnitude x := decide_eq_true_iff

theorem isInf_iff {x : F64} : isInf x = true ↔ magnitude x = infMag := beq_iff_eq

theorem isZero_iff {x : F64} : isZero x = true ↔ magnitude x = 0 := beq_iff_eq

theorem isFinite_iff {x : F64} : isFinite x = true ↔ magnitude x < infMag := decide_eq_true_iff

theorem isNaN_of_isFinite {x : F64} (h : isFinite x = true) : isNaN x = false := by
  rw [isFinite_iff] at h
  rw [Bool.eq_false_iff, Ne, isNaN_iff]
  omega

theorem isInf_of_isFinite {x : F64} (h : isFinite x = true) : isInf x = false := by
  rw [isFinite_iff] at h
  rw [Bool.eq_false_iff, Ne, isInf_iff]
  omega

theorem isNaN_of_isInf {x : F64} (h : isInf x = true) : isNaN x = false := by
  rw [isInf_iff] at h
  rw [Bool.eq_false_iff, Ne, isNaN_iff]
  omega

theorem isZero_of_isInf {x : F64} (h : isInf x = true) : isZero x = false := by
  rw [isInf_iff] at h
  rw [Bool.eq_false_iff, Ne, isZero_iff, h]
  decide

theorem isNaN_of_isZero {x : F64} (h : isZero x = true) : isNaN x = false := by
  rw [isZero_iff] at h
  rw [Bool.eq_false_iff, Ne, isNaN_iff, h]
  decide

/-- An infinity is determined by its sign. -/
theorem eq_ofSignMag_of_isInf {x : F64} (h : isInf x = true) : x = ofSignMag (signBit x) infMag := by
  conv_lhs => rw [← ofSignMag_self x, isInf_iff.mp h]

theorem eq_plusInfinity_iff {x : F64} : x = plusInfinity ↔ isInf x = true ∧ signBit x = false := by
  refine ⟨fun h => by subst h; decide, fun ⟨hinf, hsign⟩ => ?_⟩
  rw [eq_ofSignMag_of_isInf hinf, hsign]
  rfl

theorem isInf_ofSignMag_infMag (neg : Bool) : isInf (ofSignMag neg infMag) = true :=
  isInf_iff.mpr (magnitude_ofSignMag (by decide))

theorem ofSignMag_zero (neg : Bool) : ofSignMag neg 0 = if neg then 0x8000000000000000 else 0 := by
  cases neg <;> rfl

/-! ### Signs and zeros of values -/

theorem magValue_eq_zero_iff {m : Nat} : magValue m = 0 ↔ m = 0 := by
  rw [← magValue_zero, magValue_inj, magValue_zero]

theorem value_eq_zero_iff {x : F64} : value x = 0 ↔ magnitude x = 0 := by
  unfold value finiteValue
  split <;> simp [magValue_eq_zero_iff]

theorem abs_value (x : F64) : |((value x : ℚ) : ℝ)| = (magValue (magnitude x) : ℝ) / 2 ^ 1074 := by
  have h : (0 : ℝ) ≤ (magValue (magnitude x) : ℝ) / 2 ^ 1074 := by positivity
  rw [value_eq, abs_mul, abs_of_nonneg h]
  split <;> simp

theorem value_nonneg {x : F64} (h : signBit x = false) : 0 ≤ value x := by
  unfold value finiteValue
  rw [if_neg (by simp [h])]
  positivity

theorem value_nonpos {x : F64} (h : signBit x = true) : value x ≤ 0 := by
  unfold value finiteValue
  rw [if_pos h]
  push_cast
  exact div_nonpos_of_nonpos_of_nonneg (neg_nonpos.mpr (Nat.cast_nonneg _)) (by positivity)

theorem value_neg_iff {x : F64} (h0 : value x ≠ 0) : value x < 0 ↔ signBit x = true := by
  refine ⟨fun h => ?_, fun h => lt_of_le_of_ne (value_nonpos h) h0⟩
  by_contra hs
  exact absurd (value_nonneg (by simpa using hs)) (not_le.mpr h)

theorem value_pos_iff {x : F64} : 0 < value x ↔ signBit x = false ∧ isZero x = false := by
  have hz : isZero x = false ↔ value x ≠ 0 := by
    rw [Bool.eq_false_iff, Ne, isZero_iff, Ne, value_eq_zero_iff]
  rw [hz]
  refine ⟨fun h => ⟨?_, h.ne'⟩, fun ⟨hs, h0⟩ => lt_of_le_of_ne (value_nonneg hs) (Ne.symm h0)⟩
  by_contra hs
  exact absurd (value_nonpos (by simpa using hs)) (not_le.mpr h)

theorem value_add_value (x y : F64) :
    value x + value y = ((finiteValue x + finiteValue y : ℤ) : ℚ) / 2 ^ 1074 := by
  unfold value
  push_cast
  ring

theorem value_add_eq_zero_iff {x y : F64} : value x + value y = 0 ↔ finiteValue x + finiteValue y = 0 := by
  rw [value_add_value, div_eq_zero_iff, or_iff_left (by positivity), Int.cast_eq_zero]

theorem value_mul_neg_iff {x y : F64} (h0 : value x * value y ≠ 0) :
    value x * value y < 0 ↔ (signBit x != signBit y) = true := by
  obtain ⟨hx, hy⟩ := mul_ne_zero_iff.mp h0
  have hpos : ∀ {z : F64}, value z ≠ 0 → (0 < value z ↔ signBit z = false) := fun hz => by
    rw [← not_le, hz.le_iff_lt, value_neg_iff hz, Bool.not_eq_true]
  rw [mul_neg_iff, value_neg_iff hx, value_neg_iff hy, hpos hx, hpos hy]
  cases signBit x <;> cases signBit y <;> simp

/-! ### Rounding of a signed number -/

/-- `roundRoot` of the absolute value, with the number's sign, is round64 of the number. -/
theorem roundsTo_of_sign_of_abs {v : ℝ} {num den : Nat} {neg : Bool} (hd : 0 < den) (hneg : neg = true ↔ v < 0)
    (habs : |v| * 2 ^ 1074 * den = num) : RoundsTo v (ofSignMag neg (roundRoot 1 num den)) := by
  have hv : (if neg then -|v| else |v|) = v := by
    split
    case isTrue h => rw [abs_of_neg (hneg.mp h), neg_neg]
    case isFalse h => exact abs_of_nonneg (not_lt.mp (hneg.not.mp h))
  have h := roundsTo_roundRoot neg one_ne_zero hd (abs_nonneg v) (by rw [pow_one]; exact habs)
    fun hn => abs_pos.mpr (hneg.mp hn).ne
  rwa [hv] at h

/-- The rounding of an integer number of units of 2^-1074. -/
theorem roundsTo_units (i : ℤ) :
    RoundsTo ((i : ℝ) / 2 ^ 1074) (ofSignMag (decide (i < 0)) (roundRoot 1 i.natAbs 1)) := by
  have hu : (0 : ℝ) < 2 ^ 1074 := by positivity
  refine roundsTo_of_sign_of_abs one_pos ?_ ?_
  · rw [decide_eq_true_iff, div_lt_iff₀ hu, zero_mul, Int.cast_lt_zero]
  · rw [abs_div, abs_of_pos hu, div_mul_cancel₀ _ hu.ne', Nat.cast_one, mul_one, Nat.cast_natAbs, Int.cast_abs]

/-! ### The comparison -/

/-- R11, `gt0`: by the classes of `x`, of which an infinity has no further condition than its sign. -/
theorem gt0_iff {x : F64} : gt0 x = true ↔ x = plusInfinity ∨ (isFinite x = true ∧ 0 < value x) := by
  have hclass : isNaN x = false ↔ isInf x = true ∨ isFinite x = true := by
    rw [Bool.eq_false_iff, Ne, isNaN_iff, isInf_iff, isFinite_iff]
    omega
  have hgt0 : gt0 x = true ↔ signBit x = false ∧ isNaN x = false ∧ isZero x = false := by
    simp [gt0, and_assoc]
  rw [hgt0, hclass, eq_plusInfinity_iff, value_pos_iff]
  constructor
  · rintro ⟨hs, hinf | hfin, hz⟩
    · exact .inl ⟨hinf, hs⟩
    · exact .inr ⟨hfin, hs, hz⟩
  · rintro (⟨hinf, hs⟩ | ⟨hfin, hs, hz⟩)
    · exact ⟨hs, .inl hinf, isZero_of_isInf hinf⟩
    · exact ⟨hs, .inr hfin, hz⟩

/-! ### Addition by the classes of its operands -/

theorem fadd_of_isNaN {nan x y : F64} (h : isNaN x = true ∨ isNaN y = true) : fadd nan x y = nan :=
  if_pos (by simpa using h)

theorem fadd_of_isFinite {nan x y : F64} (hx : isFinite x = true) (hy : isFinite y = true) :
    fadd nan x y = if finiteValue x + finiteValue y = 0 then ofSignMag (signBit x && signBit y) 0
      else ofSignMag (decide (finiteValue x + finiteValue y < 0))
        (roundRoot 1 (finiteValue x + finiteValue y).natAbs 1) := by
  simp [fadd, isNaN_of_isFinite hx, isNaN_of_isFinite hy, isInf_of_isFinite hx, isInf_of_isFinite hy]

theorem fadd_of_isInf_left {nan x y : F64} (hx : isInf x = true) (hy : isFinite y = true) : fadd nan x y = x := by
  simp [fadd, isNaN_of_isInf hx, isNaN_of_isFinite hy, hx, isInf_of_isFinite hy]

theorem fadd_of_isInf_right {nan x y : F64} (hx : isFinite x = true) (hy : isInf y = true) : fadd nan x y = y := by
  simp [fadd, isNaN_of_isFinite hx, isNaN_of_isInf hy, isInf_of_isFinite hx, hy]

theorem fadd_of_isInf_both {nan x y : F64} (hx : isInf x = true) (hy : isInf y = true) :
    fadd nan x y = if signBit x = signBit y then x else nan := by
  by_cases hs : signBit x = signBit y
  · simp [fadd, isNaN_of_isInf hx, isNaN_of_isInf hy, hx, hs]
  · simp [fadd, isNaN_of_isInf hx, isNaN_of_isInf hy, hx, hy, hs]

theorem fadd_roundsTo {nan x y : F64} (hx : isFinite x = true) (hy : isFinite y = true)
    (h0 : value x + value y ≠ 0) : RoundsTo ((value x + value y : ℚ) : ℝ) (fadd nan x y) := by
  rw [fadd_of_isFinite hx hy, if_neg (value_add_eq_zero_iff.not.mp h0), value_add_value]
  convert roundsTo_units (finiteValue x + finiteValue y) using 1
  push_cast
  rfl

theorem fadd_of_sum_eq_zero {nan x y : F64} (hx : isFinite x = true) (hy : isFinite y = true)
    (h0 : value x + value y = 0) :
    fadd nan x y = if signBit x && signBit y then 0x8000000000000000 else 0 := by
  rw [fadd_of_isFinite hx hy, if_pos (value_add_eq_zero_iff.mp h0), ofSignMag_zero]

/-! ### Multiplication by the classes of its operands -/

theorem fmul_comm (nan x y : F64) : fmul nan x y = fmul nan y x := by
  unfold fmul
  rw [bne_comm, Bool.or_comm (isNaN x), Bool.or_comm (isInf x), Bool.or_comm (isZero x), Nat.mul_comm (magValue _)]

theorem fmul_of_isNaN {nan x y : F64} (h : isNaN x = true ∨ isNaN y = true) : fmul nan x y = nan :=
  if_pos (by simpa using h)

theorem fmul_of_isFinite {nan x y : F64} (hx : isFinite x = true) (hy : isFinite y = true) :
    fmul nan x y = ofSignMag (signBit x != signBit y)
      (roundRoot 1 (magValue (magnitude x) * magValue (magnitude y)) (2 ^ 1074)) := by
  simp [fmul, isNaN_of_isFinite hx, isNaN_of_isFinite hy, isInf_of_isFinite hx, isInf_of_isFinite hy,
    Nat.one_shiftLeft]

theorem fmul_of_isInf {nan x y : F64} (hx : isInf x = true) (hy : isNaN y = false) :
    fmul nan x y = if isZero y then nan else ofSignMag (signBit x != signBit y) infMag := by
  simp [fmul, isNaN_of_isInf hx, hy, hx, isZero_of_isInf hx]

theorem fmul_roundsTo {nan x y : F64} (hx : isFinite x = true) (hy : isFinite y = true)
    (h0 : value x * value y ≠ 0) : RoundsTo ((value x * value y : ℚ) : ℝ) (fmul nan x y) := by
  have hu : (2 : ℝ) ^ 1074 ≠ 0 := by positivity
  rw [fmul_of_isFinite hx hy]
  refine roundsTo_of_sign_of_abs (Nat.two_pow_pos _) ?_ ?_
  · rw [← value_mul_neg_iff h0, Rat.cast_lt_zero]
  · rw [Rat.cast_mul, abs_mul, abs_value, abs_value]
    push_cast
    field_simp

theorem fmul_of_product_eq_zero {nan x y : F64} (hx : isFinite x = true) (hy : isFinite y = true)
    (h0 : value x * value y = 0) :
    fmul nan x y = if signBit x != signBit y then 0x8000000000000000 else 0 := by
  have hmag : magValue (magnitude x) * magValue (magnitude y) = 0 := by
    rcases mul_eq_zero.mp h0 with h | h <;> rw [value_eq_zero_iff.mp h, magValue_zero] <;> simp
  have hround : roundRoot 1 0 (2 ^ 1074) = 0 := by
    simpa [magValue_zero] using roundRoot_exact one_ne_zero (Nat.two_pow_pos 1074) (show 0 < infMag by decide)
  rw [fmul_of_isFinite hx hy, hmag, hround, ofSignMag_zero]

theorem fmul_of_isInf_of_isZero {nan x y : F64} (hx : isInf x = true) (hy : isZero y = true) :
    fmul nan x y = nan := by
  rw [fmul_of_isInf hx (isNaN_of_isZero hy), if_pos hy]

/-- An infinity times a non-zero value is the infinity of the product's sign. -/
theorem fmul_of_isInf_of_ne_zero {nan x y : F64} (hx : isInf x = true) (hnan : isNaN y = false)
    (hzero : isZero y = false) : fmul nan x y = ofSignMag (signBit x != signBit y) infMag := by
  rw [fmul_of_isInf hx hnan, if_neg (by simp [hzero])]

/-- Settles O37: each clause is the equation of `gt0`, `fadd` or `fmul` for its class of operands; the clauses of finite
operands rest on `roundsTo_roundRoot`, with the sign of the exact sum or product. -/
theorem arithmeticAndComparisonFollowIeee754 : Obligations.ArithmeticAndComparisonFollowIeee754 := by
  refine ⟨fun x => gt0_iff, fun nan x y => ⟨fadd_roundsTo, fadd_of_sum_eq_zero, fmul_roundsTo,
    fmul_of_product_eq_zero, fun h => ⟨fadd_of_isNaN h, fmul_of_isNaN h⟩,
    fun hx hy => ⟨fadd_of_isInf_left hx hy, fadd_of_isInf_right hy hx⟩, fadd_of_isInf_both, fun hx hy => ?_,
    fun hx hnan hzero => ?_⟩⟩
  · have h := fmul_of_isInf_of_isZero (nan := nan) hx hy
    exact ⟨h, (fmul_comm nan y x).trans h⟩
  · rw [fmul_comm nan y x, fmul_of_isInf_of_ne_zero hx hnan hzero]
    exact ⟨isInf_ofSignMag_infMag _, signBit_ofSignMag (by decide), rfl⟩

end Sys2Proof.Machine

/-! PROOFS. The state of the core (spec/10_state.md): what one access of the bus does at an offset, what one step of the
machine can be, and what every step keeps. -/

namespace Sys2Proof.Machine

open Sys2Proof.Safety Sys2Proof.Claims

/-! ### Accesses by offset -/

theorem hostRead_target {s : State} {addr : Word} {off : Nat} (h : AtOffset s addr off)
    (hh : s.pend = false ∨ (targetAt off).readHazard = false) :
    hostRead addr s = { s with replies := s.replies ++ [readTarget (targetAt off) s] } := by
  obtain ⟨hw, rfl⟩ := h
  exact hostRead_plain hw (Bool.and_eq_false_iff.mpr hh)

theorem hostWrite_target {s : State} {addr : Word} {off : Nat} (v : Word) (h : AtOffset s addr off)
    (hh : s.pend = false ∨ (targetAt off).guarded = false) : hostWrite addr v s = writeTarget (targetAt off) v s := by
  obtain ⟨hw, rfl⟩ := h
  exact hostWrite_plain v hw (Bool.and_eq_false_iff.mpr hh)

theorem hostRead_reg {s : State} {addr : Word} {off : Nat} {r : Reg} (ht : targetAt off = .reg r)
    (h : AtOffset s addr off) (hh : s.pend = false ∨ r.readHazard = false) :
    hostRead addr s = { s with replies := s.replies ++ [readReg r s] } := by
  rw [hostRead_target h (by rw [ht]; exact hh), ht]
  rfl

theorem hostWrite_reg {s : State} {addr : Word} {off : Nat} {r : Reg} (v : Word) (ht : targetAt off = .reg r)
    (h : AtOffset s addr off) (hh : s.pend = false ∨ r.guarded = false) : hostWrite addr v s = writeReg r v s := by
  rw [hostWrite_target v h (by rw [ht]; exact hh), ht]
  rfl

/-- A write is outside the window, dropped while a command is pending, or performed. -/
theorem hostWrite_cases (addr v : Word) (s : State) :
    hostWrite addr v s = s ∨
    (s.pend = true ∧ ∃ info, hostWrite addr v s = recordError .busy info s) ∨
    (∃ off, AtOffset s addr off ∧ (s.pend = false ∨ (targetAt off).guarded = false) ∧
      hostWrite addr v s = writeTarget (targetAt off) v s) := by
  by_cases hw : inWindow s.params addr = true
  · by_cases hg : (s.pend && (targetAt (offsetOf s.params addr)).guarded) = true
    · exact .inr (.inl ⟨(Bool.and_eq_true_iff.mp hg).1, _, hostWrite_dropped v hw hg⟩)
    · rw [Bool.not_eq_true] at hg
      exact .inr (.inr ⟨_, ⟨hw, rfl⟩, Bool.and_eq_false_iff.mp hg, hostWrite_plain v hw hg⟩)
  · exact .inl (by simp [hostWrite, hw])

/-- A read changes nothing but the replies and the number of the next free value (R71). -/
theorem hostRead_eq (addr : Word) (s : State) :
    ∃ replies draws, hostRead addr s = { s with replies := replies, draws := draws } := by
  by_cases hw : inWindow s.params addr = true
  · by_cases hh : (s.pend && (targetAt (offsetOf s.params addr)).readHazard) = true
    · exact ⟨s.replies ++ [Config.busyReadWord s.draws], s.draws + 1, by simp [hostRead, hw, hh]⟩
    · exact ⟨_, s.draws, hostRead_plain hw (by simpa using hh)⟩
  · exact ⟨s.replies, s.draws, by simp [hostRead, hw]⟩

theorem aligned_of_atOffset {s : State} {addr : Word} {off : Nat} (h : AtOffset s addr off) : off % 4 = 0 :=
  h.2 ▸ offsetOf_aligned _ _

theorem lt_of_atOffset {s : State} {addr : Word} {off : Nat} (h : AtOffset s addr off) : off < 0x200000 :=
  h.2 ▸ offsetOf_lt _ _

/-- CMD has one offset (R27). -/
theorem off_eq_of_targetAt_cmd {s : State} {addr : Word} {off : Nat} (h : AtOffset s addr off)
    (ht : targetAt off = .reg .cmd) : off = 0x014 := by
  have hreg : ∀ k, k < 28 → regAt regMap (4 * k) = .reg .cmd → 4 * k = 0x014 := by decide
  rcases targetAt_cases (aligned_of_atOffset h) (lt_of_atOffset h) with
    ⟨k, hk, rfl, hr⟩ | ⟨-, hu⟩ | ⟨-, -, b, m, hb⟩ | ⟨-, -, p, k, hp⟩
  · exact hreg k hk (hr ▸ ht)
  · rw [hu] at ht; cases ht
  · rw [hb] at ht; cases ht
  · rw [hp] at ht; cases ht

theorem targetAt_unused {off : Nat} (h : UnusedOffset off) : targetAt off = .unmapped := by
  have hreg : ∀ {off}, off < 0x010000 → targetAt off = regAt regMap off := fun h => by rw [targetAt, if_pos h]
  rcases h with rfl | rfl | ⟨h1, h2⟩ | ⟨h1, h2⟩ | ⟨h1, h2⟩
  · rfl
  · rfl
  · rw [hreg (by omega), regAt_above h1]
  · rw [targetAt, if_neg (by omega), if_neg (by omega), if_pos (by omega)]
  · rw [targetAt, if_neg (by omega), if_neg (by omega), if_neg (by omega), if_neg (by omega)]

theorem targetAt_bitLen (b : BitSel) : targetAt (0x030 + 4 * b.field.toNat) = .reg (.bitLen b) := by cases b <;> rfl

theorem targetAt_sampLen (p : SampSel) : targetAt (0x040 + 8 * p.field.toNat) = .reg (.sampLen p) := by
  cases p <;> rfl

theorem targetAt_sampShape (p : SampSel) : targetAt (0x044 + 8 * p.field.toNat) = .reg (.sampShape p) := by
  cases p <;> rfl

/-! ### What a step can be -/

/-- The step's event, or the core's turn where there is none (log 2), and what it does. -/
theorem step_cases {s t : State} (h : step s = .next t) :
    (∃ rest, (s.inputs = [] ∨ s.inputs = .coreTurn :: rest) ∧ coreTurn { s with inputs := rest } = .next t) ∨
    (∃ addr v rest, s.inputs = .write addr v :: rest ∧ t = hostWrite addr v { s with inputs := rest }) ∨
    (∃ addr rest, s.inputs = .read addr :: rest ∧ t = hostRead addr { s with inputs := rest }) ∨
    (∃ rest, s.inputs = .reset :: rest ∧ t = resetCore { s with inputs := rest }) := by
  unfold step at h
  split at h
  case h_1 hnil => exact .inl ⟨[], .inl hnil, by rwa [← hnil]⟩
  case h_2 e rest hcons =>
    cases e with
    | write addr v => exact .inr (.inl ⟨addr, v, rest, hcons, by simpa [runEvent] using h.symm⟩)
    | read addr => exact .inr (.inr (.inl ⟨addr, rest, hcons, by simpa [runEvent] using h.symm⟩))
    | coreTurn => exact .inl ⟨rest, .inr hcons, h⟩
    | reset => exact .inr (.inr (.inr ⟨rest, hcons, by simpa [runEvent] using h.symm⟩))

/-- What the core's turn does: nothing while idle, else the end of the frame (R166) around the decoded command or around
the recording of ILLEGAL. -/
theorem coreTurn_cases {s t : State} (h : coreTurn s = .next t) :
    (s.pend = false ∧ t = s) ∨
    (s.pend = true ∧ ∃ u, t = completeCommand u ∧
      ((∃ i, decode s.pcmd = .ok i ∧ exec i s = .next u) ∨ u = recordError .illegal s.pcmd s)) := by
  unfold coreTurn at h
  split at h
  case isFalse hp => exact .inl ⟨by simpa using hp, by simpa using h.symm⟩
  case isTrue hp =>
    refine .inr ⟨hp, ?_⟩
    unfold performCommand at h
    split at h
    case h_1 i hi =>
      cases hx : exec i s with
      | next u =>
        rw [hx] at h
        exact ⟨u, by simpa [thenComplete] using h.symm, .inl ⟨i, hi, hx⟩⟩
      | fault f => cases f
      | refused r => rw [hx] at h; cases h
    case h_2 => exact ⟨_, by simpa using h.symm, .inr rfl⟩

theorem pend_eq_false_of_coreTurn {s t : State} (h : coreTurn s = .next t) : t.pend = false := by
  rcases coreTurn_cases h with ⟨hp, rfl⟩ | ⟨-, u, rfl, -⟩
  · exact hp
  · rfl

/-! ### The pending command (R42) -/

/-- PEND, PCMD and LASTCMD are as before. -/
def SamePending (s t : State) : Prop := t.pend = s.pend ∧ t.pcmd = s.pcmd ∧ t.lastCmd = s.lastCmd

theorem samePending_recordError (e : ErrCode) (info : Word) (s : State) : SamePending s (recordError e info s) := by
  simp [SamePending]

theorem samePending_writeBitWord (b : BitSel) (m : Nat) (v : Word) (s : State) :
    SamePending s (writeBitWord b m v s) := by
  unfold writeBitWord
  split <;> simp [SamePending]

theorem samePending_writeSampHalf (p : SampSel) (k : Nat) (v : Word) (s : State) :
    SamePending s (writeSampHalf p k v s) := by
  unfold writeSampHalf
  split <;> simp [SamePending]

theorem samePending_writeReg {r : Reg} (hr : r ≠ .cmd) (v : Word) (s : State) : SamePending s (writeReg r v s) := by
  cases r with
  | cmd => exact absurd rfl hr
  | _ => simp [SamePending, writeReg]

theorem samePending_writeTarget {t : Target} (ht : t ≠ .reg .cmd) (v : Word) (s : State) :
    SamePending s (writeTarget t v s) := by
  cases t with
  | reg r => exact samePending_writeReg (fun hr => ht (by rw [hr])) v s
  | bitWord b m => exact samePending_writeBitWord b m v s
  | sampHalf p k => exact samePending_writeSampHalf p k v s
  | unmapped => exact ⟨rfl, rfl, rfl⟩

/-- A write keeps the pending command, or it is an accepted write of CMD. -/
theorem hostWrite_pending (addr v : Word) (s : State) :
    SamePending s (hostWrite addr v s) ∨
    (s.pend = false ∧ AtOffset s addr 0x014 ∧ hostWrite addr v s = acceptCommand v s) := by
  rcases hostWrite_cases addr v s with h | ⟨-, info, h⟩ | ⟨off, hoff, hg, h⟩
  · rw [h]; exact .inl ⟨rfl, rfl, rfl⟩
  · rw [h]; exact .inl (samePending_recordError _ _ _)
  · by_cases ht : targetAt off = .reg .cmd
    · obtain rfl := off_eq_of_targetAt_cmd hoff ht
      exact .inr ⟨hg.resolve_right (by decide), hoff, h⟩
    · rw [h]; exact .inl (samePending_writeTarget ht v s)

theorem samePending_hostRead (addr : Word) (s : State) : SamePending s (hostRead addr s) := by
  obtain ⟨replies, draws, h⟩ := hostRead_eq addr s
  rw [h]
  exact ⟨rfl, rfl, rfl⟩

/-- A step keeps the pending command, accepts one, or is the core's turn or reset, which leave PEND = 0. -/
theorem step_pending {s t : State} (h : step s = .next t) :
    SamePending s t ∨
    (s.pend = false ∧ ∃ addr v rest, s.inputs = .write addr v :: rest ∧ AtOffset s addr 0x014 ∧
      t.pcmd = v ∧ t.lastCmd = v) ∨
    (t.pend = false ∧ (s.inputs = [] ∨ ∃ rest, s.inputs = .coreTurn :: rest ∨ s.inputs = .reset :: rest)) := by
  rcases step_cases h with ⟨rest, hin, hc⟩ | ⟨addr, v, rest, hin, rfl⟩ | ⟨addr, rest, -, rfl⟩ | ⟨rest, hin, rfl⟩
  · exact .inr (.inr ⟨pend_eq_false_of_coreTurn hc, hin.imp id fun hr => ⟨rest, .inl hr⟩⟩)
  · rcases hostWrite_pending addr v { s with inputs := rest } with hsame | ⟨hp, hoff, ha⟩
    · exact .inl hsame
    · rw [ha]
      exact .inr (.inl ⟨hp, addr, v, rest, hin, hoff, rfl, rfl⟩)
  · exact .inl (samePending_hostRead addr { s with inputs := rest })
  · exact .inr (.inr ⟨rfl, .inr ⟨rest, .inr hin⟩⟩)

/-- Settles O13, by the three things that a step can do to the pending command. -/
theorem pendChangesOnlyByAcceptanceStepOrReset : Obligations.PendChangesOnlyByAcceptanceStepOrReset := by
  intro s t h
  rcases step_pending h with ⟨hp, hpcmd, hlast⟩ | ⟨hp, haccept⟩ | ⟨hp, hin⟩
  · exact ⟨fun h0 h1 => by simp [hp, h0] at h1, fun h1 h0 => by simp [hp, h1] at h0, fun _ _ => ⟨hpcmd, hlast⟩⟩
  · exact ⟨fun _ _ => haccept, fun h1 _ => by simp [hp] at h1, fun h1 _ => by simp [hp] at h1⟩
  · exact ⟨fun _ h1 => by simp [hp] at h1, fun _ _ => hin, fun _ h1 => by simp [hp] at h1⟩

/-! ### The generator (R41) -/

theorem gen_writeReg (r : Reg) (v : Word) (s : State) : (writeReg r v s).gen = s.gen := by
  cases r <;> simp [writeReg]

theorem gen_writeTarget (t : Target) (v : Word) (s : State) : (writeTarget t v s).gen = s.gen := by
  cases t with
  | reg r => exact gen_writeReg r v s
  | bitWord b m => simp only [writeTarget, writeBitWord]; split <;> simp
  | sampHalf p k => simp only [writeTarget, writeSampHalf]; split <;> simp
  | unmapped => rfl

theorem gen_hostWrite (addr v : Word) (s : State) : (hostWrite addr v s).gen = s.gen := by
  rcases hostWrite_cases addr v s with h | ⟨-, info, h⟩ | ⟨off, -, -, h⟩ <;> rw [h]
  · exact recordError_gen _ _ _
  · exact gen_writeTarget _ _ _

theorem gen_hostRead (addr : Word) (s : State) : (hostRead addr s).gen = s.gen := by
  obtain ⟨replies, draws, h⟩ := hostRead_eq addr s
  rw [h]

/-- What a command does to the generator: only SEED and AWGN touch it. -/
theorem exec_gen {i : Instr} {s t : State} (h : exec i s = .next t) :
    t.gen = s.gen ∨ (i = .seed ∧ t.gen = gseed s.seed) ∨
    (∃ sa sb, i = .awgn sa sb ∧ s.components sa ≤ s.params.sampCap ∧ s.symbols sa ≠ 0 ∧
      t.gen = { s.gen with taken := s.gen.taken + s.components sa }) := by
  rcases exec_cases i s with ⟨e, -, hx⟩ | ⟨b, ys, -, hx⟩ | ⟨p, ys, n, sh, -, hx⟩ | ⟨sa, sb, ys, sh, -, -, -, hx⟩ |
    ⟨sa, sb, ys, sh, p, q, hi, hc, hn, -, hx⟩ | ⟨ba, bb, e, l, ber, -, -, -, -, hx⟩ | ⟨hi, hx⟩ | ⟨-, hx⟩ | ⟨-, hx⟩ <;>
    obtain rfl := Host.Outcome.next.inj (hx.symm.trans h)
  · exact .inl (recordError_gen e s.pcmd s)
  · exact .inl (s.putBits_gen b ys)
  · exact .inl (s.putSamples_gen p ys n sh)
  · exact .inl (s.putSamples_gen sb ys 0 sh)
  · exact .inr (.inr ⟨sa, sb, hi, hc, hn, rfl⟩)
  · exact .inl rfl
  · exact .inr (.inl ⟨hi, rfl⟩)
  · exact .inl rfl
  · exact .inl rfl

/-- Settles O14, by the cases of a step; in the core's turn, by what the decoded command does to the generator. -/
theorem generatorChangesOnlyByResetSeedAwgn : Obligations.GeneratorChangesOnlyByResetSeedAwgn := by
  intro s t h
  rcases step_cases h with ⟨rest, hin, hc⟩ | ⟨addr, v, rest, -, rfl⟩ | ⟨addr, rest, -, rfl⟩ | ⟨rest, hin, -⟩
  · rcases coreTurn_cases hc with ⟨-, rfl⟩ | ⟨hp, u, rfl, ⟨i, hi, hx⟩ | rfl⟩
    · exact .inl rfl
    · rcases exec_gen hx with hg | ⟨rfl, hg⟩ | ⟨sa, sb, rfl, hc, hn, hg⟩
      · exact .inl hg
      · exact .inr (.inr ⟨hp, hin.imp id fun hr => ⟨rest, hr⟩, .inl ⟨hi, hg⟩⟩)
      · simp only [State.components, State.symbols, State.withInputs_sampBuf] at hc hn hg
        exact .inr (.inr ⟨hp, hin.imp id fun hr => ⟨rest, hr⟩, .inr ⟨sa, sb, hi, hc, hn, hg⟩⟩)
    · exact .inl (by simp)
  · exact .inl (gen_hostWrite addr v { s with inputs := rest })
  · exact .inl (gen_hostRead addr { s with inputs := rest })
  · exact .inr (.inl ⟨rest, hin⟩)

/-! ### The invariant (R23, R25, R31, R33, R36, R42) -/

theorem statusWf_iff (t : Status) : statusWf t = true ↔
    if t.err then t.errCode ≠ .none else t.errCode = .none ∧ t.ovf = false ∧ t.errInfo = 0 := by
  unfold statusWf
  cases t.err <;> simp [and_assoc]

theorem pendingWf_iff (s : State) :
    pendingWf s = true ↔ (s.pend = true → s.lastCmd = s.pcmd ∧ s.status.done = false) := by
  unfold pendingWf
  cases s.pend <;> simp

theorem resultsWf_iff (s : State) : resultsWf s = true ↔
    s.results.errCnt.toNat ≤ s.results.cmpLen.toNat ∧ s.results.cmpLen.toNat ≤ s.params.bitCap := by
  simp [resultsWf]

theorem bitCap_mod_of_wellFormed {p : Params} (h : p.wellFormed = true) : p.bitCap % 32 = 0 := by
  simp only [Params.wellFormed, Bool.and_eq_true, beq_iff_eq] at h
  tauto

theorem storesWf_setBitBuf {s : State} (h : storesWf s = true) (b : BitSel) {x : BitBuf}
    (hx : storeWf s.params.bitCap x.cells = true) : storesWf (s.setBitBuf b x) = true := by
  rw [storesWf_iff] at h ⊢
  obtain ⟨hbits, hsamps⟩ := h
  refine ⟨fun c => ?_, fun p => ?_⟩
  · rw [State.setBitBuf_params]
    by_cases hc : c = b
    · rw [hc, State.setBitBuf_bitBuf]; exact hx
    · rw [State.setBitBuf_bitBuf_ne s x hc]; exact hbits c
  · rw [State.setBitBuf_params, State.setBitBuf_sampBuf]; exact hsamps p

theorem storesWf_setSampBuf {s : State} (h : storesWf s = true) (p : SampSel) {x : SampBuf}
    (hx : storeWf (2 * s.params.sampCap) x.halves = true) : storesWf (s.setSampBuf p x) = true := by
  rw [storesWf_iff] at h ⊢
  obtain ⟨hbits, hsamps⟩ := h
  refine ⟨fun b => ?_, fun q => ?_⟩
  · rw [State.setSampBuf_params, State.setSampBuf_bitBuf]; exact hbits b
  · rw [State.setSampBuf_params]
    by_cases hq : q = p
    · rw [hq, State.setSampBuf_sampBuf]; exact hx
    · rw [State.setSampBuf_sampBuf_ne s x hq]; exact hsamps q

/-- What every step does: the configuration stays, and so does the invariant. -/
structure KeepsInv (s t : State) : Prop where
  params : t.params = s.params
  inv : Inv s → Inv t

theorem KeepsInv.refl (s : State) : KeepsInv s s := ⟨rfl, id⟩

theorem KeepsInv.trans {s t u : State} (h : KeepsInv s t) (h' : KeepsInv t u) : KeepsInv s u :=
  ⟨h'.params.trans h.params, fun hs => h'.inv (h.inv hs)⟩

/-! ### The invariant under the shared operations -/

theorem keepsInv_setBitBuf {s : State} (b : BitSel) {x : BitBuf}
    (hx : Inv s → storeWf s.params.bitCap (s.bitBuf b).cells = true → storeWf s.params.bitCap x.cells = true) :
    KeepsInv s (s.setBitBuf b x) where
  params := by simp
  inv h :=
    { params := by simpa using h.params
      stores := storesWf_setBitBuf h.stores b (hx h (((storesWf_iff s).mp h.stores).1 b))
      status := by simpa using h.status
      pending := by simpa [pendingWf] using h.pending
      results := by simpa [resultsWf] using h.results }

theorem keepsInv_setSampBuf {s : State} (p : SampSel) {x : SampBuf}
    (hx : storeWf (2 * s.params.sampCap) (s.sampBuf p).halves = true →
      storeWf (2 * s.params.sampCap) x.halves = true) : KeepsInv s (s.setSampBuf p x) where
  params := by simp
  inv h :=
    { params := by simpa using h.params
      stores := storesWf_setSampBuf h.stores p (hx (((storesWf_iff s).mp h.stores).2 p))
      status := by simpa using h.status
      pending := by simpa [pendingWf] using h.pending
      results := by simpa [resultsWf] using h.results }

theorem keepsInv_putBits {s : State} (b : BitSel) {ys : List Bool} (hl : ys.length ≤ s.params.bitCap) :
    KeepsInv s (s.putBits b ys) :=
  keepsInv_setBitBuf b fun _ hc => storeWf_write hc (by omega)

theorem keepsInv_putSamples {s : State} (p : SampSel) {ys : List F64} (n : Nat) (sh : Shape)
    (hl : ys.length ≤ s.params.sampCap) : KeepsInv s (s.putSamples p ys n sh) :=
  keepsInv_setSampBuf p fun hc => storeWf_write hc (by rw [halvesOf_flatMap_length]; omega)

theorem keepsInv_recordError {e : ErrCode} (he : e ≠ .none) (info : Word) (s : State) :
    KeepsInv s (recordError e info s) where
  params := by simp
  inv h := by
    rw [recordError_eq]
    refine ⟨h.params, h.stores, ?_, h.pending, h.results⟩
    have hst := (statusWf_iff _).mp h.status
    rw [statusWf_iff, if_pos rfl]
    cases herr : s.status.err
    · simpa using he
    · simpa [herr] using hst

theorem keepsInv_acknowledgeDone (s : State) : KeepsInv s (acknowledgeDone s) where
  params := rfl
  inv h := ⟨h.params, h.stores, h.status,
    (pendingWf_iff _).mpr fun hp => ⟨((pendingWf_iff s).mp h.pending hp).1, rfl⟩, h.results⟩

theorem keepsInv_acknowledgeError (s : State) : KeepsInv s (acknowledgeError s) where
  params := rfl
  inv h := ⟨h.params, h.stores, rfl, h.pending, h.results⟩

theorem keepsInv_writeStatus (v : Word) (s : State) : KeepsInv s (writeStatus v s) := by
  have hdone : KeepsInv s (if v.getLsbD 1 then acknowledgeDone s else s) := by
    split
    · exact keepsInv_acknowledgeDone s
    · exact .refl s
  have herr : ∀ u, KeepsInv u (if v.getLsbD 2 then acknowledgeError u else u) := fun u => by
    split
    · exact keepsInv_acknowledgeError u
    · exact .refl u
  exact hdone.trans (herr _)

theorem keepsInv_acceptCommand (w : Word) (s : State) : KeepsInv s (acceptCommand w s) where
  params := rfl
  inv h := ⟨h.params, h.stores, h.status, (pendingWf_iff _).mpr fun _ => ⟨rfl, rfl⟩, h.results⟩

theorem keepsInv_completeCommand (s : State) : KeepsInv s (completeCommand s) where
  params := rfl
  inv h := ⟨h.params, h.stores, h.status, rfl, h.results⟩

theorem resultsWf_of_eq_zero {s : State} (h : s.results = Results.zero) : resultsWf s = true := by
  rw [resultsWf_iff, h]
  exact ⟨le_rfl, Nat.zero_le _⟩

theorem keepsInv_resetCore (s : State) : KeepsInv s (resetCore s) where
  params := rfl
  inv h := ⟨h.params, rfl, rfl, rfl, resultsWf_of_eq_zero rfl⟩

/-- BER, POWER, SIGMA, the generator and the free values' number are no part of the invariant. -/
theorem keepsInv_results {s : State} {r : Results} (g : GState) (d : Nat)
    (hr : resultsWf s = true → r.errCnt.toNat ≤ r.cmpLen.toNat ∧ r.cmpLen.toNat ≤ s.params.bitCap) :
    KeepsInv s { s with results := r, gen := g, draws := d } where
  params := rfl
  inv h := ⟨h.params, h.stores, h.status, h.pending, (resultsWf_iff _).mpr (hr h.results)⟩

/-! ### The invariant under the host's accesses -/

theorem keepsInv_writeReg (r : Reg) (v : Word) (s : State) : KeepsInv s (writeReg r v s) := by
  cases r with
  | status => exact keepsInv_writeStatus v s
  | cmd => exact keepsInv_acceptCommand v s
  | bitLen b => exact keepsInv_setBitBuf b fun _ hc => hc
  | sampLen p => exact keepsInv_setSampBuf p id
  | sampShape p => exact keepsInv_setSampBuf p id
  | _ => exact ⟨rfl, fun h => ⟨h.params, h.stores, h.status, h.pending, h.results⟩⟩

/-- The 32 cells of a word below the capacity are below it, as BITCAP is a multiple of 32 (R7). -/
theorem keepsInv_writeBitWord (b : BitSel) (m : Nat) (v : Word) (s : State) : KeepsInv s (writeBitWord b m v s) := by
  unfold writeBitWord
  split
  case isTrue hm =>
    refine keepsInv_setBitBuf b fun h hc => storeWf_write hc ?_
    have := bitCap_mod_of_wellFormed h.params
    rw [wordBits_length]
    omega
  case isFalse => exact .refl s

theorem keepsInv_writeSampHalf (p : SampSel) (k : Nat) (v : Word) (s : State) :
    KeepsInv s (writeSampHalf p k v s) := by
  unfold writeSampHalf
  split
  case isTrue hk => exact keepsInv_setSampBuf p fun hc => storeWf_write hc (by rw [List.length_singleton]; omega)
  case isFalse => exact .refl s

theorem keepsInv_writeTarget (t : Target) (v : Word) (s : State) : KeepsInv s (writeTarget t v s) := by
  cases t with
  | reg r => exact keepsInv_writeReg r v s
  | bitWord b m => exact keepsInv_writeBitWord b m v s
  | sampHalf p k => exact keepsInv_writeSampHalf p k v s
  | unmapped => exact .refl s

theorem keepsInv_hostWrite (addr v : Word) (s : State) : KeepsInv s (hostWrite addr v s) := by
  rcases hostWrite_cases addr v s with h | ⟨-, info, h⟩ | ⟨off, -, -, h⟩ <;> rw [h]
  · exact .refl s
  · exact keepsInv_recordError (by decide) info s
  · exact keepsInv_writeTarget _ v s

theorem keepsInv_hostRead (addr : Word) (s : State) : KeepsInv s (hostRead addr s) := by
  obtain ⟨replies, draws, h⟩ := hostRead_eq addr s
  rw [h]
  exact ⟨rfl, fun h => ⟨h.params, h.stores, h.status, h.pending, h.results⟩⟩

/-! ### The invariant under the core's turn -/

theorem keepsInv_exec {i : Instr} {s t : State} (h : exec i s = .next t) : KeepsInv s t := by
  rcases exec_cases i s with ⟨e, he, hx⟩ | ⟨b, ys, hl, hx⟩ | ⟨p, ys, n, sh, hl, hx⟩ |
    ⟨sa, sb, ys, sh, -, -, rfl, hx⟩ | ⟨sa, sb, ys, sh, p, q, -, hc, -, hl, hx⟩ |
    ⟨ba, bb, e, l, ber, -, hel, hl, hlt, hx⟩ | ⟨-, hx⟩ | ⟨-, hx⟩ | ⟨-, hx⟩ <;>
    obtain rfl := Host.Outcome.next.inj (hx.symm.trans h)
  · exact keepsInv_recordError (by rintro rfl; simp at he) _ s
  · exact keepsInv_putBits b hl
  · exact keepsInv_putSamples p n sh hl
  · refine (keepsInv_putSamples sb 0 sh (Nat.zero_le _)).trans (keepsInv_results _ _ fun hr => ?_)
    simpa [resultsWf] using hr
  · refine (keepsInv_putSamples sb _ sh (hl ▸ hc)).trans (keepsInv_results _ _ fun hr => ?_)
    simpa [resultsWf] using hr
  · refine keepsInv_results _ _ fun _ => ?_
    rw [BitVec.toNat_ofNat, BitVec.toNat_ofNat, Nat.mod_eq_of_lt hlt, Nat.mod_eq_of_lt (by omega)]
    exact ⟨hel, hl⟩
  · exact keepsInv_results _ _ (resultsWf_iff s).mp
  · exact ⟨rfl, fun h => ⟨h.params, h.stores, h.status, h.pending, resultsWf_of_eq_zero rfl⟩⟩
  · exact .refl s

theorem keepsInv_coreTurn {s t : State} (h : coreTurn s = .next t) : KeepsInv s t := by
  rcases coreTurn_cases h with ⟨-, rfl⟩ | ⟨-, u, rfl, ⟨i, -, hx⟩ | rfl⟩
  · exact .refl t
  · exact (keepsInv_exec hx).trans (keepsInv_completeCommand u)
  · exact (keepsInv_recordError (by decide) _ s).trans (keepsInv_completeCommand _)

/-- The events are no part of the invariant. -/
theorem keepsInv_inputs (l : List HostEvent) (s : State) : KeepsInv s { s with inputs := l } :=
  ⟨rfl, fun h => ⟨h.params, h.stores, h.status, h.pending, h.results⟩⟩

/-- Settles O10: each of the four kinds of step keeps the configuration and the invariant. -/
theorem everyStepKeepsTheInvariant : Obligations.EveryStepKeepsTheInvariant := by
  intro s t h
  have hkeeps : KeepsInv s t := by
    rcases step_cases h with ⟨rest, -, hc⟩ | ⟨addr, v, rest, -, rfl⟩ | ⟨addr, rest, -, rfl⟩ | ⟨rest, -, rfl⟩
    · exact (keepsInv_inputs rest s).trans (keepsInv_coreTurn hc)
    · exact (keepsInv_inputs rest s).trans (keepsInv_hostWrite addr v _)
    · exact (keepsInv_inputs rest s).trans (keepsInv_hostRead addr _)
    · exact (keepsInv_inputs rest s).trans (keepsInv_resetCore _)
  exact ⟨hkeeps.params, hkeeps.inv⟩

/-! ### The state after reset (R44) -/

/-- Settles O11: the stores are empty, the flags and counts 0, and the default capacities legal (R7). -/
theorem resetStateMeetsTheInvariant : Obligations.ResetStateMeetsTheInvariant :=
  ⟨by decide, rfl, rfl, rfl, resultsWf_of_eq_zero rfl⟩

/-- Settles O15: each register of the reset state read. -/
theorem resetStateHasItsListedValues : Obligations.ResetStateHasItsListedValues := by
  refine ⟨?_, fun b => ?_, fun p => ?_, ?_, ?_⟩
  · exact ⟨rfl, rfl, rfl, rfl, rfl, rfl, rfl, rfl, rfl⟩
  · cases b <;> rfl
  · cases p <;> exact ⟨rfl, rfl⟩
  · exact ⟨rfl, rfl, rfl, rfl, rfl⟩
  · exact ⟨rfl, rfl, rfl⟩

/-! ### CTRL, STATUS and the shapes as words (R25, R30, R31) -/

theorem getLsbD_flag_append {n : Nat} (x : BitVec n) (b : Bool) (i : Nat) :
    (x ++ flag b).getLsbD i = if i = 0 then b else x.getLsbD (i - 1) := by
  rw [BitVec.getLsbD_append, flag]
  cases i <;> simp

theorem getLsbD_ctrlWord (s : State) :
    s.ctrlWord.getLsbD 0 = s.ctrl.doneIe ∧ s.ctrlWord.getLsbD 1 = s.ctrl.errIe := by
  constructor <;> simp only [State.ctrlWord, getLsbD_flag_append] <;> rfl

theorem getLsbD_statusWord (s : State) :
    s.statusWord.getLsbD 0 = s.pend ∧ s.statusWord.getLsbD 1 = s.status.done ∧
    s.statusWord.getLsbD 2 = s.status.err ∧ s.statusWord.getLsbD 3 = s.status.ovf := by
  refine ⟨?_, ?_, ?_, ?_⟩ <;> simp only [State.statusWord, getLsbD_flag_append] <;> rfl

theorem statusWord_errCode (s : State) : s.statusWord.extractLsb' 8 4 = s.status.errCode.code := by
  have hword : ∀ (c : BitVec 4) (o e d p : Bool), ((0 : BitVec 20) ++ c ++ (0 : BitVec 4) ++ flag o ++ flag e
      ++ flag d ++ flag p).extractLsb' 8 4 = c := by decide
  exact hword _ _ _ _ _

theorem ctrlWord_reserved (s : State) : s.ctrlWord &&& 0xFFFFFFFC = 0 := by
  have hword : ∀ e d : Bool, ((0 : BitVec 30) ++ flag e ++ flag d) &&& 0xFFFFFFFC = 0 := by decide
  exact hword _ _

theorem statusWord_reserved (s : State) : s.statusWord &&& 0xFFFFF0F0 = 0 := by
  have hword : ∀ (c : BitVec 4) (o e d p : Bool), ((0 : BitVec 20) ++ c ++ (0 : BitVec 4) ++ flag o ++ flag e
      ++ flag d ++ flag p) &&& 0xFFFFF0F0 = 0 := by decide
  exact hword _ _ _ _ _

theorem ctrlWord_writeCtrl (v : Word) (s : State) : (writeCtrl v s).ctrlWord = v &&& 0x3 := by
  obtain ⟨hdone, herr⟩ := getLsbD_ctrlWord (writeCtrl v s)
  apply BitVec.eq_of_getLsbD_eq
  intro i hi
  rw [BitVec.getLsbD_and]
  match i with
  | 0 => rw [hdone]; exact (Bool.and_true _).symm
  | 1 => rw [herr]; exact (Bool.and_true _).symm
  | i + 2 =>
    have hmask : ∀ i, i < 30 → (0x3 : Word).getLsbD (i + 2) = false := by decide
    rw [hmask i (by omega), Bool.and_false]
    simp only [State.ctrlWord, getLsbD_flag_append]
    simp

/-- A write of STATUS, field by field. -/
theorem writeStatus_eq (v : Word) (s : State) :
    writeStatus v s =
      { s with status :=
        { done := s.status.done && !v.getLsbD 1
          err := s.status.err && !v.getLsbD 2
          ovf := s.status.ovf && !v.getLsbD 2
          errCode := if v.getLsbD 2 then .none else s.status.errCode
          errInfo := if v.getLsbD 2 then 0 else s.status.errInfo } } := by
  unfold writeStatus
  cases v.getLsbD 1 <;> cases v.getLsbD 2 <;> simp [acknowledgeDone, acknowledgeError]

theorem readReg_sampShape (p : SampSel) (s : State) :
    readReg (.sampShape p) s = if (s.sampBuf p).shape = .pair then 1 else 0 := by
  change (flag (s.sampBuf p).shape.bit).setWidth 32 = _
  cases (s.sampBuf p).shape <;> rfl

theorem setWidth_reserved (x : BitVec 8) : x.setWidth 32 &&& 0xFFFFFF00 = 0 := by
  revert x
  decide

theorem setWidth_and_low (v : Word) : (v &&& 0xFF).setWidth 8 = v.setWidth 8 := by
  rw [BitVec.setWidth_and]
  exact BitVec.and_allOnes

/-! ### Registers through the bus -/

/-- A register that ignores writes, and whose read is no hazard or nothing is pending. -/
theorem access_readOnly {s : State} {addr : Word} {off : Nat} {r : Reg} (v : Word) (ht : targetAt off = .reg r)
    (h : AtOffset s addr off) (hread : s.pend = false ∨ r.readHazard = false) (hfree : r.guarded = false)
    (hro : writeReg r v s = s) :
    hostWrite addr v s = s ∧ hostRead addr s = { s with replies := s.replies ++ [readReg r s] } :=
  ⟨(hostWrite_reg v ht h (.inr hfree)).trans hro, hostRead_reg ht h hread⟩

/-- Settles O54: an unused offset has no target, and a reserved field has no part in what its register reads and writes. -/
theorem reservedAndUnmappedReadZero : Obligations.ReservedAndUnmappedReadZero := by
  refine ⟨fun s addr v off h hu => ?_, fun s => ?_, fun s v => ?_⟩
  · have ht := targetAt_unused hu
    have hr := hostRead_target h (.inr (by rw [ht]; rfl))
    have hw := hostWrite_target v h (.inr (by rw [ht]; rfl))
    rw [ht] at hr hw
    exact ⟨hr, hw⟩
  · refine ⟨ctrlWord_reserved s, statusWord_reserved s, setWidth_reserved s.snrDb, fun p => ?_⟩
    rw [readReg_sampShape]
    split <;> decide
  · refine ⟨?_, ?_, ?_, fun p => ?_⟩
    · simp [writeReg, writeCtrl]
    · simp [writeReg, writeStatus_eq]
    · simp only [writeReg, setWidth_and_low]
    · simp [writeReg]

/-- Settles O55, from the STATUS word's fields and the equation of its write; STATUS is neither guarded nor hazardous. -/
theorem statusFieldsAndTheirClearing : Obligations.StatusFieldsAndTheirClearing := by
  refine ⟨fun s => ?_, ⟨rfl, rfl, rfl, rfl, rfl, rfl⟩, fun s addr h => ?_, fun s addr v h => ?_⟩
  · obtain ⟨hbusy, hdone, herr, hovf⟩ := getLsbD_statusWord s
    exact ⟨hbusy, hdone, herr, hovf, statusWord_errCode s⟩
  · exact hostRead_reg (r := .status) rfl h (.inr rfl)
  · exact (hostWrite_reg (r := .status) v rfl h (.inr rfl)).trans (writeStatus_eq v s)

/-- Settles O58: the three registers' own reads and writes. -/
theorem snrAndSeedRegistersKeepTheirValue : Obligations.SnrAndSeedRegistersKeepTheirValue := by
  intro s addr v off hp h
  refine ⟨?_, ?_, ?_⟩
  · rintro rfl
    have hw : hostWrite addr v s = { s with snrDb := v.extractLsb' 0 8 } := by
      rw [hostWrite_reg (r := .snrDb) v rfl h (.inl hp), ← BitVec.setWidth_eq_extractLsb' (by decide)]
      rfl
    exact ⟨hw, by rw [hw]; rfl, hostRead_reg (r := .snrDb) rfl h (.inl hp)⟩
  · rintro rfl
    exact ⟨hostWrite_reg (r := .seedLo) v rfl h (.inl hp), hostRead_reg (r := .seedLo) rfl h (.inl hp)⟩
  · rintro rfl
    exact ⟨hostWrite_reg (r := .seedHi) v rfl h (.inl hp), hostRead_reg (r := .seedHi) rfl h (.inl hp)⟩

/-- Settles O59: the offset of each length and shape register is its own, and its write stores the word or bit 0. -/
theorem lengthAndShapeRegistersAreUnchecked : Obligations.LengthAndShapeRegistersAreUnchecked := by
  intro s addr v hp
  refine ⟨fun b h => ?_, fun p h => ?_, fun p h => ?_⟩
  · exact ⟨hostWrite_reg v (targetAt_bitLen b) h (.inl hp), hostRead_reg (targetAt_bitLen b) h (.inl hp)⟩
  · exact ⟨hostWrite_reg v (targetAt_sampLen p) h (.inl hp), hostRead_reg (targetAt_sampLen p) h (.inl hp)⟩
  · rw [← readReg_sampShape]
    exact ⟨hostWrite_reg v (targetAt_sampShape p) h (.inl hp), hostRead_reg (targetAt_sampShape p) h (.inl hp)⟩

/-- Settles O60: an aligned offset of the result registers is one of eight, each a read-only register. -/
theorem resultRegistersReadTheirHalves : Obligations.ResultRegistersReadTheirHalves := by
  intro s addr v off hp h
  refine ⟨fun hlo hhi => ?_, ?_, ?_⟩
  · have h4 := aligned_of_atOffset h
    have hoff : off = 0x050 ∨ off = 0x054 ∨ off = 0x058 ∨ off = 0x05C ∨ off = 0x060 ∨ off = 0x064 ∨ off = 0x068 ∨
        off = 0x06C := by omega
    rcases hoff with rfl | rfl | rfl | rfl | rfl | rfl | rfl | rfl
    · exact access_readOnly (r := .errCnt) v rfl h (.inl hp) rfl rfl
    · exact access_readOnly (r := .cmpLen) v rfl h (.inl hp) rfl rfl
    · exact access_readOnly (r := .berLo) v rfl h (.inl hp) rfl rfl
    · exact access_readOnly (r := .berHi) v rfl h (.inl hp) rfl rfl
    · exact access_readOnly (r := .sigmaLo) v rfl h (.inl hp) rfl rfl
    · exact access_readOnly (r := .sigmaHi) v rfl h (.inl hp) rfl rfl
    · exact access_readOnly (r := .powerLo) v rfl h (.inl hp) rfl rfl
    · exact access_readOnly (r := .powerHi) v rfl h (.inl hp) rfl rfl
  · rintro rfl
    exact hostRead_reg (r := .cmd) rfl h (.inl hp)
  · rintro rfl
    exact access_readOnly (r := .errInfo) v rfl h (.inl hp) rfl rfl

/-- Settles O56, from the bits of the CTRL and STATUS words; CTRL is neither guarded nor hazardous. -/
theorem interruptLineFollowsCtrlAndStatus : Obligations.InterruptLineFollowsCtrlAndStatus := by
  refine ⟨fun s => ?_, fun s addr v h => ?_⟩
  · obtain ⟨hdoneIe, herrIe⟩ := getLsbD_ctrlWord s
    obtain ⟨-, hdone, herr, -⟩ := getLsbD_statusWord s
    simp only [readReg, hdoneIe, herrIe, hdone, herr, State.irq]
  · have hw : hostWrite addr v s = writeCtrl v s := hostWrite_reg (r := .ctrl) v rfl h (.inr rfl)
    rw [hw]
    exact ⟨rfl, ctrlWord_writeCtrl v s, hostRead_reg (r := .ctrl) rfl h (.inr rfl)⟩

/-- Settles O57: the three registers are read-only, and their reads no hazard. -/
theorem identificationRegistersAreConstant : Obligations.IdentificationRegistersAreConstant := by
  rintro s addr v off h (rfl | rfl | rfl)
  · exact access_readOnly (r := .id) v rfl h (.inr rfl) rfl rfl
  · exact access_readOnly (r := .capBits) v rfl h (.inr rfl) rfl rfl
  · exact access_readOnly (r := .capSamp) v rfl h (.inr rfl) rfl rfl

end Sys2Proof.Machine

/-! PROOFS. The host bus (spec/20_memory.md): the address of the aligned word, accesses outside the window, equal
writes repeated, and the words of the bit windows and of the sample windows. -/

namespace Sys2Proof.Machine

open Sys2Proof.Safety Sys2Proof.Claims

/-! ### Addresses (R60, R69) -/

theorem base_mod_of_wellFormed {p : Params} (h : p.wellFormed = true) : p.base.toNat % 0x200000 = 0 := by
  simp only [Params.wellFormed, Bool.and_eq_true, beq_iff_eq] at h
  tauto

theorem inWindow_iff (p : Params) (addr : Word) :
    inWindow p addr = true ↔ p.base.toNat ≤ addr.toNat ∧ addr.toNat < p.base.toNat + 0x200000 := by
  simp [inWindow]

theorem offsetOf_eq (p : Params) (addr : Word) :
    offsetOf p addr = (2 ^ 32 - p.base.toNat + addr.toNat) % 2 ^ 32 / 4 % 2 ^ 19 * 4 := by
  simp only [offsetOf, BitVec.extractLsb'_toNat, BitVec.toNat_sub, Nat.shiftRight_eq_div_pow]

/-- Bits 1:0 cleared: the address of the aligned word. -/
theorem toNat_and_aligned (addr : Word) : (addr &&& 0xFFFFFFFC).toNat = addr.toNat / 4 * 4 := by
  have hmask : ∀ i, i < 32 → (0xFFFFFFFC#32).getLsbD i = !decide (i < 2) := by decide
  have hshift : addr &&& 0xFFFFFFFC#32 = addr >>> 2 <<< 2 := by
    apply BitVec.eq_of_getLsbD_eq
    intro i hi
    rw [BitVec.getLsbD_and, hmask i hi, BitVec.getLsbD_shiftLeft, BitVec.getLsbD_ushiftRight]
    by_cases h2 : i < 2
    · simp [h2]
    · simp [h2, hi, show 2 + (i - 2) = i by omega]
  have := addr.isLt
  rw [show addr &&& 0xFFFFFFFC = _ from hshift]
  simp only [BitVec.toNat_shiftLeft, BitVec.toNat_ushiftRight, Nat.shiftRight_eq_div_pow, Nat.shiftLeft_eq]
  omega

theorem inWindow_and_aligned {p : Params} (h : p.wellFormed = true) (addr : Word) :
    inWindow p (addr &&& 0xFFFFFFFC) = inWindow p addr := by
  have hb := base_mod_of_wellFormed h
  rw [Bool.eq_iff_iff, inWindow_iff, inWindow_iff, toNat_and_aligned]
  omega

theorem offsetOf_and_aligned {p : Params} (h : p.wellFormed = true) (addr : Word) :
    offsetOf p (addr &&& 0xFFFFFFFC) = offsetOf p addr := by
  have hb := base_mod_of_wellFormed h
  have := p.base.isLt
  rw [offsetOf_eq, offsetOf_eq, toNat_and_aligned]
  omega

/-- Settles O53: with BASE a multiple of 4, the aligned address is in the window when the address is, at its offset. -/
theorem lowAddressBitsAreIgnored : Obligations.LowAddressBitsAreIgnored := by
  intro s addr v h
  simp only [hostRead, hostWrite, inWindow_and_aligned h, offsetOf_and_aligned h, and_self]

/-! ### Accesses outside the window, reads of an idle core (R60, R71) -/

theorem hostRead_outside {s : State} {addr : Word} (hw : ¬ inWindow s.params addr = true) : hostRead addr s = s :=
  if_neg hw

theorem hostWrite_outside {s : State} {addr : Word} (v : Word) (hw : ¬ inWindow s.params addr = true) :
    hostWrite addr v s = s := if_neg hw

/-- A read draws a free value only while a command is pending (log 8). -/
theorem hostRead_draws {s : State} (addr : Word) (hp : s.pend = false) : (hostRead addr s).draws = s.draws := by
  by_cases hw : inWindow s.params addr = true
  · rw [hostRead_target ⟨hw, rfl⟩ (.inl hp)]
  · rw [hostRead_outside hw]

/-! ### Equal writes repeated (R71) -/

theorem State.setBitBuf_setBitBuf (s : State) (b : BitSel) (x y : BitBuf) :
    (s.setBitBuf b x).setBitBuf b y = s.setBitBuf b y := by cases b <;> rfl

theorem State.setSampBuf_setSampBuf (s : State) (p : SampSel) (x y : SampBuf) :
    (s.setSampBuf p x).setSampBuf p y = s.setSampBuf p y := by cases p <;> rfl

theorem writeStatus_writeStatus (v : Word) (s : State) : writeStatus v (writeStatus v s) = writeStatus v s := by
  rw [writeStatus_eq, writeStatus_eq]
  cases v.getLsbD 1 <;> cases v.getLsbD 2 <;> simp

theorem writeReg_writeReg {r : Reg} (hr : r ≠ .cmd) (v : Word) (s : State) :
    writeReg r v (writeReg r v s) = writeReg r v s := by
  cases r with
  | cmd => exact absurd rfl hr
  | status => exact writeStatus_writeStatus v s
  | bitLen b => simp only [writeReg, State.setBitBuf_bitBuf, State.setBitBuf_setBitBuf]
  | sampLen p => simp only [writeReg, State.setSampBuf_sampBuf, State.setSampBuf_setSampBuf]
  | sampShape p => simp only [writeReg, State.setSampBuf_sampBuf, State.setSampBuf_setSampBuf]
  | _ => rfl

theorem writeBitWord_writeBitWord (b : BitSel) (m : Nat) (v : Word) (s : State) :
    writeBitWord b m v (writeBitWord b m v s) = writeBitWord b m v s := by
  by_cases hm : 32 * m < s.params.bitCap
  · simp only [writeBitWord, hm, if_true, State.setBitBuf_params, State.setBitBuf_bitBuf, storeWrite_write,
      State.setBitBuf_setBitBuf]
  · simp only [writeBitWord, hm, if_false]

theorem writeSampHalf_writeSampHalf (p : SampSel) (k : Nat) (v : Word) (s : State) :
    writeSampHalf p k v (writeSampHalf p k v s) = writeSampHalf p k v s := by
  by_cases hk : k / 2 < s.params.sampCap
  · simp only [writeSampHalf, hk, if_true, State.setSampBuf_params, State.setSampBuf_sampBuf, storeWrite_write,
      State.setSampBuf_setSampBuf]
  · simp only [writeSampHalf, hk, if_false]

theorem writeTarget_writeTarget {t : Target} (ht : t ≠ .reg .cmd) (v : Word) (s : State) :
    writeTarget t v (writeTarget t v s) = writeTarget t v s := by
  cases t with
  | reg r => exact writeReg_writeReg (fun hr => ht (by rw [hr])) v s
  | bitWord b m => exact writeBitWord_writeBitWord b m v s
  | sampHalf p k => exact writeSampHalf_writeSampHalf p k v s
  | unmapped => rfl

/-- A write leaves the configuration and PEND, so that the second of two equal ones reaches the same target. -/
theorem hostWrite_hostWrite {s : State} {addr : Word} (v : Word) (hp : s.pend = false)
    (hcmd : ¬ AtOffset s addr 0x014) : hostWrite addr v (hostWrite addr v s) = hostWrite addr v s := by
  by_cases hw : inWindow s.params addr = true
  swap
  · rw [hostWrite_outside v hw, hostWrite_outside v hw]
  obtain ⟨off, h⟩ : ∃ off, AtOffset s addr off := ⟨_, hw, rfl⟩
  have ht : targetAt off ≠ .reg .cmd := fun ht => hcmd (off_eq_of_targetAt_cmd h ht ▸ h)
  have hfirst := hostWrite_target v h (.inl hp)
  obtain ⟨hpend, -, -⟩ := samePending_writeTarget ht v s
  have h' : AtOffset (writeTarget (targetAt off) v s) addr off := by
    unfold AtOffset
    rwa [(keepsInv_writeTarget (targetAt off) v s).params]
  rw [hfirst, hostWrite_target v h' (.inl (hpend.trans hp)), writeTarget_writeTarget ht]

/-- Settles O50, from `hostRead_eq`, the second of two equal writes, and the two accesses outside the window. -/
theorem readsChangeNothingAndWritesAreIdempotent : Obligations.ReadsChangeNothingAndWritesAreIdempotent := by
  refine ⟨fun s addr => ?_, fun s addr v hp hcmd => hostWrite_hostWrite v hp hcmd, fun s addr v hout => ?_⟩
  · obtain ⟨replies, draws, h⟩ := hostRead_eq addr s
    exact ⟨replies, draws, h, fun hp => by rw [← hostRead_draws addr hp, h]⟩
  · have hw : ¬ inWindow s.params addr = true := by rw [inWindow_iff]; omega
    exact ⟨hostRead_outside hw, hostWrite_outside v hw⟩

/-! ### Words of the bit windows (R64, R65) -/

section BitWindow

variable {s : State} {b : BitSel} {m : Nat}

theorem hostRead_bitWord {addr : Word} (hp : s.pend = false) (hm : m < 2048)
    (h : AtOffset s addr (0x010000 + 0x2000 * b.field.toNat + 4 * m)) :
    hostRead addr s = { s with replies := s.replies ++ [s.bitWindow b m] } := by
  rw [hostRead_target h (.inl hp), targetAt_bitWindow b hm]
  rfl

theorem hostWrite_bitWord {addr : Word} (v : Word) (hp : s.pend = false) (hm : m < 2048)
    (h : AtOffset s addr (0x010000 + 0x2000 * b.field.toNat + 4 * m)) :
    hostWrite addr v s = writeBitWord b m v s := by
  rw [hostWrite_target v h (.inl hp), targetAt_bitWindow b hm]
  rfl

theorem getLsbD_bitWindow (hc : 32 * m < s.params.bitCap) {k : Nat} (hk : k < 32) :
    (s.bitWindow b m).getLsbD (31 - k) = s.bitCell b (32 * m + k) := by
  rw [State.bitWindow, if_pos hc, getLsbD_packWord (by simp) hk]
  simp

theorem bitWindow_beyond (hc : s.params.bitCap ≤ 32 * m) : s.bitWindow b m = 0 := if_neg (Nat.not_lt.mpr hc)

theorem writeBitWord_beyond (v : Word) (hc : s.params.bitCap ≤ 32 * m) : writeBitWord b m v s = s :=
  if_neg (Nat.not_lt.mpr hc)

/-- A write below the capacity replaces the buffer's cells and nothing else. -/
theorem writeBitWord_eq (v : Word) (hc : 32 * m < s.params.bitCap) :
    writeBitWord b m v s =
      s.setBitBuf b { cells := storeWrite (32 * m) (wordBits v) (s.bitBuf b).cells, len := (s.bitBuf b).len } :=
  if_pos hc

theorem bitCell_writeBitWord_in (v : Word) (hc : 32 * m < s.params.bitCap) {k : Nat} (hk : k < 32) :
    (writeBitWord b m v s).bitCell b (32 * m + k) = v.getLsbD (31 - k) := by
  rw [writeBitWord_eq v hc, State.bitCell, State.setBitBuf_bitBuf,
    storeGet_write_in (by omega) (by rw [wordBits_length]; omega), Nat.add_sub_cancel_left, wordBits_getElem? v hk]

theorem bitCell_writeBitWord_out (v : Word) {i : Nat} (hi : i < 32 * m ∨ 32 * m + 32 ≤ i) :
    (writeBitWord b m v s).bitCell b i = s.bitCell b i := by
  by_cases hc : 32 * m < s.params.bitCap
  · rw [writeBitWord_eq v hc]
    simp only [State.bitCell, State.setBitBuf_bitBuf, State.setBitBuf_powerOn]
    rw [storeGet_write_out (by rwa [wordBits_length])]
  · rw [writeBitWord_beyond v (Nat.not_lt.mp hc)]

end BitWindow

/-- Settles O51: word `m` packs its 32 cells and a write of it stores them, everything else being kept by `setBitBuf`. -/
theorem bitWindowWordsAreMostSignificantFirst : Obligations.BitWindowWordsAreMostSignificantFirst := by
  intro s addr v b m _ hp hm h
  rw [hostRead_bitWord hp hm h, hostWrite_bitWord v hp hm h]
  refine ⟨fun hc => ?_, fun hc => ⟨by rw [bitWindow_beyond hc], writeBitWord_beyond v hc⟩⟩
  refine ⟨⟨_, rfl, fun k hk => getLsbD_bitWindow hc hk⟩, fun k hk => bitCell_writeBitWord_in v hc hk,
    fun i hi => bitCell_writeBitWord_out v hi, ?_⟩
  rw [writeBitWord_eq v hc]
  refine ⟨fun c hcb => State.setBitBuf_bitBuf_ne s _ hcb, ?_, ?_, ?_, ?_, ?_, ?_⟩
  · rw [State.setBitBuf_bitBuf]
  · exact State.setBitBuf_status s b _
  · constructor <;> simp
  · exact State.setBitBuf_results s b _
  · exact State.setBitBuf_gen s b _
  · exact sameAllSamples_of (fun p => State.setBitBuf_sampBuf s b _ p) (State.setBitBuf_powerOn s b _)

/-! ### Halves of the sample windows (R66, R67) -/

section SampWindow

variable {s : State} {p : SampSel} {k : Nat}

theorem hostRead_sampHalf {addr : Word} (hp : s.pend = false) (hk : k < 131072)
    (h : AtOffset s addr (0x080000 + 0x080000 * p.field.toNat + 4 * k)) :
    hostRead addr s = { s with replies := s.replies ++ [s.sampWindow p k] } := by
  rw [hostRead_target h (.inl hp), targetAt_sampWindow p hk]
  rfl

theorem hostWrite_sampHalf {addr : Word} (v : Word) (hp : s.pend = false) (hk : k < 131072)
    (h : AtOffset s addr (0x080000 + 0x080000 * p.field.toNat + 4 * k)) :
    hostWrite addr v s = writeSampHalf p k v s := by
  rw [hostWrite_target v h (.inl hp), targetAt_sampWindow p hk]
  rfl

theorem sampWindow_inside (hc : k / 2 < s.params.sampCap) : s.sampWindow p k = s.sampHalf p k := if_pos hc

theorem sampWindow_beyond (hc : s.params.sampCap ≤ k / 2) : s.sampWindow p k = 0 := if_neg (Nat.not_lt.mpr hc)

theorem writeSampHalf_beyond (v : Word) (hc : s.params.sampCap ≤ k / 2) : writeSampHalf p k v s = s :=
  if_neg (Nat.not_lt.mpr hc)

/-- A write below the capacity replaces the buffer's halves and nothing else. -/
theorem writeSampHalf_eq (v : Word) (hc : k / 2 < s.params.sampCap) :
    writeSampHalf p k v s =
      s.setSampBuf p { s.sampBuf p with halves := storeWrite k [v] (s.sampBuf p).halves } := if_pos hc

theorem sampHalf_writeSampHalf (v : Word) (hc : k / 2 < s.params.sampCap) (i : Nat) :
    (writeSampHalf p k v s).sampHalf p i = if i = k then v else s.sampHalf p i := by
  rw [writeSampHalf_eq v hc]
  simp only [State.sampHalf, State.setSampBuf_sampBuf, State.setSampBuf_powerOn]
  by_cases hi : i = k
  · subst hi
    rw [storeGet_write_in le_rfl (by simp), if_pos rfl, Nat.sub_self]
    rfl
  · rw [storeGet_write_out (by rw [List.length_singleton]; omega), if_neg hi]

/-- The half with this number of a sample, the less significant one first (R66). -/
theorem extractLsb'_sampWord (s : State) (p : SampSel) (j : Nat) (high : Bool) :
    (s.sampWord p j).extractLsb' (if high then 32 else 0) 32 = s.sampHalf p (2 * j + high.toNat) := by
  cases high
  · exact BitVec.extractLsb'_append_eq_right
  · exact BitVec.extractLsb'_append_eq_left

theorem sampWord_writeSampHalf_same (v : Word) {j : Nat} (high : Bool) (hc : j < s.params.sampCap) :
    (writeSampHalf p (2 * j + high.toNat) v s).sampWord p j =
      if high then v ++ (s.sampWord p j).extractLsb' 0 32 else (s.sampWord p j).extractLsb' 32 32 ++ v := by
  have hlow := extractLsb'_sampWord s p j false
  have hhigh := extractLsb'_sampWord s p j true
  simp only [if_true, Bool.false_eq_true, if_false] at hlow hhigh
  have hk : (2 * j + high.toNat) / 2 < s.params.sampCap := by have := high.toNat_le; omega
  rw [hlow, hhigh, State.sampWord, sampHalf_writeSampHalf v hk, sampHalf_writeSampHalf v hk]
  cases high <;> simp

theorem sampWord_writeSampHalf_ne (v : Word) {i : Nat} (hi : i ≠ k / 2) :
    (writeSampHalf p k v s).sampWord p i = s.sampWord p i := by
  by_cases hc : k / 2 < s.params.sampCap
  · rw [State.sampWord, sampHalf_writeSampHalf v hc, sampHalf_writeSampHalf v hc, if_neg (by omega),
      if_neg (by omega)]
    rfl
  · rw [writeSampHalf_beyond v (Nat.not_lt.mp hc)]

end SampWindow

/-- Settles O52: bus word `2j` or `2j + 1` of the window is one half of sample `j`, and its write stores that half,
everything else being kept by `setSampBuf`. -/
theorem sampleWindowHoldsTwoHalves : Obligations.SampleWindowHoldsTwoHalves := by
  intro s addr v p j high _ hp hj h
  have hhigh := high.toNat_le
  have hhalf : (2 * j + high.toNat) / 2 = j := by omega
  have hoff : 8 * j + (if high then 4 else 0) = 4 * (2 * j + high.toNat) := by cases high <;> simp <;> omega
  rw [Nat.add_assoc, hoff] at h
  rw [hostRead_sampHalf hp (by omega) h, hostWrite_sampHalf v hp (by omega) h]
  refine ⟨fun hc => ?_, fun hc => ⟨by rw [sampWindow_beyond (by rwa [hhalf])], writeSampHalf_beyond v (by rwa [hhalf])⟩⟩
  refine ⟨by rw [extractLsb'_sampWord, sampWindow_inside (by rwa [hhalf])], sampWord_writeSampHalf_same v high hc,
    fun i hi => sampWord_writeSampHalf_ne v (by rwa [hhalf]), ?_⟩
  rw [writeSampHalf_eq v (by rwa [hhalf])]
  refine ⟨fun q hq => State.setSampBuf_sampBuf_ne s _ hq, ?_, ?_, ?_, ?_, ?_, ?_, ?_⟩
  · rw [State.setSampBuf_sampBuf]
  · rw [State.setSampBuf_sampBuf]
  · exact State.setSampBuf_status s p _
  · constructor <;> simp
  · exact State.setSampBuf_results s p _
  · exact State.setSampBuf_gen s p _
  · exact sameAllBits_of (fun b => State.setSampBuf_bitBuf s p _ b) (State.setSampBuf_powerOn s p _)

end Sys2Proof.Machine

/-! PROOFS. The encoding (spec/30_encoding.md): the fields of a packed word and the word of given fields, `decode` and
`encode` as inverses of each other, the fields an opcode leaves unused, and the rows of the opcode map. -/

namespace Sys2Proof

open Sys2Proof.Claims

/-! ### Fields of a word (R91, R92) -/

@[simp] theorem BitSel.ofField_field (b : BitSel) : BitSel.ofField b.field = b := by cases b <;> rfl

@[simp] theorem SampSel.ofField_field (p : SampSel) : SampSel.ofField p.field = p := by cases p <;> rfl

@[simp] theorem BitSel.field_ofField : ∀ f : BitVec 2, (BitSel.ofField f).field = f := by decide

@[simp] theorem SampSel.field_ofField : ∀ f : BitVec 1, (SampSel.ofField f).field = f := by decide

section Pack

variable (sb sa : BitVec 1) (bb ba : BitVec 2) (opc : BitVec 4)

@[simp] theorem fieldOpc_packC : fieldOpc (packC sb sa bb ba opc) = opc := BitVec.extractLsb'_append_eq_right

@[simp] theorem fieldBa_packC : fieldBa (packC sb sa bb ba opc) = ba :=
  (BitVec.extractLsb'_append_eq_of_le (by decide)).trans BitVec.extractLsb'_append_eq_right

/-- The fields above BA, read from the word without its last two fields. -/
theorem extractLsb'_packC {start : Nat} (len : Nat) (h : 6 ≤ start) :
    (packC sb sa bb ba opc).extractLsb' start len =
      ((0 : BitVec 22) ++ sb ++ sa ++ bb).extractLsb' (start - 6) len :=
  (BitVec.extractLsb'_append_eq_of_le (by omega)).trans (BitVec.extractLsb'_append_eq_of_le (by omega))

@[simp] theorem fieldBb_packC : fieldBb (packC sb sa bb ba opc) = bb :=
  (extractLsb'_packC _ _ _ _ _ _ (by decide)).trans BitVec.extractLsb'_append_eq_right

@[simp] theorem fieldSa_packC : fieldSa (packC sb sa bb ba opc) = sa :=
  (extractLsb'_packC _ _ _ _ _ _ (by decide)).trans
    ((BitVec.extractLsb'_append_eq_of_le (by decide)).trans BitVec.extractLsb'_append_eq_right)

@[simp] theorem fieldSb_packC : fieldSb (packC sb sa bb ba opc) = sb :=
  (extractLsb'_packC _ _ _ _ _ _ (by decide)).trans
    ((BitVec.extractLsb'_append_eq_of_le (by decide)).trans
      ((BitVec.extractLsb'_append_eq_of_le (by decide)).trans BitVec.extractLsb'_append_eq_right))

@[simp] theorem fieldRsv_packC : fieldRsv (packC sb sa bb ba opc) = 0 :=
  (extractLsb'_packC _ _ _ _ _ _ (by decide)).trans
    ((BitVec.extractLsb'_append_eq_of_le (by decide)).trans
      ((BitVec.extractLsb'_append_eq_of_le (by decide)).trans BitVec.extractLsb'_append_eq_left))

end Pack

/-- A word whose RSV is 0 is packed from its own fields. -/
theorem packC_fields {w : Word} (hrsv : fieldRsv w = 0) :
    packC (fieldSb w) (fieldSa w) (fieldBb w) (fieldBa w) (fieldOpc w) = w := by
  rw [packC, ← hrsv]
  simp only [fieldRsv, fieldSb, fieldSa, fieldBb, fieldBa, fieldOpc]
  iterate 5 rw [BitVec.extractLsb'_append_extractLsb'_eq_extractLsb']
  · exact BitVec.extractLsb'_eq_self
  all_goals rfl

theorem fieldOpc_toNat (w : Word) : (fieldOpc w).toNat = w.toNat % 16 := by
  simp [fieldOpc, BitVec.extractLsb'_toNat]

/-! ### `decode` and `encode` are inverses of each other (R96) -/

theorem ifUnusedZero_eq_ok {b : Bool} {i j : Instr} : ifUnusedZero b i = .ok j ↔ b = true ∧ i = j := by
  cases b <;> simp [ifUnusedZero]

theorem fieldRsv_of_decode {w : Word} {i : Instr} (h : decode w = .ok i) : fieldRsv w = 0 := by
  by_contra hrsv
  rw [decode_reservedField hrsv] at h
  cases h

theorem decode_encode (i : Instr) : decode (encode i) = .ok i := by
  cases i <;> simp [encode, decode, ifUnusedZero]

theorem encode_of_decode {w : Word} {i : Instr} (h : decode w = .ok i) : encode i = w := by
  have hrsv := fieldRsv_of_decode h
  have hw := packC_fields hrsv
  unfold decode at h
  simp only [hrsv, ne_eq, not_true_eq_false, if_false] at h
  split at h
  case h_12 => cases h
  all_goals
    rename_i hopc
    obtain ⟨hzero, rfl⟩ := ifUnusedZero_eq_ok.mp h
    simp only [Bool.and_eq_true, beq_iff_eq] at hzero
    rw [BitVec.toNat_eq_nat] at hopc
    refine Eq.trans ?_ hw
    simp [encode, hzero, hopc]

/-- Settles O1, from the two directions: the decoder undoes the encoder, and a legal word is packed from its own
fields. -/
theorem eachCommandHasExactlyOneWord : Obligations.EachCommandHasExactlyOneWord := by
  intro w i
  exact ⟨encode_of_decode, fun h => h ▸ decode_encode i⟩

/-! ### The fields an opcode does not use (R93, R94) -/

/-- `w` has only zeros in the bits of a mask that is one field, exactly when that field is 0. -/
theorem and_fieldMask_eq_zero {w mask : Word} {start len : Nat}
    (hmask : ∀ i < 32, mask.getLsbD i = decide (start ≤ i ∧ i < start + len)) :
    w &&& mask = 0 ↔ w.extractLsb' start len = 0 := by
  constructor
  · intro h
    ext i hi
    have hbit := congrArg (BitVec.getLsbD · (start + i)) h
    by_cases hlt : start + i < 32
    · simpa [hmask _ hlt, hi] using hbit
    · simp [BitVec.getLsbD_of_ge w _ (Nat.le_of_not_lt hlt)]
  · intro h
    apply BitVec.eq_of_getLsbD_eq
    intro i hi
    by_cases hin : start ≤ i ∧ i < start + len
    · have hbit := congrArg (BitVec.getLsbD · (i - start)) h
      have hlen : i - start < len := by omega
      simp only [BitVec.getLsbD_extractLsb', hlen, Nat.add_sub_cancel' hin.1, decide_true, Bool.true_and] at hbit
      simp [hbit]
    · simp [hmask i hi, hin]

theorem and_or_eq_zero_iff (w m n : Word) : w &&& (m ||| n) = 0 ↔ w &&& m = 0 ∧ w &&& n = 0 := by
  rw [BitVec.and_or_distrib_left]
  exact BitVec.or_eq_zero_iff

/-- The bits of the named operand fields. -/
def fieldsMask (sb sa bb ba : Bool) : Word :=
  (if sb then 0x200 else 0) ||| (if sa then 0x100 else 0) ||| (if bb then 0x0C0 else 0) ||| (if ba then 0x030 else 0)

theorem and_fieldsMask (w : Word) (sb sa bb ba : Bool) :
    w &&& fieldsMask sb sa bb ba = 0 ↔
      (sb → fieldSb w = 0) ∧ (sa → fieldSa w = 0) ∧ (bb → fieldBb w = 0) ∧ (ba → fieldBa w = 0) := by
  have hsb : w &&& 0x200 = 0 ↔ fieldSb w = 0 := and_fieldMask_eq_zero (by decide)
  have hsa : w &&& 0x100 = 0 ↔ fieldSa w = 0 := and_fieldMask_eq_zero (by decide)
  have hbb : w &&& 0x0C0 = 0 ↔ fieldBb w = 0 := and_fieldMask_eq_zero (by decide)
  have hba : w &&& 0x030 = 0 ↔ fieldBa w = 0 := and_fieldMask_eq_zero (by decide)
  have hopt : ∀ (b : Bool) (m : Word), w &&& (if b then m else 0) = 0 ↔ (b → w &&& m = 0) := by
    intro b m; cases b <;> simp
  simp only [fieldsMask, and_or_eq_zero_iff, hopt, hsb, hsa, hbb, hba, and_assoc]

theorem exists_ifUnusedZero_eq_ok {b : Bool} {i : Instr} : (∃ j, ifUnusedZero b i = .ok j) ↔ b = true := by
  simp [ifUnusedZero_eq_ok]

/-- The legal words: no reserved opcode, and no 1 in RSV or in a field the opcode does not use. -/
theorem exists_decode_eq_ok_iff (w : Word) :
    (∃ i, decode w = .ok i) ↔
      w.toNat % 16 ≤ 0xA ∧ w &&& (0xFFFFFC00 ||| unusedFields (w.toNat % 16)) = 0 := by
  rw [and_or_eq_zero_iff, ← fieldRsv_eq_zero]
  by_cases hrsv : fieldRsv w = 0
  case neg => simp only [decode_reservedField hrsv, hrsv, false_and, and_false, reduceCtorEq, exists_false]
  unfold decode
  simp only [hrsv, ne_eq, not_true_eq_false, if_false, true_and, fieldOpc_toNat]
  split
  case h_12 =>
    have hreserved : ¬ w.toNat % 16 ≤ 0xA := by
      simp only [imp_false] at *
      omega
    simp [hreserved]
  all_goals rw [exists_ifUnusedZero_eq_ok]
  case h_1 hopc | h_10 hopc | h_11 hopc =>
    simpa [hopc, unusedFields, fieldsMask, and_assoc] using (and_fieldsMask w true true true true).symm
  case h_2 hopc | h_3 hopc | h_9 hopc =>
    simpa [hopc, unusedFields, fieldsMask, and_assoc] using (and_fieldsMask w true true false false).symm
  case h_4 hopc | h_6 hopc =>
    simpa [hopc, unusedFields, fieldsMask, and_assoc] using (and_fieldsMask w false true true false).symm
  case h_5 hopc | h_7 hopc =>
    simpa [hopc, unusedFields, fieldsMask, and_assoc] using (and_fieldsMask w true false false true).symm
  case h_8 hopc =>
    simpa [hopc, unusedFields, fieldsMask, and_assoc] using (and_fieldsMask w false false true true).symm

/-- Settles O3: with a defined opcode, the legal words are those whose RSV and unused fields are 0. -/
theorem unusedFieldsMustBeZero : Obligations.UnusedFieldsMustBeZero := by
  intro w hopc
  have hlegal := exists_decode_eq_ok_iff w
  rw [and_iff_right hopc] at hlegal
  rw [ne_eq, ← hlegal]
  cases decode w <;> simp

/-! ### The rows of the opcode map (R93) -/

/-- The row of an opcode: its mask is OPC, RSV and the fields that the opcode does not use. -/
def rowOf (opc : Nat) : Word × Word := (BitVec.ofNat 32 opc, 0xFFFFFC0F ||| unusedFields opc)

theorem opcodeRows_eq : opcodeRows = (List.range 11).map rowOf := by decide

theorem matchMask_eq_rowOf (i : Instr) : matchMask i = rowOf ((encode i).toNat % 16) := by
  rw [← fieldOpc_toNat]
  cases i <;> simp only [encode, fieldOpc_packC] <;> rfl

/-- The word of every command matches its row. -/
theorem encode_and_matchMask (i : Instr) : encode i &&& (matchMask i).2 = (matchMask i).1 := by
  cases i with
  | nop => exact Laws.EncodeMatches.nop
  | menc ba bb => exact Laws.EncodeMatches.menc ba bb
  | mdec ba bb => exact Laws.EncodeMatches.mdec ba bb
  | bmod ba sb => exact Laws.EncodeMatches.bmod ba sb
  | bdem sa bb => exact Laws.EncodeMatches.bdem sa bb
  | qmod ba sb => exact Laws.EncodeMatches.qmod ba sb
  | qdem sa bb => exact Laws.EncodeMatches.qdem sa bb
  | awgn sa sb => exact Laws.EncodeMatches.awgn sa sb
  | berc ba bb => exact Laws.EncodeMatches.berc ba bb
  | seed => exact Laws.EncodeMatches.seed
  | clr => exact Laws.EncodeMatches.clr

/-- A row's mask covers OPC, RSV and the unused fields; its match is the opcode, with zeros in the others. -/
theorem rowOf_fields : ∀ k < 11, (rowOf k).2 &&& 0xF = 0xF ∧ ((rowOf k).1 &&& 0xF).toNat = k ∧
    (rowOf k).2 &&& (0xFFFFFC00 ||| unusedFields k) = 0xFFFFFC00 ||| unusedFields k ∧
    (rowOf k).1 &&& (0xFFFFFC00 ||| unusedFields k) = 0 := by decide

/-- A word that matches a row has its opcode, and zeros in RSV and in the unused fields. -/
theorem opcode_and_unused_of_row {w : Word} {k : Nat} (hk : k < 11) (h : w &&& (rowOf k).2 = (rowOf k).1) :
    w.toNat % 16 = k ∧ w &&& (0xFFFFFC00 ||| unusedFields k) = 0 := by
  obtain ⟨hopc, hmatch, hunused, hzero⟩ := rowOf_fields k hk
  constructor
  · calc w.toNat % 16 = (w &&& 0xF).toNat := by
          rw [BitVec.toNat_and]; exact (Nat.and_two_pow_sub_one_eq_mod _ 4).symm
      _ = k := by rw [← hopc, ← BitVec.and_assoc, h, hmatch]
  · rw [← hunused, ← BitVec.and_assoc, h, hzero]

/-- Settles O2: a word that matches a row is legal and its command has the row's opcode; a command's word matches the
command's row. -/
theorem decodeFollowsTheOpcodeMap : Obligations.DecodeFollowsTheOpcodeMap := by
  intro w r hr
  constructor
  · intro hmatch
    rw [opcodeRows_eq] at hr
    obtain ⟨k, hk, rfl⟩ := List.mem_map.mp hr
    rw [List.mem_range] at hk
    obtain ⟨rfl, hunused⟩ := opcode_and_unused_of_row hk hmatch
    obtain ⟨i, hi⟩ := (exists_decode_eq_ok_iff w).mpr ⟨Nat.le_of_lt_succ hk, hunused⟩
    exact ⟨i, hi, by rw [matchMask_eq_rowOf, encode_of_decode hi]⟩
  · rintro ⟨i, hi, rfl⟩
    rw [← encode_of_decode hi]
    exact encode_and_matchMask i

/-! ### Listed words (R98 and the test vectors) -/

/-- Settles O4. A listed legal word is the word of the listed command; each illegal one is refused for its cause. -/
theorem vectorWordsDecodeAsListed : Obligations.VectorWordsDecodeAsListed :=
  ⟨decode_encode (.menc .src .coded), decode_encode (.menc .recov .recov), decode_encode (.bmod .coded .rx),
    decode_encode (.bdem .rx .demod), decode_encode (.awgn .rx .rx), decode_encode (.berc .src .recov),
    by decide, by decide, decode_reservedField (by decide)⟩

/-- Settles O5, each row by running the assembler and the encoder. -/
theorem pseudoInstructionsExpandAsListed : Obligations.PseudoInstructionsExpandAsListed := by
  refine ⟨⟨?_, rfl⟩, ⟨?_, rfl⟩, ⟨?_, rfl⟩, ⟨?_, rfl⟩, ⟨?_, rfl⟩, ⟨?_, rfl⟩, ⟨?_, rfl⟩, ⟨?_, rfl⟩⟩ <;> decide

end Sys2Proof

/-! PROOFS. Manchester line coding (spec/41_line_coding.md): MENC and MDEC with their errors, results and frames, and
decoding what was encoded; the lengths that MENC, BMOD and QMOD leave, and the exact powers of signals of ±1.0. -/

namespace Sys2Proof.Machine

open Sys2Proof.Safety

/-! ### Errors of MENC and MDEC (R193, R195) -/

theorem exec_menc_srcLen {s : State} {ba bb : BitSel} (h : s.params.bitCap < s.bitLen ba) :
    exec (.menc ba bb) s = raiseError .srcLen s := by
  simp [exec, execMenc, bitsFit_false.mpr h]

theorem exec_menc_dstCap {s : State} {ba bb : BitSel} (h1 : s.bitLen ba ≤ s.params.bitCap)
    (h2 : s.params.bitCap < 2 * s.bitLen ba) : exec (.menc ba bb) s = raiseError .dstCap s := by
  simp [exec, execMenc, (s.bitsFit_iff ba).mpr h1, h2]

theorem exec_mdec_srcLen {s : State} {ba bb : BitSel} (h : s.params.bitCap < s.bitLen ba) :
    exec (.mdec ba bb) s = raiseError .srcLen s := by
  simp [exec, execMdec, bitsFit_false.mpr h]

/-! ### Coded and decoded bits (R110, R112) -/

theorem State.bits_getElem? (s : State) {b : BitSel} {i : Nat} (h : i < s.bitLen b) :
    (s.bits b)[i]? = some (s.bitCell b i) := by
  rw [List.getElem?_eq_getElem (by rwa [State.bits_length]), State.bits_getElem]

theorem manchesterEncode_bits_length (s : State) (b : BitSel) :
    (manchesterEncode (s.bits b)).length = 2 * s.bitLen b := by
  rw [manchesterEncode_length, State.bits_length]

theorem manchesterDecode_bits_length (s : State) (b : BitSel) :
    (manchesterDecode (s.bits b)).length = s.bitLen b / 2 := by
  rw [manchesterDecode_length, State.bits_length]

/-- Each source bit is stored as itself and its complement, whatever buffer it goes to. -/
theorem bitCell_putBits_manchesterEncode (s : State) {ba : BitSel} (bb : BitSel) {i : Nat} (h : i < s.bitLen ba) :
    (s.putBits bb (manchesterEncode (s.bits ba))).bitCell bb (2 * i) = s.bitCell ba i ∧
      (s.putBits bb (manchesterEncode (s.bits ba))).bitCell bb (2 * i + 1) = !s.bitCell ba i := by
  obtain ⟨heven, hodd⟩ := manchesterEncode_getElem? (s.bits ba) i
  rw [s.bits_getElem? h] at heven hodd
  simp [State.bitCell_putBits, heven, hodd]

/-- Each stored bit is 1 exactly for a source pair 10, whatever buffer it goes to. -/
theorem bitCell_putBits_manchesterDecode (s : State) {ba : BitSel} (bb : BitSel) {i : Nat} (h : i < s.bitLen ba / 2) :
    (s.putBits bb (manchesterDecode (s.bits ba))).bitCell bb i =
      (s.bitCell ba (2 * i) && !s.bitCell ba (2 * i + 1)) := by
  have hdec := manchesterDecode_getElem? (s.bits ba) i (by rw [State.bits_length]; omega)
  rw [s.bits_getElem? (by omega), s.bits_getElem? (by omega)] at hdec
  simp [State.bitCell_putBits, hdec]

/-- Settles O18: the word matches its row of the opcode map, each error has its check, and the result and the frame are
those of the stored code. -/
theorem mencWritesTheManchesterCode : Obligations.MencWritesTheManchesterCode := by
  refine fun s ba bb => ⟨encode_and_matchMask (.menc ba bb), fun h => ?_, fun h1 h2 => ?_, fun h1 h2 => ?_⟩
  · rw [exec_menc_srcLen h]; exact raiseError_failsWith _ s
  · rw [exec_menc_dstCap h1 h2]; exact raiseError_failsWith _ s
  · have hframe := onlyBitsStored_putBits s bb (manchesterEncode (s.bits ba))
    rw [manchesterEncode_bits_length] at hframe
    refine ⟨_, exec_menc h1 h2, ?_, fun i hi => bitCell_putBits_manchesterEncode s bb hi, hframe⟩
    rw [State.bitBuf_putBits, manchesterEncode_bits_length]

/-- Settles O19, as O18; an odd last bit is in no pair, and the length halves without it. -/
theorem mdecReadsPairsOfBits : Obligations.MdecReadsPairsOfBits := by
  refine fun s ba bb => ⟨encode_and_matchMask (.mdec ba bb), fun h => ?_, fun h => ?_⟩
  · rw [exec_mdec_srcLen h]; exact raiseError_failsWith _ s
  · have hframe := onlyBitsStored_putBits s bb (manchesterDecode (s.bits ba))
    rw [manchesterDecode_bits_length] at hframe
    refine ⟨_, exec_mdec h, ?_, fun i hi => ?_, hframe⟩
    · rw [State.bitBuf_putBits, manchesterDecode_bits_length]
    · rw [bitCell_putBits_manchesterDecode s bb hi]; simp

/-! ### Lengths within a legal capacity (R111, R113) -/

theorem bitCap_le_of_wellFormed {p : Params} (h : p.wellFormed = true) : p.bitCap ≤ 65536 := by
  simp only [Params.wellFormed, Bool.and_eq_true, decide_eq_true_eq] at h
  omega

theorem State.bitLen_lt (s : State) (b : BitSel) : s.bitLen b < 2 ^ 32 := (s.bitBuf b).len.isLt

/-- A code that fits a legal capacity has a length that the length register holds. -/
theorem manchesterEncode_bits_length_lt {s : State} {b : BitSel} (hp : s.params.wellFormed = true)
    (h : 2 * s.bitLen b ≤ s.params.bitCap) : (manchesterEncode (s.bits b)).length < 2 ^ 32 := by
  have := bitCap_le_of_wellFormed hp
  rw [manchesterEncode_bits_length]
  omega

/-- Settles O20: `c` holds the code of the source, whose length its register holds, and `d` what decoding the code
gives. -/
theorem manchesterRoundTrip : Obligations.ManchesterRoundTrip := by
  intro s a c d hp h
  have hlen := manchesterEncode_bits_length_lt hp h
  have hsrc : s.bitLen a < 2 ^ 32 := s.bitLen_lt a
  refine ⟨_, _, exec_menc (by omega) h, exec_mdec ?_, ?_⟩
  · rwa [State.bitLen_putBits s c _ hlen, manchesterEncode_bits_length, State.putBits_params]
  · rw [State.bits_putBits s c _ hlen, manchesterDecode_encode, State.bits_putBits _ d _ (by rwa [State.bits_length])]

/-! ### Exact powers of signals of ±1.0 (R121, R131, R141) -/

/-- A mean square that is a binary64 value is the power. -/
theorem finitePower_of_sumSquares {xs : List F64} {n m : Nat} (hn : n ≠ 0) (hm : m < infMag)
    (h : sumSquares xs = magValue m * (n <<< 1074)) : finitePower xs n = ofSignMag false m := by
  have hpos : 0 < n <<< 1074 := by rw [Nat.shiftLeft_eq]; positivity
  rw [finitePower, h, ← pow_one (magValue m), roundRoot_exact one_ne_zero hpos hm]

/-- Every component is +1.0 or -1.0. -/
def UnitSignal (xs : List F64) : Prop := ∀ x ∈ xs, x = plusOne ∨ x = minusOne

theorem UnitSignal.sumSquares_eq {xs : List F64} (h : UnitSignal xs) :
    sumSquares xs = xs.length * (1 <<< 1074) ^ 2 := by
  have hsq : ∀ x ∈ xs, magValue (magnitude x) ^ 2 = (1 <<< 1074) ^ 2 := fun x hx => by
    have hunit : magValue (magnitude x) = 1 <<< 1074 := by rcases h x hx with rfl | rfl <;> decide
    rw [hunit]
  rw [sumSquares, List.map_congr_left hsq, List.map_const', List.sum_replicate, smul_eq_mul]

theorem UnitSignal.isFinite {xs : List F64} (h : UnitSignal xs) : ∀ x ∈ xs, isFinite x = true := by
  intro x hx
  rcases h x hx with rfl | rfl <;> decide

theorem awgnScale_of_isFinite {xs : List F64} (h : ∀ x ∈ xs, isFinite x = true) (n : Nat) (snr : Int) :
    awgnScale xs n snr = (finitePower xs n, finiteSigma xs n snr) := by
  have hnan : xs.any isNaN = false := List.any_eq_false.mpr fun x hx => by simp [isNaN_of_isFinite (h x hx)]
  have hinf : xs.any isInf = false := List.any_eq_false.mpr fun x hx => by simp [isInf_of_isFinite (h x hx)]
  simp [awgnScale, hnan, hinf]

theorem shiftLeft_eq_mul_one_shiftLeft (n k : Nat) : n <<< k = n * (1 <<< k) := by
  rw [Nat.shiftLeft_eq, Nat.one_shiftLeft]

/-- Symbols of `c` components ±1.0 each have power `c`, where `c` is a binary64 value, here of magnitude `m`. -/
theorem UnitSignal.power_eq {xs : List F64} (h : UnitSignal xs) {n c m : Nat} (snr : Int) (hn : n ≠ 0)
    (hlen : xs.length = c * n) (hm : m < infMag) (hc : magValue m = c * (1 <<< 1074)) :
    (awgnScale xs n snr).1 = ofSignMag false m := by
  rw [awgnScale_of_isFinite h.isFinite]
  refine finitePower_of_sumSquares hn hm ?_
  rw [h.sumSquares_eq, hlen, hc, shiftLeft_eq_mul_one_shiftLeft n]
  generalize 1 <<< 1074 = unit
  ring

theorem UnitSignal.power_eq_one {xs : List F64} (h : UnitSignal xs) {n : Nat} (snr : Int) (hn : n ≠ 0)
    (hlen : xs.length = n) : (awgnScale xs n snr).1 = 0x3FF0000000000000 :=
  h.power_eq snr hn (by rw [hlen, one_mul]) (m := 0x3FF0000000000000) (by decide) (by decide)

theorem UnitSignal.power_eq_two {xs : List F64} (h : UnitSignal xs) {n : Nat} (snr : Int) (hn : n ≠ 0)
    (hlen : xs.length = 2 * n) : (awgnScale xs n snr).1 = 0x4000000000000000 :=
  h.power_eq snr hn hlen (m := 0x4000000000000000) (by decide) (by decide)

theorem unitSignal_map_bpskSymbol (bs : List Bool) : UnitSignal (bs.map bpskSymbol) := by
  refine List.forall_mem_map.mpr fun b _ => ?_
  cases b
  · exact .inr rfl
  · exact .inl rfl

theorem unitSignal_map_qpskComponent (bs : List Bool) : UnitSignal (bs.map qpskComponent) := by
  refine List.forall_mem_map.mpr fun b _ => ?_
  cases b
  · exact .inl rfl
  · exact .inr rfl

/-- Settles O28: the stored code or signal is what the buffer then holds, with its length; a modulated signal is one of
±1.0, with one component a symbol for BMOD and two for QMOD. -/
theorem lengthLawsOfEncodersAndModulators : Obligations.LengthLawsOfEncodersAndModulators := by
  intro s t ba bb sb snr hp
  have hlt : s.bitLen ba < 2 ^ 32 := s.bitLen_lt ba
  refine ⟨fun hx h => ?_, fun hx h1 h2 => ?_, fun hx h1 h2 => ?_⟩
  · obtain rfl := Host.Outcome.next.inj ((exec_menc (by omega) h).symm.trans hx)
    rw [State.bitLen_putBits _ _ _ (manchesterEncode_bits_length_lt hp h), manchesterEncode_bits_length]
  · obtain rfl := Host.Outcome.next.inj ((exec_bmod h1 h2).symm.trans hx)
    have hlen : ((s.bits ba).map bpskSymbol).length = s.bitLen ba := by rw [List.length_map, State.bits_length]
    rw [State.symbols_putSamples _ _ _ _ _ hlt,
      State.signal_putSamples _ _ _ _ _ hlt (by rw [hlen]; exact (mul_one _).symm)]
    exact ⟨rfl, fun hpos => (unitSignal_map_bpskSymbol _).power_eq_one snr hpos.ne' hlen⟩
  · obtain rfl := Host.Outcome.next.inj ((exec_qmod h1 h2).symm.trans hx)
    have hlen : ((padEven (s.bits ba)).map qpskComponent).length = 2 * ((s.bitLen ba + 1) / 2) := by
      rw [List.length_map, padEven_length, State.bits_length]
    have hsym : (s.bitLen ba + 1) / 2 < 2 ^ 32 := by omega
    rw [State.symbols_putSamples _ _ _ _ _ hsym,
      State.signal_putSamples _ _ _ _ _ hsym (by rw [hlen]; exact Nat.mul_comm _ _)]
    exact ⟨rfl, fun hpos => (unitSignal_map_qpskComponent _).power_eq_two snr (by omega) hlen⟩

end Sys2Proof.Machine

/-! PROOFS. BPSK (spec/42_bpsk.md): BMOD and BDEM with their errors, results and frames, slicing what was modulated, and
the polarity opposite to QPSK's. -/

namespace Sys2Proof.Machine

open Sys2Proof.Safety

/-! ### Components of a signal by its shape (R25) -/

theorem State.components_of_scalar {s : State} {p : SampSel} (h : (s.sampBuf p).shape = .scalar) :
    s.components p = s.symbols p := by rw [State.components, h]; exact Nat.mul_one _

theorem State.components_of_pair {s : State} {p : SampSel} (h : (s.sampBuf p).shape = .pair) :
    s.components p = 2 * s.symbols p := by rw [State.components, h]; exact Nat.mul_comm _ _

/-! ### Errors of BMOD and BDEM (R193 to R195) -/

theorem exec_bmod_srcLen {s : State} {ba : BitSel} {sb : SampSel} (h : s.params.bitCap < s.bitLen ba) :
    exec (.bmod ba sb) s = raiseError .srcLen s := by
  simp [exec, execBmod, bitsFit_false.mpr h]

theorem exec_bmod_dstCap {s : State} {ba : BitSel} {sb : SampSel} (h1 : s.bitLen ba ≤ s.params.bitCap)
    (h2 : s.params.sampCap < s.bitLen ba) : exec (.bmod ba sb) s = raiseError .dstCap s := by
  simp [exec, execBmod, (s.bitsFit_iff ba).mpr h1, h2]

theorem exec_bdem_srcLen {s : State} {sa : SampSel} {bb : BitSel} (h : s.params.sampCap < s.components sa) :
    exec (.bdem sa bb) s = raiseError .srcLen s := by
  simp [exec, execBdem, signalFits_false.mpr h]

theorem exec_bdem_shape {s : State} {sa : SampSel} {bb : BitSel} (h : s.components sa ≤ s.params.sampCap)
    (hs : (s.sampBuf sa).shape = .pair) : exec (.bdem sa bb) s = raiseError .shape s := by
  simp [exec, execBdem, (s.signalFits_iff sa).mpr h, hs]

theorem exec_bdem_dstCap {s : State} {sa : SampSel} {bb : BitSel} (h1 : s.components sa ≤ s.params.sampCap)
    (hs : (s.sampBuf sa).shape = .scalar) (h2 : s.params.bitCap < s.symbols sa) :
    exec (.bdem sa bb) s = raiseError .dstCap s := by
  simp [exec, execBdem, (s.signalFits_iff sa).mpr h1, hs, h2]

/-! ### A modulated signal (R120) -/

/-- The state that a successful BMOD leaves, by `exec_bmod`. -/
def State.bmod (s : State) (ba : BitSel) (sb : SampSel) : State :=
  s.putSamples sb ((s.bits ba).map bpskSymbol) (s.bitLen ba) .scalar

section
variable (s : State) (ba : BitSel) (sb : SampSel)

theorem length_map_bits {α : Type} (f : Bool → α) : ((s.bits ba).map f).length = s.bitLen ba := by
  rw [List.length_map, State.bits_length]

@[simp] theorem State.params_bmod : (s.bmod ba sb).params = s.params := State.putSamples_params ..

@[simp] theorem State.shape_bmod : ((s.bmod ba sb).sampBuf sb).shape = .scalar := by
  rw [State.bmod, State.sampBuf_putSamples]

@[simp] theorem State.symbols_bmod : (s.bmod ba sb).symbols sb = s.bitLen ba :=
  State.symbols_putSamples _ _ _ _ _ (s.bitLen_lt ba)

@[simp] theorem State.components_bmod : (s.bmod ba sb).components sb = s.bitLen ba := by
  rw [State.components_of_scalar (s.shape_bmod ba sb), State.symbols_bmod]

theorem State.signal_bmod : (s.bmod ba sb).signal sb = (s.bits ba).map bpskSymbol :=
  State.signal_putSamples _ _ _ _ _ (s.bitLen_lt ba) ((length_map_bits s ba _).trans (Nat.mul_one _).symm)

theorem State.sampWord_bmod {k : Nat} (hk : k < s.bitLen ba) :
    (s.bmod ba sb).sampWord sb k = bpskSymbol (s.bitCell ba k) := by
  have hlen : k < ((s.bits ba).map bpskSymbol).length := by rwa [length_map_bits]
  rw [State.bmod, State.sampWord_putSamples_lt _ _ _ _ hlen, List.getElem_map, State.bits_getElem]

theorem onlySamplesStored_bmod : OnlySamplesStored sb (s.bitLen ba) s (s.bmod ba sb) := by
  have hframe := onlySamplesStored_putSamples s sb ((s.bits ba).map bpskSymbol) (s.bitLen ba) .scalar
  rwa [length_map_bits] at hframe

end

/-- Settles O21: the word matches its row of the opcode map, each error has its check, and the result and the frame are
those of the stored signal. -/
theorem bmodWritesOneSymbolPerBit : Obligations.BmodWritesOneSymbolPerBit := by
  refine fun s ba sb => ⟨encode_and_matchMask (.bmod ba sb), fun h => ?_, fun h1 h2 => ?_, fun h1 h2 => ?_⟩
  · rw [exec_bmod_srcLen h]; exact raiseError_failsWith _ s
  · rw [exec_bmod_dstCap h1 h2]; exact raiseError_failsWith _ s
  · refine ⟨s.bmod ba sb, exec_bmod h1 h2, ?_, s.shape_bmod ba sb, fun k hk => s.sampWord_bmod ba sb hk,
      onlySamplesStored_bmod s ba sb, State.putSamples_results .., State.putSamples_gen ..⟩
    rw [State.bmod, State.sampBuf_putSamples]

/-! ### Sliced bits (R122) -/

theorem length_map_signal {α : Type} (s : State) (p : SampSel) (f : F64 → α) :
    ((s.signal p).map f).length = s.components p := by
  rw [List.length_map, State.signal_length]

/-- Each bit stored is that of the sample of its index, by whatever slicer. -/
theorem bitCell_putBits_map_signal (s : State) {sa : SampSel} (bb : BitSel) (slice : F64 → Bool) {k : Nat}
    (hk : k < s.components sa) :
    (s.putBits bb ((s.signal sa).map slice)).bitCell bb k = slice (s.sampWord sa k) := by
  have hlen : k < ((s.signal sa).map slice).length := by rwa [length_map_signal]
  rw [State.bitCell_putBits_lt _ _ hlen, List.getElem_map, State.signal_getElem]

/-- Settles O22, as O21; a scalar signal has one component, so one bit, a symbol. -/
theorem bdemSlicesAtZero : Obligations.BdemSlicesAtZero := by
  refine fun s sa bb => ⟨encode_and_matchMask (.bdem sa bb), fun h => ?_, fun h hs => ?_, fun h1 hs h2 => ?_,
    fun h1 hs h2 => ?_⟩
  · rw [exec_bdem_srcLen h]; exact raiseError_failsWith _ s
  · rw [exec_bdem_shape h hs]; exact raiseError_failsWith _ s
  · rw [exec_bdem_dstCap (by rwa [State.components_of_scalar hs]) hs h2]; exact raiseError_failsWith _ s
  · have hlen : ((s.signal sa).map bpskSlice).length = s.symbols sa := by
      rw [length_map_signal, State.components_of_scalar hs]
    have hframe := onlyBitsStored_putBits s bb ((s.signal sa).map bpskSlice)
    rw [hlen] at hframe
    refine ⟨_, exec_bdem hs h1 h2, ?_, fun k hk => ?_, hframe⟩
    · rw [State.bitBuf_putBits, hlen, State.symbols, BitVec.ofNat_toNat, BitVec.setWidth_eq]
    · exact bitCell_putBits_map_signal s bb bpskSlice (by rwa [State.components_of_scalar hs])

/-! ### Slicing a modulated signal (R123, R124) -/

theorem bpskSlice_bpskSymbol (b : Bool) : bpskSlice (bpskSymbol b) = b := by cases b <;> decide

theorem qpskSlice_bpskSymbol (b : Bool) : qpskSlice (bpskSymbol b) = !b := congrArg not (bpskSlice_bpskSymbol b)

/-- Slicing the symbols of a buffer's bits leaves what the slicer makes of each bit. -/
theorem bits_putBits_map_bpskSymbol (s t : State) (a d : BitSel) (slice : F64 → Bool) :
    (t.putBits d (((s.bits a).map bpskSymbol).map slice)).bits d = (s.bits a).map (slice ∘ bpskSymbol) := by
  rw [List.map_map, State.bits_putBits _ _ _ (by rw [length_map_bits]; exact s.bitLen_lt a)]

/-- Settles O23: `p` holds the symbols of the source, each of which is sliced to its bit. -/
theorem bpskRoundTrip : Obligations.BpskRoundTrip := by
  intro s a d p _ hbit hsamp
  have hdem := exec_bdem (bb := d) (s.shape_bmod a p) (by simpa using hsamp) (by simpa using hbit)
  have hid : bpskSlice ∘ bpskSymbol = id := funext bpskSlice_bpskSymbol
  refine ⟨s.bmod a p, _, exec_bmod hbit hsamp, hdem, ?_⟩
  rw [State.signal_bmod, bits_putBits_map_bpskSymbol, hid, List.map_id]

/-- The host sets the shape of `p` to 1 and then its length to `n` symbols. -/
def hostMakesPairs (p : SampSel) (n : Nat) (t : State) : State :=
  writeReg (.sampLen p) (BitVec.ofNat 32 n) (writeReg (.sampShape p) 1 t)

section
variable (p : SampSel) (n : Nat) (t : State)

@[simp] theorem params_hostMakesPairs : (hostMakesPairs p n t).params = t.params := by simp [hostMakesPairs, writeReg]

theorem powerOn_hostMakesPairs : (hostMakesPairs p n t).powerOn = t.powerOn := by simp [hostMakesPairs, writeReg]

theorem sampBuf_hostMakesPairs :
    (hostMakesPairs p n t).sampBuf p = { t.sampBuf p with len := BitVec.ofNat 32 n, shape := .pair } := by
  simp [hostMakesPairs, writeReg, Shape.ofBit]

@[simp] theorem shape_hostMakesPairs : ((hostMakesPairs p n t).sampBuf p).shape = .pair := by
  rw [sampBuf_hostMakesPairs]

theorem sampWord_hostMakesPairs (j : Nat) : (hostMakesPairs p n t).sampWord p j = t.sampWord p j := by
  simp only [State.sampWord, State.sampHalf, sampBuf_hostMakesPairs, powerOn_hostMakesPairs]

end

section
variable {p : SampSel} {n : Nat} {t : State}

/-- When twice the new length is the number of components, they are the same ones: two to a symbol. -/
theorem components_hostMakesPairs (h : 2 * n = t.components p) (hn : n < 2 ^ 32) :
    (hostMakesPairs p n t).components p = t.components p := by
  rw [State.components_of_pair (shape_hostMakesPairs p n t), State.symbols, sampBuf_hostMakesPairs, BitVec.toNat_ofNat,
    Nat.mod_eq_of_lt hn, h]

theorem signal_hostMakesPairs (h : 2 * n = t.components p) (hn : n < 2 ^ 32) :
    (hostMakesPairs p n t).signal p = t.signal p := by
  rw [State.signal, components_hostMakesPairs h hn, funext (sampWord_hostMakesPairs p n t), State.signal]

end

/-- Settles O27: taken in pairs, the signal keeps its components, and QDEM slices each to the inverse of its bit. -/
theorem bpskAndQpskHaveOppositePolarity : Obligations.BpskAndQpskHaveOppositePolarity := by
  intro s a d p _ heven hbit hsamp
  have hhalf : 2 * (s.bitLen a / 2) = (s.bmod a p).components p := by rw [State.components_bmod]; omega
  have hlt : s.bitLen a / 2 < 2 ^ 32 := (Nat.div_le_self _ _).trans_lt (s.bitLen_lt a)
  have hshape := shape_hostMakesPairs p (s.bitLen a / 2) (s.bmod a p)
  have hsym : 2 * (hostMakesPairs p (s.bitLen a / 2) (s.bmod a p)).symbols p = s.bitLen a := by
    rw [← State.components_of_pair hshape, components_hostMakesPairs hhalf hlt, State.components_bmod]
  have hdem := exec_qdem (bb := d) hshape (by simpa [hsym] using hsamp) (by simpa [hsym] using hbit)
  have hinv : qpskSlice ∘ bpskSymbol = fun b => !b := funext qpskSlice_bpskSymbol
  refine ⟨s.bmod a p, _, exec_bmod hbit hsamp, hdem, ?_⟩
  rw [signal_hostMakesPairs hhalf hlt, State.signal_bmod, bits_putBits_map_bpskSymbol, hinv]

end Sys2Proof.Machine

/-! PROOFS. QPSK (spec/43_qpsk.md): QMOD and QDEM with their errors, results and frames, and slicing what was modulated,
the pad of an odd length included. -/

namespace Sys2Proof.Machine

open Sys2Proof.Safety

/-! ### Errors of QMOD and QDEM (R193 to R195) -/

theorem exec_qmod_srcLen {s : State} {ba : BitSel} {sb : SampSel} (h : s.params.bitCap < s.bitLen ba) :
    exec (.qmod ba sb) s = raiseError .srcLen s := by
  simp [exec, execQmod, bitsFit_false.mpr h]

theorem exec_qmod_dstCap {s : State} {ba : BitSel} {sb : SampSel} (h1 : s.bitLen ba ≤ s.params.bitCap)
    (h2 : s.params.sampCap < 2 * ((s.bitLen ba + 1) / 2)) : exec (.qmod ba sb) s = raiseError .dstCap s := by
  simp [exec, execQmod, (s.bitsFit_iff ba).mpr h1, h2]

theorem exec_qdem_srcLen {s : State} {sa : SampSel} {bb : BitSel} (h : s.params.sampCap < s.components sa) :
    exec (.qdem sa bb) s = raiseError .srcLen s := by
  simp [exec, execQdem, signalFits_false.mpr h]

theorem exec_qdem_shape {s : State} {sa : SampSel} {bb : BitSel} (h : s.components sa ≤ s.params.sampCap)
    (hs : (s.sampBuf sa).shape = .scalar) : exec (.qdem sa bb) s = raiseError .shape s := by
  simp [exec, execQdem, (s.signalFits_iff sa).mpr h, hs]

theorem exec_qdem_dstCap {s : State} {sa : SampSel} {bb : BitSel} (h1 : s.components sa ≤ s.params.sampCap)
    (hs : (s.sampBuf sa).shape = .pair) (h2 : s.params.bitCap < 2 * s.symbols sa) :
    exec (.qdem sa bb) s = raiseError .dstCap s := by
  simp [exec, execQdem, (s.signalFits_iff sa).mpr h1, hs, h2]

/-! ### The pad (R130) -/

theorem padEven_of_even {xs : List Bool} (h : xs.length % 2 = 0) : padEven xs = xs := if_neg (by omega)

theorem padEven_of_odd {xs : List Bool} (h : ¬ xs.length % 2 = 0) : padEven xs = xs ++ [false] := if_pos (by omega)

/-- A padded bit string continues the string with 0. -/
theorem padEven_getElem {xs : List Bool} {j : Nat} (h : j < (padEven xs).length) :
    (padEven xs)[j] = if hj : j < xs.length then xs[j] else false := by
  by_cases heven : xs.length % 2 = 0
  · simp only [padEven_of_even heven] at h ⊢
    rw [dif_pos h]
  · simp only [padEven_of_odd heven, List.getElem_append, List.getElem_singleton]

theorem State.padEven_bits_length (s : State) (b : BitSel) :
    (padEven (s.bits b)).length = 2 * ((s.bitLen b + 1) / 2) := by
  rw [padEven_length, State.bits_length]

theorem State.padEven_bits_getElem (s : State) {b : BitSel} {j : Nat} (h : j < (padEven (s.bits b)).length) :
    (padEven (s.bits b))[j] = (decide (j < s.bitLen b) && s.bitCell b j) := by
  rw [padEven_getElem]
  by_cases hj : j < s.bitLen b
  · rw [dif_pos (by rwa [State.bits_length]), State.bits_getElem, decide_eq_true hj, Bool.true_and]
  · rw [dif_neg (by rwa [State.bits_length]), decide_eq_false hj, Bool.false_and]

/-! ### A modulated signal (R130) -/

/-- The state that a successful QMOD leaves, by `exec_qmod`. -/
def State.qmod (s : State) (ba : BitSel) (sb : SampSel) : State :=
  s.putSamples sb ((padEven (s.bits ba)).map qpskComponent) ((s.bitLen ba + 1) / 2) .pair

section
variable (s : State) (ba : BitSel) (sb : SampSel)

theorem length_map_padEven_bits : ((padEven (s.bits ba)).map qpskComponent).length = 2 * ((s.bitLen ba + 1) / 2) := by
  rw [List.length_map, State.padEven_bits_length]

theorem State.pairCount_lt : (s.bitLen ba + 1) / 2 < 2 ^ 32 := by
  have := s.bitLen_lt ba
  omega

@[simp] theorem State.params_qmod : (s.qmod ba sb).params = s.params := State.putSamples_params ..

@[simp] theorem State.shape_qmod : ((s.qmod ba sb).sampBuf sb).shape = .pair := by
  rw [State.qmod, State.sampBuf_putSamples]

@[simp] theorem State.symbols_qmod : (s.qmod ba sb).symbols sb = (s.bitLen ba + 1) / 2 :=
  State.symbols_putSamples _ _ _ _ _ (s.pairCount_lt ba)

theorem State.signal_qmod : (s.qmod ba sb).signal sb = (padEven (s.bits ba)).map qpskComponent :=
  State.signal_putSamples _ _ _ _ _ (s.pairCount_lt ba) ((length_map_padEven_bits s ba).trans (Nat.mul_comm _ _))

theorem State.sampWord_qmod {j : Nat} (hj : j < 2 * ((s.bitLen ba + 1) / 2)) :
    (s.qmod ba sb).sampWord sb j = if j < s.bitLen ba ∧ s.bitCell ba j = true then minusOne else plusOne := by
  have hlen : j < ((padEven (s.bits ba)).map qpskComponent).length := by rwa [length_map_padEven_bits]
  rw [State.qmod, State.sampWord_putSamples_lt _ _ _ _ hlen, List.getElem_map, State.padEven_bits_getElem]
  simp only [qpskComponent, Bool.and_eq_true, decide_eq_true_eq]

theorem onlySamplesStored_qmod : OnlySamplesStored sb (2 * ((s.bitLen ba + 1) / 2)) s (s.qmod ba sb) := by
  have hframe :=
    onlySamplesStored_putSamples s sb ((padEven (s.bits ba)).map qpskComponent) ((s.bitLen ba + 1) / 2) .pair
  rwa [length_map_padEven_bits] at hframe

end

/-- Settles O24: the word matches its row of the opcode map, each error has its check, and the result and the frame are
those of the stored signal, whose component past the last bit is that of the pad. -/
theorem qmodWritesOneSymbolPerPair : Obligations.QmodWritesOneSymbolPerPair := by
  refine fun s ba sb => ⟨encode_and_matchMask (.qmod ba sb), fun h => ?_, fun h1 h2 => ?_, fun h1 h2 => ?_⟩
  · rw [exec_qmod_srcLen h]; exact raiseError_failsWith _ s
  · rw [exec_qmod_dstCap h1 h2]; exact raiseError_failsWith _ s
  · refine ⟨s.qmod ba sb, exec_qmod h1 h2, ?_, s.shape_qmod ba sb, fun j hj => s.sampWord_qmod ba sb hj,
      onlySamplesStored_qmod s ba sb, State.putSamples_results .., State.putSamples_gen ..⟩
    rw [State.qmod, State.sampBuf_putSamples]

/-- Settles O25, as O24; a signal of pairs has two components, so two bits, a symbol. -/
theorem qdemSlicesBothComponents : Obligations.QdemSlicesBothComponents := by
  refine fun s sa bb => ⟨encode_and_matchMask (.qdem sa bb), fun h => ?_, fun h hs => ?_, fun h1 hs h2 => ?_,
    fun h1 hs h2 => ?_⟩
  · rw [exec_qdem_srcLen h]; exact raiseError_failsWith _ s
  · rw [exec_qdem_shape h hs]; exact raiseError_failsWith _ s
  · rw [exec_qdem_dstCap (by rwa [State.components_of_pair hs]) hs h2]; exact raiseError_failsWith _ s
  · have hlen : ((s.signal sa).map qpskSlice).length = 2 * s.symbols sa := by
      rw [length_map_signal, State.components_of_pair hs]
    have hframe := onlyBitsStored_putBits s bb ((s.signal sa).map qpskSlice)
    rw [hlen] at hframe
    refine ⟨_, exec_qdem hs h1 h2, ?_, fun j hj => ?_, hframe⟩
    · rw [State.bitBuf_putBits, hlen]
    · exact bitCell_putBits_map_signal s bb qpskSlice (by rwa [State.components_of_pair hs])

/-! ### Slicing a modulated signal (R133, R134) -/

theorem qpskSlice_qpskComponent (b : Bool) : qpskSlice (qpskComponent b) = b := by cases b <;> decide

theorem map_qpskSlice_map_qpskComponent (bs : List Bool) : (bs.map qpskComponent).map qpskSlice = bs := by
  have hid : qpskSlice ∘ qpskComponent = id := funext qpskSlice_qpskComponent
  rw [List.map_map, hid, List.map_id]

/-- Legal capacities are even, so that what holds `n` bits or samples holds the pad of an odd `n` as well. -/
theorem padded_le_of_wellFormed {p : Params} (h : p.wellFormed = true) {n : Nat} (hbit : n ≤ p.bitCap)
    (hsamp : n ≤ p.sampCap) : 2 * ((n + 1) / 2) ≤ p.bitCap ∧ 2 * ((n + 1) / 2) ≤ p.sampCap := by
  simp only [Params.wellFormed, Bool.and_eq_true, beq_iff_eq] at h
  omega

/-- Settles O26: `p` holds the components of the padded source, each of which is sliced to its bit. -/
theorem qpskRoundTripKeepsThePad : Obligations.QpskRoundTripKeepsThePad := by
  intro s a d p hp hbit hsamp
  obtain ⟨hbit2, hsamp2⟩ := padded_le_of_wellFormed hp hbit hsamp
  have hcap := bitCap_le_of_wellFormed hp
  have hdem := exec_qdem (bb := d) (s.shape_qmod a p) (by simpa using hsamp2) (by simpa using hbit2)
  refine ⟨s.qmod a p, _, exec_qmod hbit hsamp2, hdem, ?_⟩
  rw [State.signal_qmod, map_qpskSlice_map_qpskComponent,
    State.bits_putBits _ _ _ (by rw [State.padEven_bits_length]; omega)]
  by_cases heven : s.bitLen a % 2 = 0
  · rw [if_pos heven, padEven_of_even (by rwa [State.bits_length])]
  · rw [if_neg heven, padEven_of_odd (by rwa [State.bits_length])]

end Sys2Proof.Machine

/-! PROOFS. The noise (spec/44_awgn.md): the exact power and the exact sigma of a signal rounded once, what `fadd` and
`fmul` make of zeros, infinities and the free bits of a NaN, and AWGN and SEED with their results, draws and frames. -/

namespace Sys2Proof.Machine

open Sys2Proof.Safety Sys2Proof.Claims

/-! ### The scale of the noise (R141, R142) -/

theorem awgnScale_of_isNaN {xs : List F64} (h : ∃ x ∈ xs, isNaN x = true) (n : Nat) (snr : Int) :
    awgnScale xs n snr = (canonicalNaN, canonicalNaN) := if_pos (List.any_eq_true.mpr h)

theorem awgnScale_of_isInf {xs : List F64} (hnan : ∀ x ∈ xs, isNaN x = false) (hinf : ∃ x ∈ xs, isInf x = true)
    (n : Nat) (snr : Int) : awgnScale xs n snr = (plusInfinity, plusInfinity) := by
  have hany : ¬ xs.any isNaN = true := by simpa [List.any_eq_true] using hnan
  rw [awgnScale, if_neg hany, if_pos (List.any_eq_true.mpr hinf)]

theorem sq_value (x : F64) : ((value x : ℚ) : ℝ) ^ 2 * (2 ^ 1074) ^ 2 = (magValue (magnitude x) : ℝ) ^ 2 := by
  rw [← sq_abs, abs_value, div_pow, div_mul_cancel₀ _ (by positivity)]

/-- The exact sum of squares, in units of 2^-2148. -/
theorem sum_sq_value (xs : List F64) :
    (xs.map (fun x => ((value x : ℚ) : ℝ) ^ 2)).sum * (2 ^ 1074) ^ 2 = sumSquares xs := by
  rw [← List.sum_map_mul_right, List.map_congr_left fun x _ => sq_value x, sumSquares, Nat.cast_list_sum,
    List.map_map]
  congr 1
  exact List.map_congr_left fun x _ => by simp

section
variable {xs : List F64} {symbols : Nat} {p : ℝ}

theorem nonneg_of_isExactPower (h : IsExactPower xs symbols p) : 0 ≤ p := by
  rw [h]
  refine div_nonneg (List.sum_nonneg ?_) (Nat.cast_nonneg _)
  exact List.forall_mem_map.mpr fun x _ => sq_nonneg _

theorem units_of_isExactPower (h : IsExactPower xs symbols p) (hn : symbols ≠ 0) :
    p * symbols * (2 ^ 1074) ^ 2 = sumSquares xs := by
  rw [h, div_mul_cancel₀ _ (Nat.cast_ne_zero.mpr hn), sum_sq_value]

/-- Case (c) of R141. -/
theorem roundsTo_finitePower (h : IsExactPower xs symbols p) (hn : symbols ≠ 0) :
    RoundsTo p (finitePower xs symbols) := by
  refine roundsTo_roundRoot false one_ne_zero ?_ (nonneg_of_isExactPower h) ?_ nofun
  · rw [Nat.shiftLeft_eq]; positivity
  · rw [← units_of_isExactPower h hn, Nat.shiftLeft_eq]
    simp only [Nat.cast_mul, Nat.cast_pow, Nat.cast_ofNat]
    generalize (2 : ℝ) ^ 1074 = u
    ring

/-- `10^(snr/10)`, which R142 takes over the reals, to the tenth power, as a quotient of natural numbers. -/
theorem rpow_snr_pow_ten (snr : Int) :
    ((10 : ℝ) ^ ((snr : ℝ) / 10)) ^ 10 * 10 ^ (-snr).toNat = 10 ^ snr.toNat := by
  have hpow : ((10 : ℝ) ^ ((snr : ℝ) / 10)) ^ 10 = (10 : ℝ) ^ snr := by
    rw [← Real.rpow_natCast, ← Real.rpow_mul (by norm_num), ← Real.rpow_intCast]
    norm_num
  rw [hpow, ← zpow_natCast, ← zpow_natCast, ← zpow_add₀ (by norm_num)]
  congr 1
  omega

/-- The 20th power of the exact sigma, free of roots. -/
theorem sigma_pow_twenty {u q : ℝ} (hp : 0 ≤ p) (hq : 0 < q) :
    (Real.sqrt (p / (2 * q)) * u) ^ 20 * (2 ^ 10 * q ^ 10) = (p * u ^ 2) ^ 10 := by
  have hsq : Real.sqrt (p / (2 * q)) ^ 2 = p / (2 * q) := Real.sq_sqrt (by positivity)
  calc (Real.sqrt (p / (2 * q)) * u) ^ 20 * (2 ^ 10 * q ^ 10)
      = (Real.sqrt (p / (2 * q)) ^ 2 * (2 * q) * u ^ 2) ^ 10 := by ring
    _ = (p * u ^ 2) ^ 10 := by rw [hsq, div_mul_cancel₀ _ (by positivity)]

/-- Case (c) of R142. -/
theorem roundsTo_finiteSigma (h : IsExactPower xs symbols p) (hn : symbols ≠ 0) (snr : Int) :
    RoundsTo (Real.sqrt (p / (2 * (10 : ℝ) ^ ((snr : ℝ) / 10)))) (finiteSigma xs symbols snr) := by
  have hq : (0 : ℝ) < 10 ^ ((snr : ℝ) / 10) := by positivity
  refine roundsTo_roundRoot false (by norm_num) (by positivity) (Real.sqrt_nonneg _) ?_ nofun
  have hscale := rpow_snr_pow_ten snr
  have hroot := sigma_pow_twenty (u := 2 ^ 1074) (nonneg_of_isExactPower h) hq
  have hunits := units_of_isExactPower h hn
  simp only [Nat.cast_mul, Nat.cast_pow, Nat.cast_ofNat, ← hunits, ← hscale]
  generalize (10 : ℝ) ^ ((snr : ℝ) / 10) = q at *
  generalize Real.sqrt (p / (2 * q)) * 2 ^ 1074 = r at *
  generalize (2 : ℝ) ^ 1074 = u at *
  calc r ^ 20 * (symbols ^ 10 * 2 ^ 10 * (q ^ 10 * 10 ^ (-snr).toNat))
      = r ^ 20 * (2 ^ 10 * q ^ 10) * (symbols ^ 10 * 10 ^ (-snr).toNat) := by ring
    _ = (p * symbols * u ^ 2) ^ 10 * 10 ^ (-snr).toNat := by rw [hroot]; ring

end

/-- Settles O30: the three cases of `awgn_scale`, and the exact powers of signals of ±1.0. -/
theorem powerIsTheExactMeanRoundedOnce : Obligations.PowerIsTheExactMeanRoundedOnce := by
  refine fun xs symbols snr hn => ⟨fun h => ?_, fun hnan hinf => ?_, fun hfin p hp => ?_, fun hunit => ?_⟩
  · rw [awgnScale_of_isNaN h]; rfl
  · rw [awgnScale_of_isInf hnan hinf]
  · rw [awgnScale_of_isFinite hfin]; exact roundsTo_finitePower hp hn
  · exact ⟨UnitSignal.power_eq_one hunit snr hn, UnitSignal.power_eq_two hunit snr hn⟩

/-- Settles O31: the three cases of `awgn_scale`. -/
theorem sigmaIsTheExactRootRoundedOnce : Obligations.SigmaIsTheExactRootRoundedOnce := by
  refine fun xs symbols snr hn => ⟨fun h => ?_, fun hnan hinf => ?_, fun hfin p hp => ?_⟩
  · rw [awgnScale_of_isNaN h]; rfl
  · rw [awgnScale_of_isInf hnan hinf]
  · rw [awgnScale_of_isFinite hfin]; exact roundsTo_finiteSigma hp hn snr

/-! ### Zeros (R143) -/

theorem isFinite_of_isZero {x : F64} (h : isZero x = true) : isFinite x = true := by
  rw [isZero_iff] at h
  rw [isFinite_iff, h]
  decide

theorem value_of_isZero {x : F64} (h : isZero x = true) : value x = 0 := value_eq_zero_iff.mpr (isZero_iff.mp h)

theorem isFinite_or_isInf {x : F64} (h : isNaN x = false) : isFinite x = true ∨ isInf x = true := by
  rw [Bool.eq_false_iff, Ne, isNaN_iff] at h
  rw [isFinite_iff, isInf_iff]
  omega

theorem roundRoot_zero {k den : Nat} (hk : k ≠ 0) (hd : 0 < den) : roundRoot k 0 den = 0 := by
  simpa [magValue_zero, hk] using roundRoot_exact hk hd (show 0 < infMag by decide)

theorem sumSquares_of_isZero {xs : List F64} (h : ∀ x ∈ xs, isZero x = true) : sumSquares xs = 0 := by
  refine List.sum_eq_zero (List.forall_mem_map.mpr fun x hx => ?_)
  rw [isZero_iff.mp (h x hx), magValue_zero]
  rfl

theorem awgnScale_of_isZero {xs : List F64} {n : Nat} (hn : n ≠ 0) (h : ∀ x ∈ xs, isZero x = true) (snr : Int) :
    awgnScale xs n snr = (plusZero, plusZero) := by
  have hpower : 0 < n <<< 1074 := by rw [Nat.shiftLeft_eq]; positivity
  rw [awgnScale_of_isFinite fun x hx => isFinite_of_isZero (h x hx), finitePower, finiteSigma, sumSquares_of_isZero h,
    roundRoot_zero one_ne_zero hpower, Nat.zero_pow (by norm_num), Nat.zero_mul,
    roundRoot_zero (by norm_num) (by positivity)]
  rfl

theorem fmul_plusZero {nan g : F64} (hg : isFinite g = true) :
    fmul nan plusZero g = if signBit g then 0x8000000000000000 else plusZero := by
  rw [fmul_of_product_eq_zero (by decide) hg (by rw [value_of_isZero (by decide), zero_mul]),
    show signBit plusZero = false by decide, Bool.false_bne]
  rfl

theorem finiteValue_of_isZero {x : F64} (h : isZero x = true) : finiteValue x = 0 := by
  unfold finiteValue
  rw [isZero_iff.mp h, magValue_zero]
  simp

/-- The sign and the magnitude of a finite value, read off its number of units. -/
theorem finiteValue_sign_natAbs {x : F64} (h : isZero x = false) :
    decide (finiteValue x < 0) = signBit x ∧ (finiteValue x).natAbs = magValue (magnitude x) := by
  have hpos : magValue (magnitude x) ≠ 0 := fun h0 => by
    simp [isZero_iff.mpr (magValue_eq_zero_iff.mp h0)] at h
  unfold finiteValue
  cases signBit x
  · simp
  · simp; omega

/-- Adding a zero of either sign keeps every value that is no zero. -/
theorem fadd_of_isZero_right {nan x z : F64} (hnan : isNaN x = false) (hx : isZero x = false) (hz : isZero z = true) :
    fadd nan x z = x := by
  rcases isFinite_or_isInf hnan with hfin | hinf
  · obtain ⟨hsign, habs⟩ := finiteValue_sign_natAbs hx
    have hne : finiteValue x ≠ 0 := by
      rw [← Int.natAbs_ne_zero, habs, ne_eq, magValue_eq_zero_iff, ← isZero_iff, hx]
      simp
    have hround : roundRoot 1 (magValue (magnitude x)) 1 = magnitude x := by
      simpa using roundRoot_exact one_ne_zero one_pos (isFinite_iff.mp hfin)
    rw [fadd_of_isFinite hfin (isFinite_of_isZero hz), finiteValue_of_isZero hz, add_zero, if_neg hne, hsign, habs,
      hround, ofSignMag_self]
  · exact fadd_of_isInf_left hinf (isFinite_of_isZero hz)

/-- Settles O32: a zero has value 0, and a sum of zeros is -0.0 only when both are. -/
theorem zeroPowerAddsZeros : Obligations.ZeroPowerAddsZeros := by
  refine ⟨fun xs symbols snr hn h => awgnScale_of_isZero hn h snr, fun nan g hg => ?_, fun nan x hnan hx => ?_,
    fun nan => ?_⟩
  · rw [fmul_plusZero hg]
    split
    · exact .inr rfl
    · exact .inl rfl
  · exact ⟨fadd_of_isZero_right hnan hx (by decide), fadd_of_isZero_right hnan hx (by decide)⟩
  · have hsum : ∀ z, isZero z = true → fadd nan 0x8000000000000000 z = if signBit z then 0x8000000000000000 else 0 := by
      intro z hz
      rw [fadd_of_sum_eq_zero (by decide) (isFinite_of_isZero hz)
        (by rw [value_of_isZero (by decide), value_of_isZero hz, add_zero]),
        show signBit 0x8000000000000000 = true by decide, Bool.true_and]
    exact ⟨hsum _ (by decide), hsum _ (by decide)⟩

/-! ### The sign of a noisy symbol (R147) -/

theorem gt0_ofSignMag {neg : Bool} {m : Nat} (h0 : m ≠ 0) (hm : m ≤ infMag) : gt0 (ofSignMag neg m) = !neg := by
  have hlt : m < 2 ^ 63 := lt_of_le_of_lt hm (by decide)
  rw [gt0, isNaN, isZero, magnitude_ofSignMag hlt, signBit_ofSignMag hlt, decide_eq_false (not_lt.mpr hm),
    beq_false_of_ne h0, Bool.not_false, Bool.and_true, Bool.and_true]

/-- `gt0` of a sum of finite values is the sign of the exact sum: rounding brings no sum of at least one unit to 0. -/
theorem gt0_fadd {nan x y : F64} (hx : isFinite x = true) (hy : isFinite y = true) :
    gt0 (fadd nan x y) = true ↔ 0 < finiteValue x + finiteValue y := by
  rw [fadd_of_isFinite hx hy]
  generalize finiteValue x + finiteValue y = v
  by_cases h0 : v = 0
  · subst h0
    cases signBit x && signBit y <;> decide
  · have hunits : ((v.natAbs : ℝ)) ^ 1 * (1 : Nat) = v.natAbs := by simp
    have hone : (magValue 1 : ℝ) ≤ v.natAbs := by
      rw [show magValue 1 = 1 by decide]
      exact_mod_cast Int.natAbs_pos.mpr h0
    have hpos := le_roundRoot one_ne_zero one_pos (Nat.cast_nonneg _) hunits (show 1 < infMag by decide) hone
    have hle := (roundRoot_spec one_ne_zero one_pos (Nat.cast_nonneg _) hunits).1
    rw [if_neg h0, gt0_ofSignMag (by omega) hle, Bool.not_eq_true', decide_eq_false_iff_not]
    omega

theorem finiteValue_eq (x : F64) :
    finiteValue x = if signBit x then -(magValue (magnitude x) : ℤ) else magValue (magnitude x) := rfl

theorem gt0_of_isInf {x : F64} (h : isInf x = true) : gt0 x = true ↔ signBit x = false := by
  simp [gt0, isNaN_of_isInf h, isZero_of_isInf h]

theorem gt0_fadd_plusOne {nan nz : F64} (h : isNaN nz = false) :
    gt0 (fadd nan plusOne nz) = true ↔ signBit nz = true → magnitude nz < magnitude plusOne := by
  rcases isFinite_or_isInf h with hfin | hinf
  · rw [gt0_fadd (by decide) hfin, finiteValue_eq, finiteValue_eq, ← magValue_strictMono.lt_iff_lt,
      show signBit plusOne = false by decide]
    have hone : 0 < magValue (magnitude plusOne) := by decide
    generalize magValue (magnitude plusOne) = one at *
    cases signBit nz
    · simp; omega
    · simp
  · rw [fadd_of_isInf_right (by decide) hinf, gt0_of_isInf hinf, isInf_iff.mp hinf]
    have hge : ¬ infMag < magnitude plusOne := by decide
    simp [hge]

theorem gt0_fadd_minusOne {nan nz : F64} (h : isNaN nz = false) :
    gt0 (fadd nan minusOne nz) = true ↔ signBit nz = false ∧ magnitude plusOne < magnitude nz := by
  rcases isFinite_or_isInf h with hfin | hinf
  · rw [gt0_fadd (by decide) hfin, finiteValue_eq, finiteValue_eq, ← magValue_strictMono.lt_iff_lt,
      show signBit minusOne = true by decide, show magnitude minusOne = magnitude plusOne by decide]
    generalize magValue (magnitude plusOne) = one at *
    cases signBit nz <;> simp
  · rw [fadd_of_isInf_right (by decide) hinf, gt0_of_isInf hinf, isInf_iff.mp hinf]
    have hlt : magnitude plusOne < infMag := by decide
    simp [hlt]

/-- Settles O36: the sign of the exact sum, by the order of the magnitudes. -/
theorem noiseFlipsASymbolOnlyPastOne : Obligations.NoiseFlipsASymbolOnlyPastOne := by
  refine fun nan nz h => ⟨?_, gt0_fadd_minusOne h⟩
  rw [← Bool.not_eq_true, gt0_fadd_plusOne h, Classical.not_imp, not_lt]

/-! ### NaN and infinite noise (R144, I7) -/

theorem magnitude_or (x y : F64) : magnitude (x ||| y) = magnitude x ||| magnitude y := by
  unfold magnitude
  rw [one_shl_63, BitVec.toNat_or, Nat.or_mod_two_pow]

theorem isNaN_nanFrom (bits : BitVec 64) : isNaN (nanFrom bits) = true := by
  unfold nanFrom
  split
  case isTrue h => exact h
  case isFalse h =>
    rw [isNaN_iff, magnitude_or]
    exact lt_of_lt_of_le (show infMag < magnitude canonicalNaN by decide) Nat.right_le_or

theorem isNaN_freeNaN (n : Nat) : isNaN (freeNaN n) = true := isNaN_nanFrom _

/-- A sum is free bits for all free bits, or for none. -/
theorem fadd_nan_or_const (x y : F64) : (∀ nan, fadd nan x y = nan) ∨ ∃ z, ∀ nan, fadd nan x y = z := by
  by_cases hnan : isNaN x = true ∨ isNaN y = true
  · exact .inl fun _ => fadd_of_isNaN hnan
  · simp only [not_or, Bool.not_eq_true] at hnan
    obtain ⟨hx, hy⟩ := hnan
    rcases isFinite_or_isInf hx with hx | hx <;> rcases isFinite_or_isInf hy with hy | hy
    · exact .inr ⟨_, fun _ => fadd_of_isFinite hx hy⟩
    · exact .inr ⟨y, fun _ => fadd_of_isInf_right hx hy⟩
    · exact .inr ⟨x, fun _ => fadd_of_isInf_left hx hy⟩
    · by_cases hs : signBit x = signBit y
      · exact .inr ⟨x, fun _ => (fadd_of_isInf_both hx hy).trans (if_pos hs)⟩
      · exact .inl fun _ => (fadd_of_isInf_both hx hy).trans (if_neg hs)

theorem fmul_nan_or_const (x y : F64) : (∀ nan, fmul nan x y = nan) ∨ ∃ z, ∀ nan, fmul nan x y = z := by
  unfold fmul
  split_ifs
  · exact .inl fun _ => rfl
  · exact .inl fun _ => rfl
  · exact .inr ⟨_, fun _ => rfl⟩
  · exact .inr ⟨_, fun _ => rfl⟩

theorem noisy_of_fmul_eq_nan {nan sigma x g : F64} (hnan : isNaN nan = true) (h : fmul nan sigma g = nan) :
    noisy nan sigma x g = nan := by
  rw [noisy, h]
  exact fadd_of_isNaN (.inr hnan)

/-- Two free NaNs make the same noisy component, or a NaN each. -/
theorem noisy_congr_nan {n₁ n₂ : F64} (h₁ : isNaN n₁ = true) (h₂ : isNaN n₂ = true) (sigma x g : F64) :
    noisy n₁ sigma x g = noisy n₂ sigma x g ∨
      (isNaN (noisy n₁ sigma x g) = true ∧ isNaN (noisy n₂ sigma x g) = true) := by
  rcases fmul_nan_or_const sigma g with hmul | ⟨z, hmul⟩
  · rw [noisy_of_fmul_eq_nan h₁ (hmul _), noisy_of_fmul_eq_nan h₂ (hmul _)]
    exact .inr ⟨h₁, h₂⟩
  · rw [noisy, noisy, hmul, hmul]
    rcases fadd_nan_or_const x z with hadd | ⟨w, hadd⟩
    · rw [hadd, hadd]; exact .inr ⟨h₁, h₂⟩
    · rw [hadd, hadd]; exact .inl rfl

theorem isNaN_noisy_of_isNaN_sigma {nan sigma : F64} (hnan : isNaN nan = true) (hs : isNaN sigma = true) (x g : F64) :
    isNaN (noisy nan sigma x g) = true := by
  rw [noisy_of_fmul_eq_nan hnan (fmul_of_isNaN (.inl hs))]; exact hnan

/-- Infinite noise has the draw's sign, and there is none for a draw of 0. -/
theorem noisy_plusInfinity {nan x g : F64} (hnan : isNaN nan = true) (hx : isNaN x = false) (hg : isNaN g = false) :
    if isZero g = true ∨ (isInf x = true ∧ signBit x ≠ signBit g) then isNaN (noisy nan plusInfinity x g) = true
    else isInf (noisy nan plusInfinity x g) = true := by
  by_cases hz : isZero g = true
  · rw [if_pos (.inl hz), noisy_of_fmul_eq_nan hnan (fmul_of_isInf_of_isZero (by decide) hz)]; exact hnan
  · have hmul : fmul nan plusInfinity g = ofSignMag (signBit g) infMag := by
      rw [fmul_of_isInf_of_ne_zero (by decide) hg (by simpa using hz), show signBit plusInfinity = false by decide,
        Bool.false_bne]
    have hinf := isInf_ofSignMag_infMag (signBit g)
    rw [noisy, hmul]
    rcases isFinite_or_isInf hx with hfin | hxinf
    · rw [if_neg (by simp [hz, isInf_of_isFinite hfin]), fadd_of_isInf_right hfin hinf]; exact hinf
    · rw [fadd_of_isInf_both hxinf hinf, signBit_ofSignMag (by decide)]
      by_cases hs : signBit x = signBit g
      · rw [if_neg (by simp [hz, hs]), if_pos hs]; exact hxinf
      · rw [if_pos (.inr ⟨hxinf, hs⟩), if_neg hs]; exact hnan

/-! ### The answers of AWGN (R140) -/

theorem exec_awgn_srcLen {s : State} {sa sb : SampSel} (h : s.params.sampCap < s.components sa) :
    exec (.awgn sa sb) s = raiseError .srcLen s := by
  simp [exec, execAwgn, signalFits_false.mpr h]

theorem State.components_of_symbols_eq_zero {s : State} {p : SampSel} (h : s.symbols p = 0) : s.components p = 0 := by
  rw [State.components, h, Nat.zero_mul]

theorem State.ofNat_symbols (s : State) (p : SampSel) : BitVec.ofNat 32 (s.symbols p) = (s.sampBuf p).len := by
  rw [State.symbols, BitVec.ofNat_toNat, BitVec.setWidth_eq]

theorem State.signal_getElem? (s : State) {p : SampSel} {j : Nat} (h : j < s.components p) :
    (s.signal p)[j]? = some (s.sampWord p j) := by
  rw [List.getElem?_eq_getElem (by rwa [State.signal_length]), State.signal_getElem]

/-- The state that AWGN leaves of an empty signal, by `exec_awgn_empty`. -/
def State.awgnEmpty (s : State) (sa sb : SampSel) : State :=
  { s.putSamples sb [] 0 (s.sampBuf sa).shape with
    results := { s.results with power := plusZero, sigma := plusZero } }

/-- POWER and SIGMA of the signal of `sa` at the state's SNR. -/
def State.noiseScale (s : State) (sa : SampSel) : F64 × F64 := awgnScale (s.signal sa) (s.symbols sa) s.snr

/-- The state that AWGN leaves of any other signal that fits, by `exec_awgn`. -/
def State.awgn (s : State) (sa sb : SampSel) : State :=
  { s.putSamples sb (addNoise (s.noiseScale sa).2 (s.signal sa) s.gen s.draws).1 (s.symbols sa)
      (s.sampBuf sa).shape with
    results := { s.results with power := (s.noiseScale sa).1, sigma := (s.noiseScale sa).2 }
    gen := { s.gen with taken := s.gen.taken + s.components sa }
    draws := s.draws + s.components sa }

section
variable (s : State) (sa sb : SampSel)

theorem State.sampBuf_awgnEmpty :
    (s.awgnEmpty sa sb).sampBuf sb =
      { halves := storeWrite 0 [] (s.sampBuf sb).halves, len := 0, shape := (s.sampBuf sa).shape } :=
  (sampBuf_with ..).trans (State.sampBuf_putSamples s sb [] 0 _)

@[simp] theorem State.gen_awgnEmpty : (s.awgnEmpty sa sb).gen = s.gen := State.putSamples_gen ..

theorem onlySamplesStored_awgnEmpty : OnlySamplesStored sb 0 s (s.awgnEmpty sa sb) :=
  onlySamplesStored_with (onlySamplesStored_putSamples s sb [] 0 (s.sampBuf sa).shape) _ _ _

theorem length_addNoise_signal (sigma : F64) (g : GState) (n : Nat) :
    (addNoise sigma (s.signal sa) g n).1.length = s.components sa := by
  rw [addNoise_length, State.signal_length]

theorem State.gen_awgn : (s.awgn sa sb).gen = { s.gen with taken := s.gen.taken + s.components sa } := rfl

theorem State.len_awgn : ((s.awgn sa sb).sampBuf sb).len = (s.sampBuf sa).len := by
  rw [State.awgn, sampBuf_with, State.sampBuf_putSamples]
  exact s.ofNat_symbols sa

theorem State.shape_awgn : ((s.awgn sa sb).sampBuf sb).shape = (s.sampBuf sa).shape := by
  rw [State.awgn, sampBuf_with, State.sampBuf_putSamples]

theorem State.sampWord_awgn {j : Nat} (hj : j < s.components sa) :
    (s.awgn sa sb).sampWord sb j =
      noisy (freeNaN (s.draws + j)) (s.noiseScale sa).2 (s.sampWord sa j)
        (drawFrom s.gen.origin (s.gen.taken + j)) := by
  have hlen : j < (addNoise (s.noiseScale sa).2 (s.signal sa) s.gen s.draws).1.length := by
    rwa [length_addNoise_signal]
  rw [State.awgn, sampWord_with, State.sampWord_putSamples_lt _ _ _ _ hlen, ← Option.some_inj,
    ← List.getElem?_eq_getElem, addNoise_getElem?, s.signal_getElem? hj, Option.map_some]

theorem onlySamplesStored_awgn : OnlySamplesStored sb (s.components sa) s (s.awgn sa sb) := by
  have hframe := onlySamplesStored_putSamples s sb (addNoise (s.noiseScale sa).2 (s.signal sa) s.gen s.draws).1
    (s.symbols sa) (s.sampBuf sa).shape
  rw [length_addNoise_signal] at hframe
  exact onlySamplesStored_with hframe _ _ _

end

/-- Settles O29: the word matches its row of the opcode map, the error has its check, and the results, the draws and the
frame are those of the stored signal with its noise. -/
theorem awgnAddsScaledDraws : Obligations.AwgnAddsScaledDraws := by
  refine fun s sa sb => ⟨encode_and_matchMask (.awgn sa sb), fun h => ?_, fun h1 h2 => ?_, fun h1 h2 => ?_⟩
  · rw [exec_awgn_srcLen h]; exact raiseError_failsWith _ s
  · refine ⟨s.awgnEmpty sa sb, exec_awgn_empty h1 h2, ?_, ?_, rfl, s.gen_awgnEmpty sa sb,
      onlySamplesStored_awgnEmpty s sa sb⟩
    · rw [State.sampBuf_awgnEmpty]
    · rw [State.sampBuf_awgnEmpty]
  · exact ⟨s.awgn sa sb, exec_awgn h1 h2, s.len_awgn sa sb, s.shape_awgn sa sb, rfl,
      fun j hj => ⟨freeNaN (s.draws + j), isNaN_freeNaN _, s.sampWord_awgn sa sb hj⟩, s.gen_awgn sa sb,
      onlySamplesStored_awgn s sa sb⟩

/-- Settles O33: an empty signal fits every buffer, and what AWGN adds to a component is `noisy`. -/
theorem emptyAndNonFiniteSignals : Obligations.EmptyAndNonFiniteSignals := by
  refine ⟨fun s sa sb h => ?_, fun nan sigma x g hnan hs => isNaN_noisy_of_isNaN_sigma hnan hs x g,
    fun nan x g hnan hx hg => noisy_plusInfinity hnan hx hg⟩
  have hfits : s.components sa ≤ s.params.sampCap := by rw [State.components_of_symbols_eq_zero h]; exact Nat.zero_le _
  refine ⟨s.awgnEmpty sa sb, exec_awgn_empty hfits h, ?_, ?_, rfl, rfl, s.gen_awgnEmpty sa sb,
    (onlySamplesStored_awgnEmpty s sa sb).status⟩
  · rw [State.symbols, State.sampBuf_awgnEmpty]; rfl
  · rw [State.sampBuf_awgnEmpty]

/-! ### The seeded generator (R145, R146) -/

/-- The state that SEED leaves. -/
def State.seeded (s : State) : State := { s with gen := gseed s.seed }

section
variable (s : State)

theorem exec_seed : exec .seed s = .next s.seeded := rfl

@[simp] theorem State.gen_seeded : s.seeded.gen = gseed s.seed := rfl

@[simp] theorem State.draws_seeded : s.seeded.draws = s.draws := rfl

@[simp] theorem State.sampBuf_seeded (p : SampSel) : s.seeded.sampBuf p = s.sampBuf p := by cases p <;> rfl

@[simp] theorem State.bitBuf_seeded (b : BitSel) : s.seeded.bitBuf b = s.bitBuf b := by cases b <;> rfl

@[simp] theorem State.symbols_seeded (p : SampSel) : s.seeded.symbols p = s.symbols p := by
  rw [State.symbols, State.sampBuf_seeded]; rfl

@[simp] theorem State.components_seeded (p : SampSel) : s.seeded.components p = s.components p := by
  rw [State.components, State.symbols_seeded, State.sampBuf_seeded]; rfl

@[simp] theorem State.sampWord_seeded (p : SampSel) (j : Nat) : s.seeded.sampWord p j = s.sampWord p j :=
  State.sampWord_congr (s.sampBuf_seeded p) rfl j

@[simp] theorem State.signal_seeded (p : SampSel) : s.seeded.signal p = s.signal p := by
  rw [State.signal, State.components_seeded]
  exact List.map_congr_left fun j _ => s.sampWord_seeded p j

end

/-- Settles O34: SEED writes GEN only. -/
theorem seedLoadsTheGenerator : Obligations.SeedLoadsTheGenerator := by
  refine ⟨fun w => ⟨fun h => (encode_of_decode h).symm, fun h => ?_⟩, fun s => ?_⟩
  · rw [h]; exact decode_encode .seed
  · exact ⟨s.seeded, exec_seed s, rfl, ⟨rfl, rfl, rfl, rfl, rfl, rfl, rfl, rfl, rfl, rfl⟩, rfl, rfl,
      sameAllBits_of s.bitBuf_seeded rfl, sameAllSamples_of s.sampBuf_seeded rfl⟩

theorem State.noiseScale_seeded (s : State) (p : SampSel) : s.seeded.noiseScale p = s.noiseScale p := by
  rw [State.noiseScale, State.signal_seeded, State.symbols_seeded]
  rfl

/-- What SEED and AWGN leave: the generator at the seed with one draw a component taken, and each component with the
draw of its place. -/
theorem runCommands_seed_awgn {s : State} {sa : SampSel} (sb : SampSel) (h : s.signalFits sa = true) :
    ∃ t, runCommands [.seed, .awgn sa sb] s = .next t ∧
      t.gen = { origin := .seeded s.seed, taken := s.components sa } ∧
      ∀ j, j < s.components sa → ∃ nan, isNaN nan = true ∧
        t.sampWord sb j = noisy nan (s.noiseScale sa).2 (s.sampWord sa j) (drawFrom (.seeded s.seed) j) := by
  have hfits : s.seeded.components sa ≤ s.seeded.params.sampCap := by
    rw [State.components_seeded]; exact (s.signalFits_iff sa).mp h
  by_cases h0 : s.symbols sa = 0
  · have hc := State.components_of_symbols_eq_zero h0
    refine ⟨s.seeded.awgnEmpty sa sb, ?_, ?_, fun j hj => absurd hj (by omega)⟩
    · rw [← s.symbols_seeded] at h0
      simp only [runCommands, exec_seed, exec_awgn_empty hfits h0]
      rfl
    · rw [State.gen_awgnEmpty, hc]; rfl
  · refine ⟨s.seeded.awgn sa sb, ?_, ?_, fun j hj => ⟨freeNaN (s.draws + j), isNaN_freeNaN _, ?_⟩⟩
    · rw [← s.symbols_seeded] at h0
      simp only [runCommands, exec_seed, exec_awgn hfits h0]
      rfl
    · simp only [State.gen_awgn, State.gen_seeded, State.components_seeded, gseed, Nat.zero_add]
    · rw [State.sampWord_awgn _ _ _ (by rwa [State.components_seeded]), State.noiseScale_seeded,
        State.sampWord_seeded, State.draws_seeded, State.gen_seeded]
      simp only [gseed, Nat.zero_add]

/-- Settles O35: both runs have the same sigma and the same draws, and two free NaNs make the same of them but for the
free bits. -/
theorem noiseIsAFunctionOfTheSeed : Obligations.NoiseIsAFunctionOfTheSeed := by
  intro s1 s2 sa sb hseed hsignal hsymbols hshape hsnr hfit1 hfit2
  have hcomponents : s2.components sa = s1.components sa := by rw [State.components, State.components, hsymbols, hshape]
  have hscale : s2.noiseScale sa = s1.noiseScale sa := by
    rw [State.noiseScale, State.noiseScale, hsignal, hsymbols, State.snr, State.snr, hsnr]
  obtain ⟨t1, hrun1, hgen1, hword1⟩ := runCommands_seed_awgn sb hfit1
  obtain ⟨t2, hrun2, hgen2, hword2⟩ := runCommands_seed_awgn sb hfit2
  rw [← hseed, hcomponents] at hgen2
  refine ⟨t1, t2, hrun1, hrun2, hgen1.trans hgen2.symm, fun j hj => ?_⟩
  have hx : s2.sampWord sa j = s1.sampWord sa j := by
    rw [← Option.some_inj, ← s1.signal_getElem? hj, hsignal, s2.signal_getElem? (by rwa [hcomponents])]
  obtain ⟨n1, hn1, hy1⟩ := hword1 j hj
  obtain ⟨n2, hn2, hy2⟩ := hword2 j (by rwa [hcomponents])
  rw [hscale, hx, ← hseed] at hy2
  rw [hy1, hy2]
  exact noisy_congr_nan hn1 hn2 _ _ _

end Sys2Proof.Machine

/-! PROOFS. The bit error rate (spec/45_ber.md): the count of differing bits read off the cells, BER as the exact
quotient rounded once, and BERC with its error, results and frame, also on an operand cut to the other's length. -/

namespace Sys2Proof.Machine

open Sys2Proof.Safety Sys2Proof.Claims

/-! ### The count (R155) -/

theorem countDiffering_map_range (m n : Nat) (f g : Nat → Bool) :
    countDiffering ((List.range m).map f) ((List.range n).map g) =
      (List.range (min m n)).countP (fun i => f i != g i) := by
  induction m generalizing n f g with
  | zero => rw [Nat.zero_min]; rfl
  | succ m ih =>
    cases n with
    | zero => simp [List.range_succ_eq_map, countDiffering]
    | succ n =>
      rw [Nat.succ_min_succ]
      simp only [List.range_succ_eq_map, List.map_cons, List.map_map, List.countP_cons, List.countP_map,
        countDiffering, ih]
      by_cases h : f 0 = g 0 <;> simp [h, Function.comp_def, Nat.add_comm]

/-- The number of places below `n` where the cells of two buffers differ. -/
def State.differing (s : State) (ba bb : BitSel) (n : Nat) : Nat :=
  (List.range n).countP (fun i => s.bitCell ba i != s.bitCell bb i)

/-- The number of places that BERC compares. -/
def State.compared (s : State) (ba bb : BitSel) : Nat := min (s.bitLen ba) (s.bitLen bb)

theorem countDiffering_bits (s : State) (ba bb : BitSel) :
    countDiffering (s.bits ba) (s.bits bb) = s.differing ba bb (s.compared ba bb) :=
  countDiffering_map_range _ _ _ _

/-! ### The quotient (R155, R157) -/

theorem berValue_zero (errors : Nat) : berValue errors 0 = plusZero := if_pos rfl

theorem berValue_of_ne_zero {errors compared : Nat} (h : compared ≠ 0) :
    berValue errors compared = ofSignMag false (roundRoot 1 (errors <<< 1074) compared) := if_neg h

/-- The exact quotient in units of 2^-1074, as `roundRoot` takes it. -/
theorem quotient_units {errors compared : Nat} (h : compared ≠ 0) :
    ((errors : ℝ) / compared * 2 ^ 1074) ^ 1 * compared = (errors <<< 1074 : Nat) := by
  have hc : (compared : ℝ) ≠ 0 := Nat.cast_ne_zero.mpr h
  rw [Nat.shiftLeft_eq, pow_one, Nat.cast_mul, Nat.cast_pow, Nat.cast_ofNat]
  field_simp

theorem roundsTo_berValue {errors compared : Nat} (h : compared ≠ 0) :
    RoundsTo ((errors : ℝ) / compared) (berValue errors compared) := by
  rw [berValue_of_ne_zero h]
  exact roundsTo_roundRoot false one_ne_zero (Nat.pos_of_ne_zero h) (by positivity) (quotient_units h) nofun

theorem magValue_plusOne : magValue (magnitude plusOne) = 1 <<< 1074 := by decide

/-- A quotient of at most 1 does not round above 1.0. -/
theorem roundRoot_quotient_le {errors compared : Nat} (h : compared ≠ 0) (hle : errors ≤ compared) :
    roundRoot 1 (errors <<< 1074) compared ≤ magnitude plusOne := by
  have hone : (errors : ℝ) / compared ≤ 1 := div_le_one_of_le₀ (Nat.cast_le.mpr hle) (Nat.cast_nonneg _)
  refine roundRoot_le one_ne_zero (Nat.pos_of_ne_zero h) (by positivity) (quotient_units h) (by decide) ?_
  rw [magValue_plusOne, Nat.one_shiftLeft, Nat.cast_pow, Nat.cast_ofNat]
  exact mul_le_of_le_one_left (by positivity) hone

theorem roundRoot_quotient_self {n : Nat} (h : n ≠ 0) : roundRoot 1 (n <<< 1074) n = magnitude plusOne := by
  have hunits : n <<< 1074 = magValue (magnitude plusOne) ^ 1 * n := by
    rw [magValue_plusOne, pow_one, shiftLeft_eq_mul_one_shiftLeft, Nat.mul_comm]
  rw [hunits]
  exact roundRoot_exact one_ne_zero (Nat.pos_of_ne_zero h) (by decide)

/-- Settles O40: rounding keeps the quotient at or below 1.0, which is its own rounding. -/
theorem berLiesBetweenZeroAndOne : Obligations.BerLiesBetweenZeroAndOne := by
  intro errors compared hle
  by_cases h : compared = 0
  · subst h
    rw [berValue_zero]
    exact ⟨by decide, by decide, fun hne => absurd rfl hne⟩
  · have hone := roundRoot_quotient_le h hle
    have hlt : roundRoot 1 (errors <<< 1074) compared < 2 ^ 63 := lt_of_le_of_lt hone (by decide)
    rw [berValue_of_ne_zero h]
    refine ⟨signBit_ofSignMag hlt, by rwa [magnitude_ofSignMag hlt], fun _ heq => ?_⟩
    rw [heq, roundRoot_quotient_self h]
    rfl

/-! ### The answers of BERC (R155, R193) -/

theorem exec_berc_srcLen {s : State} {ba bb : BitSel}
    (h : s.params.bitCap < s.bitLen ba ∨ s.params.bitCap < s.bitLen bb) :
    exec (.berc ba bb) s = raiseError .srcLen s := by
  rcases h with h | h <;> simp [exec, execBerc, bitsFit_false.mpr h]

/-- The state that a successful BERC leaves, by `exec_berc`. -/
def State.berc (s : State) (ba bb : BitSel) : State :=
  { s with
    results := { s.results with
      errCnt := BitVec.ofNat 32 (s.differing ba bb (s.compared ba bb))
      cmpLen := BitVec.ofNat 32 (s.compared ba bb)
      ber := berValue (s.differing ba bb (s.compared ba bb)) (s.compared ba bb) } }

theorem exec_berc {s : State} {ba bb : BitSel} (h1 : s.bitLen ba ≤ s.params.bitCap)
    (h2 : s.bitLen bb ≤ s.params.bitCap) : exec (.berc ba bb) s = .next (s.berc ba bb) := by
  simp [exec, execBerc, (s.bitsFit_iff ba).mpr h1, (s.bitsFit_iff bb).mpr h2, countDiffering_bits, State.berc,
    State.compared]

section
variable (s : State) (ba bb : BitSel)

theorem sameRegisters_berc : SameRegisters s (s.berc ba bb) := by constructor <;> rfl

theorem sameAllBits_berc : SameAllBits s (s.berc ba bb) := sameAllBits_of (fun b => by cases b <;> rfl) rfl

theorem sameAllSamples_berc : SameAllSamples s (s.berc ba bb) := sameAllSamples_of (fun p => by cases p <;> rfl) rfl

end

/-- Settles O39: the word matches its row of the opcode map, the error has its check, and BERC leaves the count, the
compared length, the rounded quotient and the rest of the state as it was. -/
theorem bercCountsDifferingBits : Obligations.BercCountsDifferingBits := by
  refine fun s ba bb => ⟨encode_and_matchMask (.berc ba bb), fun h => ?_, fun h1 h2 errors compared hc he => ?_⟩
  · rw [exec_berc_srcLen h]; exact raiseError_failsWith _ s
  · obtain rfl : compared = s.compared ba bb := hc
    obtain rfl : errors = s.differing ba bb (s.compared ba bb) := he.trans List.countP_eq_length_filter.symm
    exact ⟨s.berc ba bb, exec_berc h1 h2, rfl, rfl, fun h0 => if_pos h0, roundsTo_berValue, rfl, rfl, rfl, rfl,
      sameRegisters_berc s ba bb, sameAllBits_berc s ba bb, sameAllSamples_berc s ba bb⟩

/-! ### An operand cut to the other's length (R156) -/

/-- The length register of `b` set to that of `c`, the cells kept. -/
def State.cutTo (s : State) (b c : BitSel) : State := s.setBitBuf b { s.bitBuf b with len := (s.bitBuf c).len }

section
variable (s : State) {b c : BitSel}

theorem State.bitCell_cutTo (d : BitSel) (i : Nat) : (s.cutTo b c).bitCell d i = s.bitCell d i := by
  by_cases h : d = b
  · subst h; simp [State.bitCell, State.cutTo]
  · exact State.bitCell_congr (s.setBitBuf_bitBuf_ne _ h) (s.setBitBuf_powerOn b _) i

theorem State.bitLen_cutTo : (s.cutTo b c).bitLen b = s.bitLen c := by simp [State.bitLen, State.cutTo]

theorem State.bitLen_cutTo_ne (h : c ≠ b) : (s.cutTo b c).bitLen c = s.bitLen c := by
  rw [State.bitLen, State.cutTo, s.setBitBuf_bitBuf_ne _ h]; rfl

theorem State.params_cutTo : (s.cutTo b c).params = s.params := s.setBitBuf_params b _

end

/-- Cutting `b` to the shorter `c` leaves both at the length of `c`. -/
theorem bitLen_cutTo_of_lt {s : State} {b c : BitSel} (h : s.bitLen c < s.bitLen b) :
    (s.cutTo b c).bitLen b = s.bitLen c ∧ (s.cutTo b c).bitLen c = s.bitLen c :=
  ⟨s.bitLen_cutTo, s.bitLen_cutTo_ne fun he => by subst he; exact lt_irrefl _ h⟩

/-- BERC's results are read off the compared cells and the results before it. -/
theorem results_berc_congr {s t : State} {ba bb : BitSel} (hr : t.results = s.results)
    (hc : t.compared ba bb = s.compared ba bb) (hcell : ∀ b i, t.bitCell b i = s.bitCell b i) :
    (t.berc ba bb).results = (s.berc ba bb).results := by
  simp only [State.berc, State.differing, hr, hc, hcell]

/-- A cut that leaves both operands at the compared length keeps BERC's results. -/
theorem exec_berc_cutTo {s : State} {ba bb b c : BitSel} (h1 : s.bitLen ba ≤ s.params.bitCap)
    (h2 : s.bitLen bb ≤ s.params.bitCap) (ha : (s.cutTo b c).bitLen ba = s.compared ba bb)
    (hb : (s.cutTo b c).bitLen bb = s.compared ba bb) :
    ∃ t u, exec (.berc ba bb) s = .next t ∧ exec (.berc ba bb) (s.cutTo b c) = .next u ∧ t.results = u.results := by
  have hfits : s.compared ba bb ≤ (s.cutTo b c).params.bitCap := by
    rw [State.params_cutTo]; exact (min_le_left _ _).trans h1
  have hcompared : (s.cutTo b c).compared ba bb = s.compared ba bb := by
    rw [State.compared, ha, hb, min_self]
  exact ⟨_, _, exec_berc h1 h2, exec_berc (ha.trans_le hfits) (hb.trans_le hfits),
    (results_berc_congr (s.setBitBuf_results b _) hcompared s.bitCell_cutTo).symm⟩

/-- Settles O41: either cut leaves both operands at the length of the shorter one, and keeps every cell. -/
theorem bercTruncatesToTheShorter : Obligations.BercTruncatesToTheShorter := by
  refine fun s ba bb h1 h2 => ⟨fun hlt => ?_, fun hlt => ?_⟩
  · obtain ⟨hb, ha⟩ := bitLen_cutTo_of_lt hlt
    have hmin : s.compared ba bb = s.bitLen ba := min_eq_left hlt.le
    exact exec_berc_cutTo h1 h2 (ha.trans hmin.symm) (hb.trans hmin.symm)
  · obtain ⟨ha, hb⟩ := bitLen_cutTo_of_lt hlt
    have hmin : s.compared ba bb = s.bitLen bb := min_eq_right hlt.le
    exact exec_berc_cutTo h1 h2 (ha.trans hmin.symm) (hb.trans hmin.symm)

end Sys2Proof.Machine

/-! PROOFS. The two agents and the control commands (spec/46_control.md): what a step does by its next event, what the
core's turn does with the pending command, a pending command until its turn, and NOP, CLR and the write of CMD. -/

namespace Sys2Proof.Machine

open Sys2Proof.Safety Sys2Proof.Claims

/-! ### A step by its next event (R74, R79; log 2) -/

theorem step_nil {s : State} (h : s.inputs = []) : step s = coreTurn s := by rw [step, h]

theorem step_cons {s : State} {e : HostEvent} {rest : List HostEvent} (h : s.inputs = e :: rest) :
    step s = runEvent e { s with inputs := rest } := by rw [step, h]

/-- The core has its turn where that is the next event, and where there is none. -/
theorem step_turn {s : State} (h : s.inputs = [] ∨ s.inputs.head? = some .coreTurn) :
    step s = coreTurn { s with inputs := s.inputs.tail } := by
  rcases h with hnil | hhead
  · rw [step_nil hnil, hnil, List.tail_nil, ← hnil]
  · exact step_cons (List.eq_cons_of_mem_head? hhead)

/-! ### The core's turn (R166) -/

theorem coreTurn_idle {s : State} (h : s.pend = false) : coreTurn s = .next s := by simp [coreTurn, h]

theorem coreTurn_pending {s : State} (h : s.pend = true) : coreTurn s = performCommand s.pcmd s := if_pos h

theorem performCommand_legal {w : Word} {i : Instr} {s t : State} (hi : decode w = .ok i) (ht : exec i s = .next t) :
    performCommand w s = .next (completeCommand t) := by
  simp only [performCommand, hi, ht, thenComplete]

theorem performCommand_illegal {w : Word} {e : Illegal} (h : decode w = .error e) (s : State) :
    performCommand w s = .next (completeCommand (recordError .illegal w s)) := by
  simp only [performCommand, h]

/-- Every command answers a next state, on any of the paths of `exec_cases`. -/
theorem exec_answers (i : Instr) (s : State) : ∃ t, exec i s = .next t := by
  rcases exec_cases i s with ⟨_, -, h⟩ | ⟨_, _, -, h⟩ | ⟨_, _, _, _, -, h⟩ | ⟨_, _, _, _, -, -, -, h⟩ |
    ⟨_, _, _, _, _, _, -, -, -, -, h⟩ | ⟨_, _, _, _, _, -, -, -, -, h⟩ | ⟨-, h⟩ | ⟨-, h⟩ | ⟨-, h⟩ <;>
    exact ⟨_, h⟩

/-- Every word is performed and completed, legal or not. -/
theorem performCommand_answers (w : Word) (s : State) : ∃ t, performCommand w s = .next (completeCommand t) := by
  cases hw : decode w with
  | ok i =>
    obtain ⟨t, ht⟩ := exec_answers i s
    exact ⟨t, performCommand_legal hw ht⟩
  | error e => exact ⟨_, performCommand_illegal hw s⟩

theorem coreTurn_of_exec {s t : State} {i : Instr} (hp : s.pend = true) (hi : decode s.pcmd = .ok i)
    (ht : exec i s = .next t) : coreTurn s = .next (completeCommand t) :=
  (coreTurn_pending hp).trans (performCommand_legal hi ht)

/-- Settles O6, from the step's equation for its next event and the two equations of the core's turn. -/
theorem coreTurnRunsTheDecodedCommand : Obligations.CoreTurnRunsTheDecodedCommand := by
  refine ⟨fun s t i hp hi => ⟨fun hin ht => ?_, fun rest hin ht => ?_⟩, fun s rest =>
    ⟨fun addr v hin => step_cons hin, fun addr hin => step_cons hin, step_cons, fun hin hp => ?_⟩⟩
  · exact (step_nil hin).trans (coreTurn_of_exec hp hi ht)
  · exact (step_cons hin).trans (coreTurn_of_exec (s := { s with inputs := rest }) hp hi ht)
  · exact (step_cons hin).trans (coreTurn_idle (s := { s with inputs := rest }) hp)

/-- A placed word is accepted, and the core's turn on it is the next step (log 12). -/
theorem step_withFetchWord (s : State) {w : Nat} (h : w < 2 ^ 32) :
    step (s.withFetchWord 32 w) = coreTurn (acceptCommand (BitVec.ofNat 32 w) s) := by
  rw [State.withFetchWord, Nat.mod_eq_of_lt h]
  exact step_cons (s := placeCommand (BitVec.ofNat 32 w) s) rfl

/-- Settles O7: the placed word is pending in the turn that follows. -/
theorem placedWordIsPerformedNext : Obligations.PlacedWordIsPerformedNext := by
  intro s t w i hw hi ht
  rw [step_withFetchWord s hw]
  exact coreTurn_of_exec (acceptCommand_pend _ s) hi ht

/-! ### An access keeps what comes after it -/

@[simp] theorem writeReg_inputs (r : Reg) (v : Word) (s : State) : (writeReg r v s).inputs = s.inputs := by
  cases r <;> simp [writeReg]

@[simp] theorem writeTarget_inputs (t : Target) (v : Word) (s : State) : (writeTarget t v s).inputs = s.inputs := by
  cases t with
  | reg r => exact writeReg_inputs r v s
  | bitWord b m => simp only [writeTarget, writeBitWord]; split <;> simp
  | sampHalf p k => simp only [writeTarget, writeSampHalf]; split <;> simp
  | unmapped => rfl

@[simp] theorem hostWrite_inputs (addr v : Word) (s : State) : (hostWrite addr v s).inputs = s.inputs := by
  rcases hostWrite_cases addr v s with h | ⟨-, info, h⟩ | ⟨off, -, -, h⟩ <;> rw [h]
  · exact recordError_inputs _ _ _
  · exact writeTarget_inputs _ _ _

@[simp] theorem hostRead_inputs (addr : Word) (s : State) : (hostRead addr s).inputs = s.inputs := by
  obtain ⟨replies, draws, h⟩ := hostRead_eq addr s
  rw [h]

/-- While a command is pending no write accepts another one (R165). -/
theorem samePending_hostWrite {s : State} (addr v : Word) (hp : s.pend = true) :
    SamePending s (hostWrite addr v s) := by
  rcases hostWrite_pending addr v s with hsame | ⟨hidle, -, -⟩
  · exact hsame
  · rw [hp] at hidle; cases hidle

/-- A step that is a host access uses up its event and keeps the pending command. -/
theorem step_access {s : State} {e : HostEvent} {rest : List HostEvent} (hin : s.inputs = e :: rest)
    (hp : s.pend = true) (hturn : e ≠ .coreTurn) (hreset : e ≠ .reset) :
    ∃ t, step s = .next t ∧ t.inputs = rest ∧ SamePending s t := by
  rw [step_cons hin]
  cases e with
  | write addr v => exact ⟨_, rfl, hostWrite_inputs _ _ _, samePending_hostWrite addr v hp⟩
  | read addr => exact ⟨_, rfl, hostRead_inputs _ _, samePending_hostRead addr _⟩
  | coreTurn => exact absurd rfl hturn
  | reset => exact absurd rfl hreset

/-! ### Runs -/

theorem reaches_succ {k : Nat} {s t u : State} (h : step s = .next t) (hr : Reaches k t u) : Reaches (k + 1) s u := by
  rw [Reaches, runSteps, h]
  exact hr

theorem reaches_step {k : Nat} {s t u : State} (hr : Reaches k s t) (h : step t = .next u) : Reaches (k + 1) s u := by
  induction k generalizing s with
  | zero =>
    obtain rfl := Host.Outcome.next.inj hr
    exact reaches_succ h rfl
  | succ k ih =>
    rw [Reaches, runSteps] at hr
    split at hr
    case h_1 s' hs' => exact reaches_succ hs' (ih hr)
    case h_2 | h_3 => cases hr

/-! ### A pending command until its turn (R171) -/

/-- Accesses use up their events and keep the pending command, until the core's turn, or a reset that was coming. -/
theorem reaches_turn_or_reset {s : State} (hp : s.pend = true) :
    ∃ k u, k ≤ s.inputs.length ∧ Reaches k s u ∧ u.pend = true ∧ u.pcmd = s.pcmd ∧
      ((u.inputs = [] ∨ u.inputs.head? = some .coreTurn) ∨
        u.inputs.head? = some .reset ∧ HostEvent.reset ∈ s.inputs) := by
  induction hin : s.inputs generalizing s with
  | nil => exact ⟨0, s, Nat.zero_le _, rfl, hp, rfl, .inl (.inl hin)⟩
  | cons e rest ih =>
    by_cases hturn : e = .coreTurn
    · exact ⟨0, s, Nat.zero_le _, rfl, hp, rfl, .inl (.inr (by rw [hin, hturn]; rfl))⟩
    by_cases hreset : e = .reset
    · exact ⟨0, s, Nat.zero_le _, rfl, hp, rfl, .inr ⟨by rw [hin, hreset]; rfl, by simp [hreset]⟩⟩
    obtain ⟨t, ht, hrest, hpend, hpcmd, -⟩ := step_access hin hp hturn hreset
    obtain ⟨k, u, hk, hu, hup, hupcmd, hnext⟩ := ih (hpend.trans hp) hrest
    exact ⟨k + 1, u, Nat.succ_le_succ hk, reaches_succ ht hu, hup, hupcmd.trans hpcmd,
      hnext.imp_right fun ⟨hhead, hmem⟩ => ⟨hhead, List.mem_cons_of_mem e hmem⟩⟩

/-- The core's turn on a pending command performs it: PEND is then 0 and DONE 1 (R166). -/
theorem step_turn_performs {s : State} {w : Word} (hp : s.pend = true) (hw : s.pcmd = w)
    (h : s.inputs = [] ∨ s.inputs.head? = some .coreTurn) :
    ∃ t, step s = .next t ∧ performCommand w { s with inputs := s.inputs.tail } = .next t ∧ t.pend = false ∧
      t.status.done = true := by
  subst hw
  obtain ⟨t, ht⟩ := performCommand_answers s.pcmd { s with inputs := s.inputs.tail }
  have hturn : step s = performCommand s.pcmd { s with inputs := s.inputs.tail } :=
    (step_turn h).trans (coreTurn_pending (s := { s with inputs := s.inputs.tail }) hp)
  exact ⟨completeCommand t, hturn.trans ht, ht, rfl, rfl⟩

/-- Settles O12: `reaches_turn_or_reset` leads to the core's turn, which performs the command, or, where a reset is
coming, to that reset, which abandons it. -/
theorem pendingCommandIsPerformed : Obligations.PendingCommandIsPerformed := by
  intro s hp
  obtain ⟨k, u, hk, hu, hup, hpcmd, hnext⟩ := reaches_turn_or_reset hp
  rcases hnext with hturn | ⟨hhead, hmem⟩
  · obtain ⟨t, hstep, hperform, hpend, hdone⟩ := step_turn_performs hup hpcmd hturn
    exact ⟨fun _ => ⟨k, u, t, hk, hu, hup, hpcmd, hturn, hstep, hperform, hpend, hdone⟩,
      k + 1, t, Nat.succ_le_succ hk, reaches_step hu hstep, hpend⟩
  · have hstep : step u = .next (resetCore { u with inputs := u.inputs.tail }) :=
      step_cons (List.eq_cons_of_mem_head? hhead)
    exact ⟨fun hnot => absurd hmem hnot, k + 1, _, Nat.succ_le_succ hk, reaches_step hu hstep, rfl⟩

/-! ### NOP and CLR (R168, R169) -/

/-- A command's only word, R96 read from the word. -/
theorem decode_eq_ok_iff {w : Word} {i : Instr} : decode w = .ok i ↔ w = encode i :=
  (eachCommandHasExactlyOneWord w i).trans eq_comm

/-- Settles O43: NOP's word is that of its encoding, and its arm answers the state. -/
theorem nopChangesNothing : Obligations.NopChangesNothing :=
  ⟨fun _ => decode_eq_ok_iff, fun _ => rfl⟩

/-- The state that CLR leaves. -/
def State.cleared (s : State) : State :=
  { s with
    src := s.src.emptied
    coded := s.coded.emptied
    demod := s.demod.emptied
    recov := s.recov.emptied
    sig := s.sig.emptied
    rx := s.rx.emptied
    results := Results.zero }

section
variable (s : State)

theorem exec_clr : exec .clr s = .next s.cleared := rfl

@[simp] theorem State.bitBuf_cleared (b : BitSel) : s.cleared.bitBuf b = (s.bitBuf b).emptied := by cases b <;> rfl

@[simp] theorem State.sampBuf_cleared (p : SampSel) : s.cleared.sampBuf p = (s.sampBuf p).emptied := by
  cases p <;> rfl

@[simp] theorem State.bitCell_cleared (b : BitSel) (i : Nat) : s.cleared.bitCell b i = s.bitCell b i := by
  cases b <;> rfl

@[simp] theorem State.sampWord_cleared (p : SampSel) (j : Nat) : s.cleared.sampWord p j = s.sampWord p j := by
  cases p <;> rfl

@[simp] theorem State.cleared_cleared : s.cleared.cleared = s.cleared := rfl

theorem sameRegisters_cleared : SameRegisters s s.cleared := by constructor <;> rfl

end

/-- Settles O42: CLR's word is that of its encoding; the buffers are emptied with their cells and words as they are. -/
theorem clrClearsLengthsShapesResults : Obligations.ClrClearsLengthsShapesResults := by
  refine ⟨fun _ => decode_eq_ok_iff, fun s => ⟨s.cleared, exec_clr s, fun b => ?_, fun p => ?_, rfl, s.bitCell_cleared,
    s.sampWord_cleared, rfl, rfl, sameRegisters_cleared s, ?_⟩⟩
  · rw [s.bitBuf_cleared]; rfl
  · rw [s.sampBuf_cleared]; exact ⟨rfl, rfl⟩
  · rw [exec_clr, s.cleared_cleared]

/-! ### Dropped and accepted writes (R165, R196) -/

/-- What recording BUSY with an offset leaves, by `recordError_eq`. -/
theorem recordsBusy_recordError (off : Nat) (s : State) :
    RecordsBusy off s (recordError .busy (BitVec.ofNat 32 off) s) := by
  rw [recordError_eq]
  refine ⟨rfl, rfl, rfl, ?_⟩
  cases h : s.status.err <;> simp

/-- A write of a guarded offset while a command is pending records BUSY and nothing else. -/
theorem hostWrite_recordsBusy {s : State} {addr : Word} {off : Nat} (v : Word) (h : AtOffset s addr off)
    (hp : s.pend = true) (hg : (targetAt off).guarded = true) : RecordsBusy off s (hostWrite addr v s) := by
  obtain ⟨hw, rfl⟩ := h
  rw [hostWrite_dropped v hw (Bool.and_eq_true_iff.mpr ⟨hp, hg⟩)]
  exact recordsBusy_recordError _ s

/-- Settles O47: CMD is a guarded register, whose write while idle is `acceptCommand`. -/
theorem cmdWriteAcceptsTheWord : Obligations.CmdWriteAcceptsTheWord := by
  intro s addr v h
  exact ⟨fun hp => hostWrite_reg (r := .cmd) v rfl h (.inl hp), fun hp => hostWrite_recordsBusy v h hp rfl⟩

end Sys2Proof.Machine

/-! PROOFS. The empty message through the host's pipeline (spec/47_host_reference.md R184): each command of it on an
operand of length 0, the lengths it leaves, and the run they make, which is one argument for both schemes. -/

namespace Sys2Proof.Machine

open Sys2Proof.Claims

/-! ### Lengths that an operation leaves -/

section
variable (s : State)

@[simp] theorem State.bitLen_putBits_nil (b : BitSel) : (s.putBits b []).bitLen b = 0 :=
  s.bitLen_putBits b [] (by decide)

theorem State.bitLen_putBits_ne {b c : BitSel} (ys : List Bool) (h : c ≠ b) :
    (s.putBits b ys).bitLen c = s.bitLen c := by
  rw [State.bitLen, s.bitBuf_putBits_ne ys h, State.bitLen]

@[simp] theorem State.symbols_putBits (b : BitSel) (ys : List Bool) (p : SampSel) :
    (s.putBits b ys).symbols p = s.symbols p := by
  rw [State.symbols, State.putBits_sampBuf, State.symbols]

@[simp] theorem State.bitLen_putSamples (p : SampSel) (ys : List F64) (n : Nat) (h : Shape) (b : BitSel) :
    (s.putSamples p ys n h).bitLen b = s.bitLen b := by
  rw [State.bitLen, State.putSamples_bitBuf, State.bitLen]

@[simp] theorem State.symbols_putSamples_zero (p : SampSel) (ys : List F64) (h : Shape) :
    (s.putSamples p ys 0 h).symbols p = 0 :=
  s.symbols_putSamples p ys 0 h (by decide)

@[simp] theorem State.shape_putSamples (p : SampSel) (ys : List F64) (n : Nat) (h : Shape) :
    ((s.putSamples p ys n h).sampBuf p).shape = h := by
  rw [State.sampBuf_putSamples]

variable (sa sb : SampSel)

@[simp] theorem State.bitLen_awgnEmpty (b : BitSel) : (s.awgnEmpty sa sb).bitLen b = s.bitLen b :=
  Eq.trans (by cases b <;> rfl) (s.bitLen_putSamples sb [] 0 (s.sampBuf sa).shape b)

@[simp] theorem State.symbols_awgnEmpty : (s.awgnEmpty sa sb).symbols sb = 0 := by
  rw [State.symbols, State.sampBuf_awgnEmpty]; rfl

theorem State.symbols_awgnEmpty_ne {p : SampSel} (h : p ≠ sb) : (s.awgnEmpty sa sb).symbols p = s.symbols p := by
  rw [State.symbols, State.awgnEmpty, sampBuf_with, s.sampBuf_putSamples_ne _ _ _ h, State.symbols]

@[simp] theorem State.shape_awgnEmpty : ((s.awgnEmpty sa sb).sampBuf sb).shape = (s.sampBuf sa).shape := by
  rw [State.sampBuf_awgnEmpty]

variable (ba bb : BitSel)

@[simp] theorem State.bitLen_berc (b : BitSel) : (s.berc ba bb).bitLen b = s.bitLen b := by cases b <;> rfl

@[simp] theorem State.symbols_berc (p : SampSel) : (s.berc ba bb).symbols p = s.symbols p := by cases p <;> rfl

end

/-! ### Commands on an empty operand -/

section
variable {s : State} {ba bb : BitSel} {sa sb : SampSel}

theorem State.bits_eq_nil (h : s.bitLen ba = 0) : s.bits ba = [] :=
  List.eq_nil_of_length_eq_zero ((s.bits_length ba).trans h)

theorem State.signal_eq_nil (h : s.symbols sa = 0) : s.signal sa = [] :=
  List.eq_nil_of_length_eq_zero ((s.signal_length sa).trans (State.components_of_symbols_eq_zero h))

theorem exec_menc_of_empty (h : s.bitLen ba = 0) : exec (.menc ba bb) s = .next (s.putBits bb []) := by
  rw [exec_menc (by omega) (by omega), State.bits_eq_nil h]; rfl

theorem exec_mdec_of_empty (h : s.bitLen ba = 0) : exec (.mdec ba bb) s = .next (s.putBits bb []) := by
  rw [exec_mdec (by omega), State.bits_eq_nil h]; rfl

theorem exec_bmod_of_empty (h : s.bitLen ba = 0) : exec (.bmod ba sb) s = .next (s.putSamples sb [] 0 .scalar) := by
  rw [exec_bmod (by omega) (by omega), State.bits_eq_nil h, h]; rfl

theorem exec_qmod_of_empty (h : s.bitLen ba = 0) : exec (.qmod ba sb) s = .next (s.putSamples sb [] 0 .pair) := by
  rw [exec_qmod (by omega) (by omega), State.bits_eq_nil h, h]; rfl

theorem exec_bdem_of_empty (h : s.symbols sa = 0) (hs : (s.sampBuf sa).shape = .scalar) :
    exec (.bdem sa bb) s = .next (s.putBits bb []) := by
  rw [exec_bdem hs (by omega) (by omega), State.signal_eq_nil h]; rfl

theorem exec_qdem_of_empty (h : s.symbols sa = 0) (hs : (s.sampBuf sa).shape = .pair) :
    exec (.qdem sa bb) s = .next (s.putBits bb []) := by
  rw [exec_qdem hs (by omega) (by omega), State.signal_eq_nil h]; rfl

theorem exec_awgn_of_empty (h : s.symbols sa = 0) : exec (.awgn sa sb) s = .next (s.awgnEmpty sa sb) :=
  exec_awgn_empty (by rw [State.components_of_symbols_eq_zero h]; exact Nat.zero_le _) h

theorem exec_berc_of_empty (ha : s.bitLen ba = 0) (hb : s.bitLen bb = 0) :
    exec (.berc ba bb) s = .next (s.berc ba bb) :=
  exec_berc (by omega) (by omega)

/-- BERC on an empty reference compares nothing, so its quotient is +0.0 (R155). -/
theorem results_berc_of_empty (h : s.bitLen ba = 0) :
    (s.berc ba bb).results.cmpLen = 0 ∧ (s.berc ba bb).results.ber = plusZero := by
  have hcompared : s.compared ba bb = 0 := by rw [State.compared, h, Nat.zero_min]
  simp only [State.berc, hcompared, berValue_zero, and_true]
  rfl

end

/-! ### The pipeline (R184) -/

theorem runCommands_cons {i : Instr} {s t : State} (h : exec i s = .next t) (rest : List Instr) :
    runCommands (i :: rest) s = runCommands rest t := by rw [runCommands, h]

/-- The state before BERC when the message is empty and the scheme's signals have shape `sh`. -/
def State.emptyStages (s : State) (sh : Shape) : State :=
  ((((s.putBits .coded []).putSamples .sig [] 0 sh).awgnEmpty .sig .rx).putBits .demod []).putBits .recov []

section
variable (s : State) (sh : Shape)

theorem State.bitLen_emptyStages : ∀ b, b ≠ .src → (s.emptyStages sh).bitLen b = 0
  | .src, h => absurd rfl h
  | .coded, _ | .demod, _ | .recov, _ => by simp [State.emptyStages, State.bitLen_putBits_ne]

theorem State.bitLen_src_emptyStages : (s.emptyStages sh).bitLen .src = s.bitLen .src := by
  simp [State.emptyStages, State.bitLen_putBits_ne]

theorem State.symbols_emptyStages (p : SampSel) : (s.emptyStages sh).symbols p = 0 := by
  cases p <;> simp [State.emptyStages, State.symbols_awgnEmpty_ne]

theorem State.gen_emptyStages : (s.emptyStages sh).gen = s.gen := by simp [State.emptyStages]

end

/-- A modulator and a demodulator that agree on the shape of an empty signal carry the empty message to the end. -/
theorem runCommands_empty_message {modulate demodulate : Instr} {sh : Shape} {s : State} (h : s.bitLen .src = 0)
    (hmod : ∀ t : State, t.bitLen .coded = 0 → exec modulate t = .next (t.putSamples .sig [] 0 sh))
    (hdem : ∀ t : State, t.symbols .rx = 0 → (t.sampBuf .rx).shape = sh →
      exec demodulate t = .next (t.putBits .demod [])) :
    ∃ t, runCommands [.menc .src .coded, modulate, .awgn .sig .rx, demodulate, .mdec .demod .recov,
        .berc .src .recov] s = .next t ∧ t.bitLen .coded = 0 ∧ t.symbols .sig = 0 ∧ t.symbols .rx = 0 ∧
      t.bitLen .demod = 0 ∧ t.bitLen .recov = 0 ∧ t.gen = s.gen ∧ t.results.cmpLen = 0 ∧ t.results.ber = plusZero := by
  have hsrc : (s.emptyStages sh).bitLen .src = 0 := (s.bitLen_src_emptyStages sh).trans h
  have hbits := s.bitLen_emptyStages sh
  have hsymbols := s.symbols_emptyStages sh
  refine ⟨(s.emptyStages sh).berc .src .recov, ?_, ?_⟩
  · rw [runCommands_cons (exec_menc_of_empty h), runCommands_cons (hmod _ (by simp)),
      runCommands_cons (exec_awgn_of_empty (by simp)), runCommands_cons (hdem _ (by simp) (by simp)),
      runCommands_cons (exec_mdec_of_empty (by simp))]
    exact runCommands_cons (exec_berc_of_empty hsrc (hbits .recov nofun)) []
  · simp only [State.bitLen_berc, State.symbols_berc]
    exact ⟨hbits .coded nofun, hsymbols .sig, hsymbols .rx, hbits .demod nofun, hbits .recov nofun,
      s.gen_emptyStages sh, results_berc_of_empty hsrc⟩

/-- Settles O44: both schemes are cases of `runCommands_empty_message`, whose run reads no SNR. -/
theorem emptyMessageGivesEmptyResults : Obligations.EmptyMessageGivesEmptyResults := fun _ h =>
  ⟨runCommands_empty_message h (fun _ => exec_bmod_of_empty) (fun _ => exec_bdem_of_empty),
    runCommands_empty_message h (fun _ => exec_qmod_of_empty) (fun _ => exec_qdem_of_empty)⟩

end Sys2Proof.Machine

/-! PROOFS. Errors, reset and hazards (spec/60_exceptions.md, spec/70_reset_and_hazards.md): which error a command or an
illegal word records, what accesses do while a command is pending, what reset leaves, and the free NaN (I7). -/

namespace Sys2Proof.Machine

open Sys2Proof.Safety Sys2Proof.Claims

/-! ### Every step answers (Part 1 of 93, R208) -/

theorem coreTurn_answers (s : State) : ∃ t, coreTurn s = .next t := by
  cases hp : s.pend with
  | false => exact ⟨s, coreTurn_idle hp⟩
  | true =>
    obtain ⟨t, ht⟩ := performCommand_answers s.pcmd s
    exact ⟨completeCommand t, (coreTurn_pending hp).trans ht⟩

theorem runEvent_answers (e : HostEvent) (s : State) : ∃ t, runEvent e s = .next t := by
  cases e with
  | write addr v => exact ⟨hostWrite addr v s, rfl⟩
  | read addr => exact ⟨hostRead addr s, rfl⟩
  | coreTurn => exact coreTurn_answers s
  | reset => exact ⟨resetCore s, rfl⟩

theorem step_answers (s : State) : ∃ t, step s = .next t := by
  cases hin : s.inputs with
  | nil => rw [step_nil hin]; exact coreTurn_answers s
  | cons e rest => rw [step_cons hin]; exact runEvent_answers e _

/-- Settles O9: every event is answered, and with none left an idle core's turn answers the same state. -/
theorem everyStepAnswersANextState : Obligations.EveryStepAnswersANextState := by
  intro s
  obtain ⟨t, ht⟩ := step_answers s
  refine ⟨t, ht, fun hp hin => ?_⟩
  rw [step_nil hin, coreTurn_idle hp] at ht
  exact (Host.Outcome.next.inj ht).symm

/-! ### Illegal words (R192) -/

theorem decode_of_illegalWord {w : Word} (h : IllegalWord w) : ∃ e, decode w = .error e := by
  cases hw : decode w with
  | error e => exact ⟨e, rfl⟩
  | ok i =>
    obtain ⟨hopc, hfields⟩ := (exists_decode_eq_ok_iff w).mp ⟨i, hw⟩
    rcases h with hreserved | hone
    · omega
    · exact absurd hfields hone

/-- Settles O8: an illegal word decodes to no command, so the core's turn only records ILLEGAL. -/
theorem illegalWordOnlyRecordsIllegal : Obligations.IllegalWordOnlyRecordsIllegal := by
  intro s hp hillegal
  obtain ⟨e, he⟩ := decode_of_illegalWord hillegal
  have hturn := (coreTurn_pending hp).trans (performCommand_illegal he s)
  exact ⟨recordError .illegal s.pcmd s, hturn, failsWith_recordError .illegal s, fun hin => (step_nil hin).trans hturn⟩

/-! ### The errors of the commands (R193 to R195) -/

section
variable {s : State} {i : Instr}

theorem exec_of_sourceTooLong (h : SourceTooLong s i) : exec i s = raiseError .srcLen s := by
  cases i with
  | menc ba bb => exact exec_menc_srcLen h
  | mdec ba bb => exact exec_mdec_srcLen h
  | bmod ba sb => exact exec_bmod_srcLen h
  | bdem sa bb => exact exec_bdem_srcLen h
  | qmod ba sb => exact exec_qmod_srcLen h
  | qdem sa bb => exact exec_qdem_srcLen h
  | awgn sa sb => exact exec_awgn_srcLen h
  | berc ba bb => exact exec_berc_srcLen h
  | nop | seed | clr => exact h.elim

theorem exec_of_wrongShape (hfit : ¬ SourceTooLong s i) (h : WrongShape s i) : exec i s = raiseError .shape s := by
  cases i with
  | bdem sa bb => exact exec_bdem_shape (Nat.le_of_not_lt hfit) h
  | qdem sa bb => exact exec_qdem_shape (Nat.le_of_not_lt hfit) h
  | nop | menc | mdec | bmod | qmod | awgn | berc | seed | clr => exact h.elim

theorem Shape.eq_scalar_of_ne_pair {h : Shape} (hne : h ≠ .pair) : h = .scalar := by
  cases h with
  | scalar => rfl
  | pair => exact absurd rfl hne

theorem Shape.eq_pair_of_ne_scalar {h : Shape} (hne : h ≠ .scalar) : h = .pair := by
  cases h with
  | scalar => exact absurd rfl hne
  | pair => rfl

theorem exec_of_resultTooLarge (hfit : ¬ SourceTooLong s i) (hshape : ¬ WrongShape s i) (h : ResultTooLarge s i) :
    exec i s = raiseError .dstCap s := by
  cases i with
  | menc ba bb => exact exec_menc_dstCap (Nat.le_of_not_lt hfit) h
  | bmod ba sb => exact exec_bmod_dstCap (Nat.le_of_not_lt hfit) h
  | qmod ba sb => exact exec_qmod_dstCap (Nat.le_of_not_lt hfit) h
  | bdem sa bb => exact exec_bdem_dstCap (Nat.le_of_not_lt hfit) (Shape.eq_scalar_of_ne_pair hshape) h
  | qdem sa bb => exact exec_qdem_dstCap (Nat.le_of_not_lt hfit) (Shape.eq_pair_of_ne_scalar hshape) h
  | nop | mdec | awgn | berc | seed | clr => exact h.elim

/-- With none of the three causes the command's result is stored, and no flag changes. -/
theorem exec_of_fits (hfit : ¬ SourceTooLong s i) (hshape : ¬ WrongShape s i) (hdst : ¬ ResultTooLarge s i) :
    ∃ t, exec i s = .next t ∧ t.status = s.status := by
  cases i with
  | menc ba bb => exact ⟨_, exec_menc (Nat.le_of_not_lt hfit) (Nat.le_of_not_lt hdst), State.putBits_status ..⟩
  | mdec ba bb => exact ⟨_, exec_mdec (Nat.le_of_not_lt hfit), State.putBits_status ..⟩
  | bmod ba sb => exact ⟨_, exec_bmod (Nat.le_of_not_lt hfit) (Nat.le_of_not_lt hdst), State.putSamples_status ..⟩
  | qmod ba sb => exact ⟨_, exec_qmod (Nat.le_of_not_lt hfit) (Nat.le_of_not_lt hdst), State.putSamples_status ..⟩
  | bdem sa bb =>
    have hs := Shape.eq_scalar_of_ne_pair hshape
    have hcomp : s.components sa ≤ s.params.sampCap := Nat.le_of_not_lt hfit
    exact ⟨_, exec_bdem hs (State.components_of_scalar hs ▸ hcomp) (Nat.le_of_not_lt hdst), State.putBits_status ..⟩
  | qdem sa bb =>
    have hs := Shape.eq_pair_of_ne_scalar hshape
    have hcomp : s.components sa ≤ s.params.sampCap := Nat.le_of_not_lt hfit
    exact ⟨_, exec_qdem hs (State.components_of_pair hs ▸ hcomp) (Nat.le_of_not_lt hdst), State.putBits_status ..⟩
  | awgn sa sb =>
    by_cases hempty : s.symbols sa = 0
    · exact ⟨_, exec_awgn_empty (Nat.le_of_not_lt hfit) hempty, State.putSamples_status ..⟩
    · exact ⟨_, exec_awgn (Nat.le_of_not_lt hfit) hempty, State.putSamples_status ..⟩
  | berc ba bb =>
    obtain ⟨ha, hb⟩ := not_or.mp hfit
    exact ⟨_, exec_berc (Nat.le_of_not_lt ha) (Nat.le_of_not_lt hb), rfl⟩
  | nop | seed | clr => exact ⟨_, rfl, rfl⟩

end

/-- Settles O46: under each condition the command raises that error, and under none it stores its result. -/
theorem errorCodesFollowTheirCauses : Obligations.ErrorCodesFollowTheirCauses := by
  intro i s
  obtain ⟨t, ht⟩ := exec_answers i s
  have hfails : ∀ e, exec i s = raiseError e s → FailsWith e s t := fun e he =>
    Host.Outcome.next.inj (he.symm.trans ht) ▸ failsWith_recordError e s
  refine ⟨t, ht, fun hsrc => hfails _ (exec_of_sourceTooLong hsrc),
    fun hfit hshape => hfails _ (exec_of_wrongShape hfit hshape),
    fun hfit hshape hdst => hfails _ (exec_of_resultTooLarge hfit hshape hdst), fun hfit hshape hdst => ?_⟩
  obtain ⟨u, hu, hstatus⟩ := exec_of_fits hfit hshape hdst
  rwa [Host.Outcome.next.inj (hu.symm.trans ht)] at hstatus

/-- Settles O45: a command fails with one of the causes of O46 or leaves STATUS; the core's turn ends in
`completeCommand`. -/
theorem errorsAreRecordedAndNothingElse : Obligations.ErrorsAreRecordedAndNothingElse := by
  refine ⟨fun e info s => rfl, fun i s t ht => ?_, fun s t hp ht => ?_⟩
  · obtain ⟨u, hu, hsrc, hshape, hdst, hnone⟩ := errorCodesFollowTheirCauses i s
    obtain rfl := Host.Outcome.next.inj (hu.symm.trans ht)
    by_cases h1 : SourceTooLong s i
    · exact .inr (.inl (hsrc h1))
    by_cases h2 : WrongShape s i
    · exact .inr (.inr (.inl (hshape h1 h2)))
    by_cases h3 : ResultTooLarge s i
    · exact .inr (.inr (.inr (hdst h1 h2 h3)))
    · exact .inl (hnone h1 h2 h3)
  · rcases coreTurn_cases ht with ⟨hidle, -⟩ | ⟨-, u, rfl, -⟩
    · rw [hp] at hidle; cases hidle
    · exact ⟨rfl, rfl⟩

/-! ### Accesses while a command is pending (R225, R231) -/

section
variable {s : State} {addr : Word} {off : Nat}

theorem guarded_targetAt (h : AtOffset s addr off) : (targetAt off).guarded = true ↔ GuardedOffset off := by
  unfold GuardedOffset
  rcases targetAt_cases (aligned_of_atOffset h) (lt_of_atOffset h) with
    ⟨k, hk, rfl, ht⟩ | ⟨hoff, ht⟩ | ⟨hlo, hhi, b, m, ht⟩ | ⟨hlo, hhi, p, k, ht⟩ <;> rw [ht]
  · rw [guarded_regAt k hk]
    simp only [Bool.or_eq_true, Bool.and_eq_true, beq_iff_eq, decide_eq_true_eq]
    omega
  all_goals
    simp only [Target.guarded, Bool.false_eq_true, false_iff, true_iff]
    omega

theorem readHazard_targetAt (h : AtOffset s addr off) : (targetAt off).readHazard = true ↔ HazardousOffset off := by
  unfold HazardousOffset
  rcases targetAt_cases (aligned_of_atOffset h) (lt_of_atOffset h) with
    ⟨k, hk, rfl, ht⟩ | ⟨hoff, ht⟩ | ⟨hlo, hhi, b, m, ht⟩ | ⟨hlo, hhi, p, k, ht⟩ <;> rw [ht]
  · rw [readHazard_regAt k hk]
    simp only [Bool.or_eq_true, Bool.and_eq_true, decide_eq_true_eq]
    omega
  all_goals
    simp only [Target.readHazard, Bool.false_eq_true, false_iff, true_iff]
    omega

/-- A register that the map holds at one offset only. -/
theorem off_eq_of_targetAt_reg {r : Reg} {n : Nat} (hreg : ∀ k < 28, regAt regMap (4 * k) = .reg r → 4 * k = n)
    (h : AtOffset s addr off) (ht : targetAt off = .reg r) : off = n := by
  rcases targetAt_cases (aligned_of_atOffset h) (lt_of_atOffset h) with
    ⟨k, hk, rfl, hr⟩ | ⟨-, hr⟩ | ⟨-, -, b, m, hr⟩ | ⟨-, -, p, k, hr⟩ <;> rw [hr] at ht
  · exact hreg k hk ht
  all_goals cases ht

end

theorem writeReg_of_not_guarded {r : Reg} (hg : r.guarded = false) (hctrl : r ≠ .ctrl) (hstatus : r ≠ .status)
    (v : Word) (s : State) : writeReg r v s = s := by
  cases r
  case ctrl => exact absurd rfl hctrl
  case status => exact absurd rfl hstatus
  case cmd | snrDb | seedLo | seedHi | bitLen | sampLen | sampShape => cases hg
  all_goals rfl

/-- Only CTRL and STATUS are written and not guarded (R225). -/
theorem writeTarget_of_not_guarded {t : Target} (hg : t.guarded = false) (hctrl : t ≠ .reg .ctrl)
    (hstatus : t ≠ .reg .status) (v : Word) (s : State) : writeTarget t v s = s := by
  cases t with
  | reg r => exact writeReg_of_not_guarded hg (mt (congrArg Target.reg) hctrl) (mt (congrArg Target.reg) hstatus) v s
  | bitWord | sampHalf => cases hg
  | unmapped => rfl

/-- Settles O48: the guarded targets are those of the guarded offsets; of the others only CTRL and STATUS
are written. -/
theorem guardedWritesAreDroppedWhilePending : Obligations.GuardedWritesAreDroppedWhilePending := by
  intro s addr v off h
  refine ⟨fun hp hg => hostWrite_recordsBusy v h hp ((guarded_targetAt h).mpr hg), ?_, ?_, fun hg hctrl hstatus => ?_⟩
  · rintro rfl
    exact hostWrite_reg (r := .ctrl) v rfl h (.inr rfl)
  · rintro rfl
    exact hostWrite_reg (r := .status) v rfl h (.inr rfl)
  · have hfree : (targetAt off).guarded = false := Bool.eq_false_iff.mpr (mt (guarded_targetAt h).mp hg)
    rw [hostWrite_target v h (.inr hfree)]
    exact writeTarget_of_not_guarded hfree (mt (off_eq_of_targetAt_reg (by decide) h) hctrl)
      (mt (off_eq_of_targetAt_reg (by decide) h) hstatus) v s

theorem hostRead_hazardous {s : State} {addr : Word} {off : Nat} (h : AtOffset s addr off) (hp : s.pend = true)
    (hh : (targetAt off).readHazard = true) :
    hostRead addr s = { s with replies := s.replies ++ [Config.busyReadWord s.draws], draws := s.draws + 1 } := by
  obtain ⟨hw, rfl⟩ := h
  simp [hostRead, hw, hp, hh]

/-- Settles O49: the hazardous targets are those of the hazardous offsets. -/
theorem readsWhilePendingAreHazardous : Obligations.ReadsWhilePendingAreHazardous := by
  intro s addr off hp h
  refine ⟨fun hh => hostRead_hazardous h hp ((readHazard_targetAt h).mpr hh), fun hh => hostRead_target h (.inr ?_)⟩
  exact Bool.eq_false_iff.mpr (mt (readHazard_targetAt h).mp hh)

/-! ### Reset (R220, R221) -/

theorem step_reset {s : State} {rest : List HostEvent} (h : s.inputs = .reset :: rest) :
    step s = .next (resetCore { s with inputs := rest }) := step_cons h

section
variable (s : State)

@[simp] theorem bitBuf_resetCore (b : BitSel) : (resetCore s).bitBuf b = BitBuf.unwritten := by cases b <;> rfl

@[simp] theorem sampBuf_resetCore (p : SampSel) : (resetCore s).sampBuf p = SampBuf.unwritten := by cases p <;> rfl

/-- No cell is written, so each holds its power-on value of the reset's draw. -/
theorem bitCell_resetCore (b : BitSel) (i : Nat) : (resetCore s).bitCell b i = Config.powerOnBit s.draws b i := by
  rw [State.bitCell, bitBuf_resetCore]
  rfl

theorem sampHalf_resetCore (p : SampSel) (k : Nat) : (resetCore s).sampHalf p k = Config.powerOnHalf s.draws p k := by
  rw [State.sampHalf, sampBuf_resetCore]
  rfl

end

/-- Settles O16: the step is `resetCore`, whatever the core was doing. -/
theorem resetAbandonsThePendingCommand : Obligations.ResetAbandonsThePendingCommand := by
  intro s rest h
  refine ⟨_, step_reset h, rfl, rfl, rfl, rfl, rfl, rfl, rfl, rfl, rfl, rfl, fun b => ?_, fun p => ?_⟩
  · rw [bitBuf_resetCore]; rfl
  · rw [sampBuf_resetCore]; exact ⟨rfl, rfl⟩

/-- Settles O17: `resetCore` takes one free value, and every cell, sample half and GEN are its draw's. -/
theorem resetDrawsUnspecifiedContentsAnew : Obligations.ResetDrawsUnspecifiedContentsAnew := by
  intro s rest h
  exact ⟨_, step_reset h, bitCell_resetCore _, sampHalf_resetCore _, rfl, Nat.lt_succ_self s.draws, rfl, rfl, rfl⟩

/-! ### The free NaN (I7) -/

theorem getLsbD_plusInfinity : ∀ i < 64, plusInfinity.getLsbD i = decide (52 ≤ i ∧ i < 63) := by decide

/-- The exponent field of a NaN is all ones. -/
theorem exponent_of_isNaN {x : F64} (h : isNaN x = true) : x.extractLsb' 52 11 = BitVec.allOnes 11 := by
  rw [isNaN_iff, magnitude, infMag, one_shl_63] at h
  apply BitVec.eq_of_toNat_eq
  rw [BitVec.extractLsb'_toNat, Nat.shiftRight_eq_div_pow, BitVec.toNat_allOnes]
  omega

theorem or_plusInfinity_of_isNaN {x : F64} (h : isNaN x = true) : x ||| plusInfinity = x := by
  apply BitVec.eq_of_getLsbD_eq
  intro i hi
  rw [BitVec.getLsbD_or, getLsbD_plusInfinity i hi]
  by_cases hexp : 52 ≤ i ∧ i < 63
  · have hbit := congrArg (BitVec.getLsbD · (i - 52)) (exponent_of_isNaN h)
    have hlt : i - 52 < 11 := by omega
    simp only [BitVec.getLsbD_extractLsb', BitVec.getLsbD_allOnes, hlt, decide_true, Bool.true_and,
      Nat.add_sub_cancel' hexp.1] at hbit
    rw [hbit, Bool.true_or]
  · rw [decide_eq_false hexp, Bool.or_false]

/-- Settles O38: a NaN's own bits give it back. -/
theorem freeNaNsAreExactlyTheNaNs : Obligations.FreeNaNsAreExactlyTheNaNs := by
  refine ⟨isNaN_freeNaN, fun x h => ?_⟩
  rw [nanFrom, or_plusInfinity_of_isNaN h, if_pos h]

end Sys2Proof.Machine
